-- ==== Sys2Proof/Word.lean ====
section
/-! DEFINITION. The word types of FBSEQ: a byte of FB, SRC or the bus, and a 64-bit word of the
operation stream (00_scope.md R6 `OPW`, R7). -/

namespace Sys2Proof

/-- One byte: a cell of `FB` or `SRC`, or one byte of a bus write (20_memory.md R40). -/
abbrev Byte := BitVec 8

/-- One word of the operation stream `OPS` (00_scope.md R6: `OPW` = 64 bits). -/
abbrev Word := BitVec 64

end Sys2Proof
end

