-- ==== Sys2Proof/Syntax.lean ====
section
/-! DEFINITION. The instructions: one constructor per row of spec/opcode_table.json. The first seven are the
host operations (30_encoding.md R61), the other twenty-three the controller commands the block emits
(30_encoding.md R72, 41_encoder.md R100 to R122). -/

namespace Sys2Proof

/-- The configuration record, an operand of INIT (41_encoder.md R91; widths of 30_encoding.md R65, R66). -/
structure InitConfig where
  /-- `INV`, inverse flag. -/
  inv : BitVec 1
  /-- `AM`, addressing mode. -/
  am : BitVec 2
  /-- `SEG`, segment remap flag. -/
  seg : BitVec 1
  /-- `COM`, COM remap flag. -/
  com : BitVec 1
  /-- `FM`, fade/blink mode. -/
  fm : BitVec 2
  /-- `ZM`, zoom flag. -/
  zm : BitVec 1
  /-- `CP`, charge-pump enable. -/
  cp : BitVec 1
  /-- `CON`, contrast. -/
  con : BitVec 8
  /-- `CKD`, clock divide ratio. -/
  ckd : BitVec 8
  /-- `OSC`, oscillator frequency. -/
  osc : BitVec 8
  /-- `PC1`, pre-charge phase 1. -/
  pc1 : BitVec 8
  /-- `PC2`, pre-charge phase 2. -/
  pc2 : BitVec 8
  /-- `FI`, fade/blink interval. -/
  fi : BitVec 8
  /-- `VCH`, VCOMH deselect level. -/
  vch : BitVec 8
  deriving DecidableEq, Repr

/-- An instruction of the opcode table. -/
inductive Instr where
  /-- GEOM, format G (R63): panel width, panel height, device address. -/
  | geom (gw gh : BitVec 16) (ga : BitVec 7)
  /-- RELEASE, format N (R62). -/
  | release
  /-- INIT, format I (R65, R66): the presence bit `P` and the configuration record. -/
  | init (p : BitVec 1) (cfg : InitConfig)
  /-- CLEAR, format N (R62). -/
  | clear
  /-- SETAREA, format A (R64): start page, end page, start column, end column. -/
  | setArea (sp ep sc ec : BitVec 8)
  /-- BLIT, format B (R67): destination, presence and data bits, source size and address. -/
  | blit (x y : BitVec 16) (bp dp : BitVec 1) (bw bh : BitVec 16) (base : BitVec 32)
  /-- SHOW, format N (R62). -/
  | showFrame
  /-- DISPLAY_OFF (R100). -/
  | displayOff
  /-- DISPLAY_ON (R101). -/
  | displayOn
  /-- SET_COM_SCAN (R102): direction `d` = bit 3 of the opcode byte. -/
  | setComScan (d : BitVec 1)
  /-- SET_MUX (R103): operand byte `m`. -/
  | setMux (m : BitVec 8)
  /-- SET_CLKDIV (R104): oscillator nibble `f`, divide-ratio nibble `d`. -/
  | setClkDiv (f d : BitVec 4)
  /-- SET_NORMAL_INVERSE (R105): `i` = bit 0 of the opcode byte. -/
  | setNormalInverse (i : BitVec 1)
  /-- ENTIRE_DISPLAY_RESUME (R106). -/
  | entireDisplayResume
  /-- SET_START_LINE (R107): line `l` = bits 5 to 0 of the opcode byte. -/
  | setStartLine (l : BitVec 6)
  /-- SET_CONTRAST (R108): operand byte `c`. -/
  | setContrast (c : BitVec 8)
  /-- SET_FADE (R109): bits 7 to 4 of the operand byte (mode, bits 7 to 6 must be 0) and interval `t`. -/
  | setFade (m t : BitVec 4)
  /-- SET_ZOOM (R110): operand byte `z`. -/
  | setZoom (z : BitVec 8)
  /-- SET_DISPLAY_OFFSET (R111): operand byte `o`. -/
  | setDisplayOffset (o : BitVec 8)
  /-- SET_ADDR_MODE (R112): operand byte `a`. -/
  | setAddrMode (a : BitVec 8)
  /-- SET_PRECHARGE (R113): phase 2 nibble, phase 1 nibble. -/
  | setPrecharge (p2 p1 : BitVec 4)
  /-- SET_VCOMH (R114): operand byte `v`. -/
  | setVcomh (v : BitVec 8)
  /-- SET_COM_PINS (R115): operand byte, whose bits 4 and 5 are the two flags. -/
  | setComPins (b : BitVec 8)
  /-- SET_SEG_REMAP (R116): `s` = bit 0 of the opcode byte. -/
  | setSegRemap (s : BitVec 1)
  /-- SET_CHARGE_PUMP (R117): operand byte `e`. -/
  | setChargePump (e : BitVec 8)
  /-- SET_COL_RANGE (R118): start column, end column. -/
  | setColRange (sc ec : BitVec 8)
  /-- SET_PAGE_RANGE (R119): start page, end page. -/
  | setPageRange (sp ep : BitVec 8)
  /-- SET_PAGE_START (R120): page `p` = bits 2 to 0 of the opcode byte. -/
  | setPageStart (p : BitVec 3)
  /-- SET_COL_LOW (R121): low nibble of the column pointer. -/
  | setColLow (n : BitVec 4)
  /-- SET_COL_HIGH (R122): high nibble of the column pointer. -/
  | setColHigh (n : BitVec 4)
  deriving DecidableEq, Repr

end Sys2Proof
end

