-- ==== Sys2Proof/WellFormed.lean ====
section
/-! DEFINITION. Which instructions are well formed. The operand types already bound every field of a host
operation (30_encoding.md R62 to R68), and no operand value of one is illegal as an encoding: the values an
operation rejects are rejected when it runs, with a status. Four controller commands carry an operand byte
that the spec restricts further than its width. -/

namespace Sys2Proof

/-- The check, as a function that runs (R109, R110, R115, R117; R62 to R68 for the host operations). -/
def Instr.wf : Instr → Bool
  | .geom _ _ _ => true
  | .release => true
  | .init _ _ => true
  | .clear => true
  | .setArea _ _ _ _ => true
  | .blit _ _ _ _ _ _ _ => true
  | .showFrame => true
  | .displayOff => true
  | .displayOn => true
  | .setComScan _ => true
  | .setMux _ => true
  | .setClkDiv _ _ => true
  | .setNormalInverse _ => true
  | .entireDisplayResume => true
  | .setStartLine _ => true
  | .setContrast _ => true
  | .setFade m _ => decide (m.toNat < 4)
  | .setZoom z => decide (z = 0 ∨ z = 1)
  | .setDisplayOffset _ => true
  | .setAddrMode _ => true
  | .setPrecharge _ _ => true
  | .setVcomh _ => true
  | .setComPins b => decide (b &&& 0xCF = 0x02)
  | .setSegRemap _ => true
  | .setChargePump e => decide (e = 0x14 ∨ e = 0x10)
  | .setColRange _ _ => true
  | .setPageRange _ _ => true
  | .setPageStart _ => true
  | .setColLow _ => true
  | .setColHigh _ => true

/-- The host operations, the seven rows of format HOSTOP (30_encoding.md R61); the others are the controller commands
(30_encoding.md R72). -/
def Instr.isOperation : Instr → Bool
  | .geom _ _ _ => true
  | .release => true
  | .init _ _ => true
  | .clear => true
  | .setArea _ _ _ _ => true
  | .blit _ _ _ _ _ _ _ => true
  | .showFrame => true
  | .displayOff => false
  | .displayOn => false
  | .setComScan _ => false
  | .setMux _ => false
  | .setClkDiv _ _ => false
  | .setNormalInverse _ => false
  | .entireDisplayResume => false
  | .setStartLine _ => false
  | .setContrast _ => false
  | .setFade _ _ => false
  | .setZoom _ => false
  | .setDisplayOffset _ => false
  | .setAddrMode _ => false
  | .setPrecharge _ _ => false
  | .setVcomh _ => false
  | .setComPins _ => false
  | .setSegRemap _ => false
  | .setChargePump _ => false
  | .setColRange _ _ => false
  | .setPageRange _ _ => false
  | .setPageStart _ => false
  | .setColLow _ => false
  | .setColHigh _ => false

/-- An instruction every operand of which has a value the spec's encoding of it admits. -/
abbrev Instr.WellFormed (i : Instr) : Prop := i.wf = true

end Sys2Proof
end

