-- ==== Sys2Proof/Decode.lean ====
section
/-! DEFINITION. Decoding and encoding: host operation words (30_encoding.md R60 to R70) and controller
command bytes (30_encoding.md R72, 41_encoder.md R100 to R122). Decoding is total; what it rejects it
rejects by name. -/

namespace Sys2Proof

/-- Why bits are no instruction. -/
inductive Reject where
  /-- `w0[7:0]` is none of the seven opcodes (R69). -/
  | illegalOpcode
  /-- A legal opcode with a reserved bit of `w0` or `w1` set (R69). -/
  | reservedBits
  /-- A byte that begins none of the 23 controller commands (R72). -/
  | unknownCommand
  deriving DecidableEq, Repr

/-- What decoding answers. `len` counts 64-bit words for a host operation (`LEN`, R61) and bytes for a
controller command. -/
inductive Decoded where
  | instr (i : Instr) (len : Nat)
  | illegal (why : Reject) (len : Nat)
  /-- The second word, or an operand byte, is not there yet. -/
  | incomplete
  deriving DecidableEq, Repr

/-- The encoding of an instruction: the words of a host operation, or the bytes of a controller command. -/
inductive Encoded where
  | operation (ws : List Word)
  | command (bs : List Byte)
  deriving DecidableEq, Repr

/-! ### Host operations -/

/-- `w[lo + len - 1 : lo]`, an operand field (R7, R68). -/
def field (w : Word) (lo len : Nat) : BitVec len := w.extractLsb' lo len

/-- `LEN(op)`, an operation's length in words, from its opcode alone (R60, R61; 1 for an illegal one, R69). -/
def lenOf (op : Byte) : Nat := if op = 0x03 ∨ op = 0x06 then 2 else 1

/-- `RESMASK0(op)` of R70: the bits of `w0` that must be 0. -/
def resMask0 (op : Byte) : Word :=
  if op = 0x01 then 0xFFFF800000000000
  else if op = 0x05 then 0xFFFFFF0000000000
  else if op = 0x03 then 0xFFFFFFFFFFFC0000
  else if op = 0x06 then 0xFFFFFC0000000000
  else 0xFFFFFFFFFFFFFF00

/-- `RESMASK1(op)` of R70: the bits of `w1` that must be 0. -/
def resMask1 (op : Byte) : Word := if op = 0x03 then 0xFF00000000000000 else 0

/-- The operands of a word whose opcode is GEOM (R63). -/
def decodeGeom (w0 : Word) : Instr := .geom (field w0 8 16) (field w0 24 16) (field w0 40 7)

/-- The operands of words whose opcode is INIT (R65, R66). -/
def decodeInit (w0 w1 : Word) : Instr :=
  .init (field w0 8 1)
    { inv := field w0 9 1, am := field w0 10 2, seg := field w0 12 1, com := field w0 13 1,
      fm := field w0 14 2, zm := field w0 16 1, cp := field w0 17 1,
      con := field w1 0 8, ckd := field w1 8 8, osc := field w1 16 8, pc1 := field w1 24 8,
      pc2 := field w1 32 8, fi := field w1 40 8, vch := field w1 48 8 }

/-- The operands of a word whose opcode is SETAREA (R64). -/
def decodeSetArea (w0 : Word) : Instr :=
  .setArea (field w0 8 8) (field w0 16 8) (field w0 24 8) (field w0 32 8)

/-- The operands of words whose opcode is BLIT (R67). -/
def decodeBlit (w0 w1 : Word) : Instr :=
  .blit (field w0 8 16) (field w0 24 16) (field w0 40 1) (field w0 41 1)
    (field w1 0 16) (field w1 16 16) (field w1 32 32)

/-- The operation an opcode selects and how its operands are read (the table of R61); none for an illegal
opcode. -/
def selectOp (op : Byte) (w0 w1 : Word) : Option Instr :=
  if op = 0x01 then some (decodeGeom w0)
  else if op = 0x02 then some .release
  else if op = 0x03 then some (decodeInit w0 w1)
  else if op = 0x04 then some .clear
  else if op = 0x05 then some (decodeSetArea w0)
  else if op = 0x06 then some (decodeBlit w0 w1)
  else if op = 0x07 then some .showFrame
  else none

/-- The reserved-bit check of R70, then the dispatch. -/
def decodeChecked (op : Byte) (w0 w1 : Word) : Decoded :=
  match selectOp op w0 w1 with
  | none => .illegal .illegalOpcode 1
  | some i =>
    if w0 &&& resMask0 op ≠ 0 ∨ w1 &&& resMask1 op ≠ 0 then .illegal .reservedBits (lenOf op)
    else .instr i (lenOf op)

/-- Decoding of one operation, as R70 gives it. The second word is asked for only when the opcode is a legal
one of two words, and before any reserved bit is looked at. -/
def decodeOp (w0 : Word) (w1 : Option Word) : Decoded :=
  if lenOf (field w0 0 8) = 2 then
    match w1 with
    | none => .incomplete
    | some v => decodeChecked (field w0 0 8) w0 v
  else decodeChecked (field w0 0 8) w0 0

/-! ### Controller commands -/

/-- The high nibble of a byte. -/
def hiNibble (b : Byte) : BitVec 4 := b.extractLsb' 4 4

/-- The low nibble of a byte. -/
def loNibble (b : Byte) : BitVec 4 := b.extractLsb' 0 4

/-- The commands of one byte (R100 to R102, R105 to R107, R116, R120 to R122), each under the mask that
spec/opcode_table.json gives it. -/
def decodeOneByte (op : Byte) : Option Instr :=
  if op = 0xAE then some .displayOff
  else if op = 0xAF then some .displayOn
  else if op &&& 0xF7 = 0xC0 then some (.setComScan (op.extractLsb' 3 1))
  else if op &&& 0xFE = 0xA6 then some (.setNormalInverse (op.extractLsb' 0 1))
  else if op = 0xA4 then some .entireDisplayResume
  else if op &&& 0xC0 = 0x40 then some (.setStartLine (op.extractLsb' 0 6))
  else if op &&& 0xFE = 0xA0 then some (.setSegRemap (op.extractLsb' 0 1))
  else if op &&& 0xF8 = 0xB0 then some (.setPageStart (op.extractLsb' 0 3))
  else if op &&& 0xF0 = 0x00 then some (.setColLow (loNibble op))
  else if op &&& 0xF0 = 0x10 then some (.setColHigh (loNibble op))
  else none

/-- The commands of an opcode byte and one operand byte `v` (R103, R104, R108 to R115, R117). -/
def decodeTwoBytes (op v : Byte) : Option Instr :=
  if op = 0xA8 then some (.setMux v)
  else if op = 0xD5 then some (.setClkDiv (hiNibble v) (loNibble v))
  else if op = 0x81 then some (.setContrast v)
  else if op = 0x23 then some (.setFade (hiNibble v) (loNibble v))
  else if op = 0xD6 then some (.setZoom v)
  else if op = 0xD3 then some (.setDisplayOffset v)
  else if op = 0x20 then some (.setAddrMode v)
  else if op = 0xD9 then some (.setPrecharge (hiNibble v) (loNibble v))
  else if op = 0xDB then some (.setVcomh v)
  else if op = 0xDA then some (.setComPins v)
  else if op = 0x8D then some (.setChargePump v)
  else none

/-- The commands of an opcode byte and two operand bytes (R118, R119). -/
def decodeThreeBytes (op v w : Byte) : Option Instr :=
  if op = 0x21 then some (.setColRange v w)
  else if op = 0x22 then some (.setPageRange v w)
  else none

/-- How many operand bytes follow a command's opcode byte (R72; `operand_bytes` of the opcode table); none
for a byte that begins no command. -/
def operandBytes (op : Byte) : Option Nat :=
  if (decodeOneByte op).isSome then some 0
  else if (decodeTwoBytes op 0).isSome then some 1
  else if (decodeThreeBytes op 0 0).isSome then some 2
  else none

/-- The first controller command of a byte sequence (R72). -/
def decodeCommand : List Byte → Decoded
  | [] => .incomplete
  | op :: rest =>
    match operandBytes op with
    | none => .illegal .unknownCommand 1
    | some 0 => match decodeOneByte op with
      | some i => .instr i 1
      | none => .illegal .unknownCommand 1
    | some 1 => match rest with
      | v :: _ => match decodeTwoBytes op v with
        | some i => .instr i 2
        | none => .illegal .unknownCommand 1
      | [] => .incomplete
    | some _ => match rest with
      | v :: w :: _ => match decodeThreeBytes op v w with
        | some i => .instr i 3
        | none => .illegal .unknownCommand 1
      | _ => .incomplete

/-- Decoding, of either kind of code. -/
def decode : Encoded → Decoded
  | .operation [] => .incomplete
  | .operation (w0 :: ws) => decodeOp w0 ws.head?
  | .command bs => decodeCommand bs

/-! ### Encoding -/

/-- The bytes of a controller command (R100 to R122), the high bits of each byte first; none for a host
operation. -/
def encodeCommand : Instr → List Byte
  | .displayOff => [0b10101110]
  | .displayOn => [0b10101111]
  | .setComScan d => [0b1100#4 ++ d ++ 0b000#3]
  | .setMux m => [0xA8, m]
  | .setClkDiv f d => [0xD5, f ++ d]
  | .setNormalInverse i => [0b1010011#7 ++ i]
  | .entireDisplayResume => [0b10100100]
  | .setStartLine l => [0b01#2 ++ l]
  | .setContrast c => [0x81, c]
  | .setFade m t => [0x23, m ++ t]
  | .setZoom z => [0xD6, z]
  | .setDisplayOffset o => [0xD3, o]
  | .setAddrMode a => [0x20, a]
  | .setPrecharge p2 p1 => [0xD9, p2 ++ p1]
  | .setVcomh v => [0xDB, v]
  | .setComPins b => [0xDA, b]
  | .setSegRemap s => [0b1010000#7 ++ s]
  | .setChargePump e => [0x8D, e]
  | .setColRange sc ec => [0x21, sc, ec]
  | .setPageRange sp ep => [0x22, sp, ep]
  | .setPageStart p => [0b10110#5 ++ p]
  | .setColLow n => [0b0000#4 ++ n]
  | .setColHigh n => [0b0001#4 ++ n]
  | .geom _ _ _ => []
  | .release => []
  | .init _ _ => []
  | .clear => []
  | .setArea _ _ _ _ => []
  | .blit _ _ _ _ _ _ _ => []
  | .showFrame => []

/-- The first word of INIT (R65), the highest field first. -/
def initWord0 (p : BitVec 1) (c : InitConfig) : Word :=
  0#46 ++ c.cp ++ c.zm ++ c.fm ++ c.com ++ c.seg ++ c.am ++ c.inv ++ p ++ 0x03#8

/-- The second word of INIT (R66), the highest field first. -/
def initWord1 (c : InitConfig) : Word :=
  0#8 ++ c.vch ++ c.fi ++ c.pc2 ++ c.pc1 ++ c.osc ++ c.ckd ++ c.con

/-- The code of an instruction: R62 to R67 for a host operation, the highest field first and the opcode last. -/
def encode : Instr → Encoded
  | .geom gw gh ga => .operation [0#17 ++ ga ++ gh ++ gw ++ 0x01#8]
  | .release => .operation [0x02]
  | .init p c => .operation [initWord0 p c, initWord1 c]
  | .clear => .operation [0x04]
  | .setArea sp ep sc ec => .operation [0#24 ++ ec ++ sc ++ ep ++ sp ++ 0x05#8]
  | .blit x y bp dp bw bh base =>
      .operation [0#22 ++ dp ++ bp ++ y ++ x ++ 0x06#8, base ++ bh ++ bw]
  | .showFrame => .operation [0x07]
  | .displayOff => .command (encodeCommand .displayOff)
  | .displayOn => .command (encodeCommand .displayOn)
  | .setComScan d => .command (encodeCommand (.setComScan d))
  | .setMux m => .command (encodeCommand (.setMux m))
  | .setClkDiv f d => .command (encodeCommand (.setClkDiv f d))
  | .setNormalInverse i => .command (encodeCommand (.setNormalInverse i))
  | .entireDisplayResume => .command (encodeCommand .entireDisplayResume)
  | .setStartLine l => .command (encodeCommand (.setStartLine l))
  | .setContrast c => .command (encodeCommand (.setContrast c))
  | .setFade m t => .command (encodeCommand (.setFade m t))
  | .setZoom z => .command (encodeCommand (.setZoom z))
  | .setDisplayOffset o => .command (encodeCommand (.setDisplayOffset o))
  | .setAddrMode a => .command (encodeCommand (.setAddrMode a))
  | .setPrecharge p2 p1 => .command (encodeCommand (.setPrecharge p2 p1))
  | .setVcomh v => .command (encodeCommand (.setVcomh v))
  | .setComPins b => .command (encodeCommand (.setComPins b))
  | .setSegRemap s => .command (encodeCommand (.setSegRemap s))
  | .setChargePump e => .command (encodeCommand (.setChargePump e))
  | .setColRange sc ec => .command (encodeCommand (.setColRange sc ec))
  | .setPageRange sp ep => .command (encodeCommand (.setPageRange sp ep))
  | .setPageStart p => .command (encodeCommand (.setPageStart p))
  | .setColLow n => .command (encodeCommand (.setColLow n))
  | .setColHigh n => .command (encodeCommand (.setColHigh n))

/-- The length of an instruction's code: words of a host operation, bytes of a controller command. -/
def encodedLength : Encoded → Nat
  | .operation ws => ws.length
  | .command bs => bs.length

/-! ### The opcode table's numbering of bits -/

/-- The bytes of an instruction whose bits are `w`, byte 0 first, as many as the longest controller command
has; the bits above `nbits` are 0. -/
def tableBytes (nbits w : Nat) : List Byte :=
  let v := w % 2 ^ nbits
  [BitVec.ofNat 8 v, BitVec.ofNat 8 (v / 2 ^ 8), BitVec.ofNat 8 (v / 2 ^ 16)]

/-- The words of an instruction whose bits are `w`, word 0 first, as many as the longest host operation has;
the bits above `nbits` are 0. -/
def tableWords (nbits w : Nat) : List Word :=
  let v := w % 2 ^ nbits
  [BitVec.ofNat 64 v, BitVec.ofNat 64 (v / 2 ^ 64)]

/-- A row of fewer than 64 bits is a controller command, any other a host operation (log entry 3). -/
def tableCode (nbits w : Nat) : Encoded :=
  if nbits < 64 then .command (tableBytes nbits w) else .operation (tableWords nbits w)

/-- The instruction the decoder reads from an instruction whose bits are `w`, numbered as
spec/opcode_table.json numbers them. -/
def decodeTableWord (nbits w : Nat) : Option Instr :=
  match decode (tableCode nbits w) with
  | .instr i _ => some i
  | .illegal _ _ => none
  | .incomplete => none

end Sys2Proof
end

