-- ==== Sys2Proof/Config.lean ====
section
/-! DEFINITION. The implementation parameters of 00_scope.md R6, and the free values: what the spec
leaves open is a constant with no body, so that no proof can see what it is. -/

namespace Sys2Proof

/-- The transport's answer to one bus write (20_memory.md R51): `ack k` is `Ack(k)`, the transport says
it wrote `k` bytes; `err` is `Err`, a transport failure, a timeout among them. -/
inductive Answer where
  | ack (k : Nat)
  | err
  deriving DecidableEq, Repr, Inhabited

namespace Config

/-- `GEOMS`, the supported (width, height) pairs in pixels (R6). -/
def geoms : List (Nat × Nat) := [(128, 64), (128, 32)]

/-- `PAGE_ROWS`, pixel rows per page (R6). -/
def pageRows : Nat := 8

/-- `ABS_MAX_PAGE`, the controller's absolute page limit (R6). -/
def absMaxPage : Nat := 7

/-- `ABS_MAX_COL`, the controller's absolute column limit (R6). -/
def absMaxCol : Nat := 127

/-- `MUX_MIN` and `MUX_MAX`, the legal multiplex ratio (R6). -/
def muxMin : Nat := 1
/-- See `muxMin`. -/
def muxMax : Nat := 64

/-- `SRC_AW`: source memory has 2^32 byte addresses (R6, 20_memory.md R43). -/
def srcAw : Nat := 32

/-- `CTRL_CMD`, the control byte of a command write (R6, 30_encoding.md R71). -/
def ctrlCmd : Byte := 0x00

/-- `CTRL_DATA`, the control byte of a data write (R6, 30_encoding.md R71). -/
def ctrlData : Byte := 0x40

/-- `MARKER`, the protocol marker `FB[0]`, equal to `CTRL_DATA` (R6, 10_state.md R30). -/
def marker : Byte := ctrlData

/-- `CLKDIV_MAX` (R6). -/
def clkdivMax : Nat := 15
/-- `OSC_MAX` (R6). -/
def oscMax : Nat := 15
/-- `FADEINT_MAX` (R6). -/
def fadeintMax : Nat := 15
/-- `PRECHG_MIN` (R6). -/
def prechgMin : Nat := 1
/-- `PRECHG_MAX` (R6). -/
def prechgMax : Nat := 15

/-- `COM_LR_REMAP`, the second flag of the COM-pins byte (R6, 41_encoder.md R115): 0 by decision D11. -/
def comLrRemap : BitVec 1 := 0

/-- `T_TIMEOUT`, the transport timeout (R6: OPEN, "the model takes it as an argument"). A free value: it has
no body. It is presented with every bus write (20_memory.md R50) and no rule depends on it (log entry 1). -/
opaque tTimeout : Nat

/-- The transport's answer to a bus write for which the state schedules none: a free value ("any answer is
possible at any write", 20_memory.md R51). It is applied to what the block presents, the device address, the
bytes and the timeout (R50), and to the number of writes already in the transcript, so that every write has
an answer of its own (log entry 2). -/
opaque transportAnswer (written : Nat) (addr : BitVec 7) (bytes : List Byte) (timeout : Nat) : Answer

end Config

end Sys2Proof
end

