-- ==== Sys2Proof/Machine/State.lean ====
section
/-! DEFINITION. The state of the machine (10_state.md), the reasons a step can stop, and the state right after
reset (10_state.md R36). -/

namespace Sys2Proof.Machine

/-- The status codes that an operation can end with, and InvalidFont, which no operation of the block
produces (60_exceptions.md R161). Their numbers are `StatusCode.number`. -/
inductive StatusCode where
  | ok
  | invalidGeometry
  | notReady
  | invalidConfig
  | invalidBitmap
  | invalidFont
  | transportFailure
  | invalidArea
  | illegalOperation
  deriving DecidableEq, Repr

/-- `SEQ.PHASE` of SETAREA (10_state.md R33). -/
inductive AreaPhase where
  | pageRange
  | colRange
  deriving DecidableEq, Repr

/-- `SEQ.PHASE` of SHOW (10_state.md R33). -/
inductive ShowPhase where
  | mode
  | pageSel
  | colLo
  | colHi
  | data
  deriving DecidableEq, Repr

/-- The transient sequencing state (10_state.md R33), which has a value only inside one operation. -/
inductive Seq where
  /-- Between operations: no value. -/
  | idle
  /-- Commands staged in the command encoder and not yet sent, the first to be sent first (log entry 3). -/
  | command (staged : List Byte)
  /-- Inside INIT: the staged command sequence. -/
  | initSeq (staged : List Byte)
  /-- Inside SETAREA. -/
  | areaAt (phase : AreaPhase)
  /-- Inside SHOW: `SEQ.PAGE` and `SEQ.PHASE`. DESIGN CHOICE (log entry 11): in phase `mode` the page is 0. -/
  | showAt (page : Nat) (phase : ShowPhase)
  /-- Inside BLIT: the row, and the byte of the row being read. -/
  | blitAt (row byte : Nat)
  deriving DecidableEq, Repr

/-- Why a run stops. -/
inductive Fault where
  /-- Raised by fetching when the host has supplied no word at `opc`: the block is idle (60_exceptions.md R174).
  That the step then stops here is the model's choice (log entry 4). Lifted by the host. Safe. -/
  | awaitOperation
  /-- Raised by fetching when the second word of INIT or BLIT is not supplied (60_exceptions.md R176, 30_encoding.md
  R70). Stuck, and lifted by the host. Safe. -/
  | awaitSecondWord
  /-- Raised by a bus write that the transport does not answer (60_exceptions.md R176, 20_memory.md R50), with the
  sequencing state at the write. Stuck, and lifted by the transport. Safe. -/
  | awaitAnswer (at_ : Seq)
  /-- `SrcFault` (60_exceptions.md R176): raised by BLIT's read of an address of `SRC` that the host has not admitted or
  that is 2^32 or more, with the sequencing state at the read. Safe. -/
  | srcFault (addr : Nat) (at_ : Seq)
  /-- `NoValue` (60_exceptions.md R176, 00_scope.md R10): raised by the host's observation read, or by BLIT in a state
  whose geometry is none of `GEOMS`, at an index of `FB` that holds no value. Safe. -/
  | noValue (index : Nat)
  deriving DecidableEq, Repr

/-- Why an instruction is refused. -/
inductive Refusal where
  /-- Raised by an arm of `exec` whose instruction has no meaning yet. No arm is left that raises it. Safe. -/
  | notModelled (mnemonic : String)
  /-- Raised by fetching while the transient state is inside an operation, and by the host's moves and reads then and while a bus write
  awaits its answer: "no move in the model (it is refused)" (20_memory.md R57, 93_implementation_defined.md I7). Safe. -/
  | operationInFlight
  /-- Raised by fetching when the staged bytes begin with none of the 23 commands (30_encoding.md R72). Safe. -/
  | unknownCommand
  /-- Raised by fetching when an operand byte of the staged command is missing (30_encoding.md R72). Safe. -/
  | incompleteCommand
  deriving DecidableEq, Repr

/-- One entry of the transcript `TR` (10_state.md R34). -/
structure BusEntry where
  /-- The device address. -/
  addr : BitVec 7
  /-- The bytes, the control byte first. -/
  bytes : List Byte
  /-- The transport's answer. -/
  answer : Answer
  deriving DecidableEq, Repr

/-- A byte memory: its listed cells, by strictly rising address. What an unlisted address reads as is a
parameter of the operations (`Memory.read`): 0x00 in `FB`, no value in `SRC`. -/
abbrev Memory := List Host.Cell

/-- The state of FBSEQ: its registers (10_state.md R21 to R26), the framebuffer store (R29), the transient
sequencing state (R33), the transcript (R34), and the inputs it reads: the operation stream (20_memory.md R44), the
source memory (R43) and the transport's answers (R51). -/
structure State where
  /-- `opc`, the operation-stream position (R21). -/
  opc : Nat
  /-- `STATUS.CODE` (R22). -/
  status : StatusCode
  /-- `GEOM_W.W` (R23). -/
  geomW : BitVec 16
  /-- `GEOM_H.H` (R24). -/
  geomH : BitVec 16
  /-- `CTRL.READY` (R25). -/
  ready : Bool
  /-- `DEVADDR.ADDR` (R26). -/
  devAddr : BitVec 7
  /-- `FB` (R29). -/
  fb : Memory
  /-- `SEQ` (R33). -/
  seq : Seq
  /-- `TR` (R34), the oldest entry first. -/
  tr : List BusEntry
  /-- `OPS` (20_memory.md R44). -/
  ops : List Word
  /-- `SRC` (20_memory.md R43): the admitted bytes. -/
  src : Memory
  /-- The transport's coming answers, the next one first; `none` is a write it does not answer
  (60_exceptions.md R176). The model's own field (log entry 2). -/
  draws : List (Option Answer)
  deriving DecidableEq, Repr

/-- The machine right after reset (10_state.md R36, 70_reset_and_hazards.md R180). The inputs are empty: the host has
supplied and admitted nothing, and no answer is scheduled (log entries 2 and 4). -/
def State.reset : State where
  opc := 0
  status := .ok
  geomW := 0
  geomH := 0
  ready := false
  devAddr := 0
  fb := []
  seq := .idle
  tr := []
  ops := []
  src := []
  draws := []

end Sys2Proof.Machine
end

