-- ==== Sys2Proof/Machine/Flags.lean ====
section
/-! DEFINITION. The status codes' numbers and the register window the host reads (60_exceptions.md R161,
10_state.md R22 to R27). The block has no flag, condition code or predicate beside `STATUS.CODE` and
`CTRL.READY` (10_state.md R28). -/

namespace Sys2Proof.Machine

/-- The number of a status code (60_exceptions.md R161). -/
def StatusCode.number : StatusCode → BitVec 4
  | .ok => 0
  | .invalidGeometry => 1
  | .notReady => 2
  | .invalidConfig => 3
  | .invalidBitmap => 4
  | .invalidFont => 5
  | .transportFailure => 6
  | .invalidArea => 7
  | .illegalOperation => 8

/-- `STATUS` as the host reads it: `CODE` in bits 3 to 0, the reserved bits 0 (10_state.md R22). -/
def statusReg (s : State) : BitVec 8 := 0#4 ++ s.status.number

/-- `CTRL` as the host reads it: `READY` in bit 0, the reserved bits 0 (10_state.md R25). -/
def ctrlReg (s : State) : BitVec 8 := 0#7 ++ BitVec.ofBool s.ready

/-- `DEVADDR` as the host reads it: `ADDR` in bits 6 to 0, the reserved bit 0 (10_state.md R26). -/
def devAddrReg (s : State) : BitVec 8 := 0#1 ++ s.devAddr

/-- What the register window holds at an index: indices 0 to 4, any other reads 0 (10_state.md R27). The host's read of it is
`readWindow` (Machine/HostPort.lean). -/
def windowValue (index : Nat) (s : State) : BitVec 16 :=
  match index with
  | 0 => (statusReg s).setWidth 16
  | 1 => s.geomW
  | 2 => s.geomH
  | 3 => (ctrlReg s).setWidth 16
  | 4 => (devAddrReg s).setWidth 16
  | _ => 0

end Sys2Proof.Machine
end

