-- ==== Sys2Proof/Machine/Operands.lean ====
section
/-! DEFINITION. What operands and geometry derive, and the checks on operands: sizes (00_scope.md R6, 10_state.md R29,
R32), GEOM's pair (R80), INIT's record (41_encoder.md R92, R93), SETAREA's window (42_fbmgr.md R132), BLIT's bitmap and
clipping (43_compositor.md R140, R141). Every operand is read as an unbounded natural (30_encoding.md R68). -/

namespace Sys2Proof.Machine

/-- `W`, the panel width, as a natural. -/
def State.width (s : State) : Nat := s.geomW.toNat

/-- `H`, the panel height, as a natural. -/
def State.height (s : State) : Nat := s.geomH.toNat

/-- `NPIX = W * H / 8` (00_scope.md R6). -/
def State.npix (s : State) : Nat := s.width * s.height / 8

/-- `FBSIZE = NPIX + 1` (00_scope.md R6, 10_state.md R29). -/
def State.fbSize (s : State) : Nat := s.npix + 1

/-- `PAGES = H / 8` (00_scope.md R6, 10_state.md R32). -/
def State.pages (s : State) : Nat := s.height / Config.pageRows

/-- GEOM's check: the pair is one of `GEOMS` (R80). -/
def supportedGeometry (gw gh : BitVec 16) : Bool := decide ((gw.toNat, gh.toNat) ∈ Config.geoms)

/-- `MUX = H - 1` (R92). -/
def muxOf (h : Nat) : Nat := h - 1

/-- `ALT = (H > 32) ? 1 : 0` (R92). -/
def altOf (h : Nat) : BitVec 1 := if h > 32 then 1 else 0

/-- `VALID(cfg, H)` (R93). -/
def validConfig (c : InitConfig) (h : Nat) : Bool :=
  decide (Config.muxMin ≤ muxOf h ∧ muxOf h ≤ Config.muxMax ∧
    c.ckd.toNat ≤ Config.clkdivMax ∧ c.osc.toNat ≤ Config.oscMax ∧ c.fi.toNat ≤ Config.fadeintMax ∧
    (Config.prechgMin ≤ c.pc1.toNat ∧ c.pc1.toNat ≤ Config.prechgMax) ∧
    (Config.prechgMin ≤ c.pc2.toNat ∧ c.pc2.toNat ≤ Config.prechgMax))

/-- `AREA_OK(SP, EP, SC, EC)` for a panel of width `w` and height `h` (R132). -/
def areaOk (w h : Nat) (sp ep sc ec : BitVec 8) : Bool :=
  decide (h / Config.pageRows - 1 ≤ Config.absMaxPage ∧ w - 1 ≤ Config.absMaxCol ∧
    sp.toNat ≤ ep.toNat ∧ sc.toNat ≤ ec.toNat ∧
    ep.toNat ≤ h / Config.pageRows - 1 ∧ ec.toNat ≤ w - 1)

/-- BLIT's bitmap check: present, with data, of nonzero width and height (R140). -/
def bitmapOk (bp dp : BitVec 1) (bw bh : BitVec 16) : Bool :=
  decide (¬ (bp = 0 ∨ dp = 0 ∨ bw.toNat = 0 ∨ bh.toNat = 0))

/-- BLIT's off-screen test (R141). -/
def offScreen (w h : Nat) (x y : BitVec 16) : Bool := decide (w ≤ x.toNat ∨ h ≤ y.toNat)

/-- The clipped extent of a bitmap of size `size` drawn at `at_` on a panel of size `panel`: `DW` or `DH`
of R141. -/
def clipped (size panel at_ : Nat) : Nat := min size (panel - at_)

/-- `STRIDE = ceil(BW / 8)`, the source row pitch (20_memory.md R46, R140). -/
def strideOf (bw : Nat) : Nat := (bw + 7) / 8

end Sys2Proof.Machine
end

