-- ==== Sys2Proof/Machine/Ops.lean ====
section
/-! DEFINITION. The named operations over memory and registers: byte memories, `FB`, `PIX` and `SRC`, ending an operation
with a status (the block's one exception mechanism), the readiness check, and bus writes. -/

namespace Sys2Proof.Machine

/-! ### Byte memories

A memory lists its cells by strictly rising address, and lists none that holds what an unlisted address reads as.
That default is the argument `d`: `some 0` for `FB`, `none` (no value) for `SRC`. -/

/-- The byte at an address, or what an unlisted address reads as. -/
def Memory.read (d : Option Byte) : Memory → Nat → Option Byte
  | [], _ => d
  | (b, v) :: m, a => if a = b then some v else Memory.read d m a

/-- Lists `v` at `a`, at its place in the order. -/
def Memory.insert (a : Nat) (v : Byte) : Memory → Memory
  | [] => [(a, v)]
  | (b, w) :: m =>
    if a < b then (a, v) :: (b, w) :: m
    else if a = b then (a, v) :: m
    else (b, w) :: Memory.insert a v m

/-- Drops the listed cells whose addresses lie in `[lo, lo + n)`. -/
def Memory.forget (lo n : Nat) (m : Memory) : Memory :=
  m.filter fun c => ! (decide (lo ≤ c.1) && decide (c.1 < lo + n))

/-- Writes `v` at `a`: the value an unlisted address reads as is written by listing nothing there. -/
def Memory.write (d : Option Byte) (a : Nat) (v : Byte) (m : Memory) : Memory :=
  if some v = d then Memory.forget a 1 m else Memory.insert a v m

/-- The canonical form: addresses strictly rising, and no cell that holds the default. -/
def Memory.wf (d : Option Byte) : Memory → Bool
  | [] => true
  | (a, v) :: m => m.all (fun c => decide (a < c.1)) && decide (some v ≠ d) && Memory.wf d m

/-! ### The framebuffer store -/

/-- The byte of a framebuffer store at an index that exists; an unlisted byte is 0x00. -/
def byteAt (fb : Memory) (j : Nat) : Byte := (Memory.read (some 0) fb j).getD 0

/-- `FB[j]` for an index that exists (10_state.md R29). -/
def State.fbByte (s : State) (j : Nat) : Byte := byteAt s.fb j

/-- `PIX[i]`, which abbreviates `FB[1 + i]` (00_scope.md R9, 10_state.md R29). -/
def State.pix (s : State) (i : Nat) : Byte := s.fbByte (1 + i)

/-- The pixel at column `x` and row `r` (10_state.md R31). -/
def State.pixel (s : State) (x r : Nat) : Bool :=
  (s.pix (r / Config.pageRows * s.width + x)).getLsbD (r % Config.pageRows)

/-- A fresh store of `npix + 1` bytes: the marker, and every pixel byte 0x00 (40_lifecycle.md R80). -/
def freshFb (npix : Nat) : Memory :=
  Memory.forget 1 npix (Memory.write (some 0) 0 Config.marker [])

/-- The index of `FB` holds a byte: it is below `FBSIZE`, and `CTRL.READY` is 1 (10_state.md R29, 00_scope.md R10). -/
def State.fbHolds (s : State) (j : Nat) : Bool := s.ready && decide (j < s.fbSize)

/-! ### Source memory -/

/-- `MemRead(addr, 1)` (20_memory.md R43): none where the host has admitted no byte, or at 2^32 or above. -/
def memRead (src : Memory) (addr : Nat) : Option Byte :=
  if addr < 2 ^ Config.srcAw then Memory.read none src addr else none

/-! ### Ending an operation -/

/-- `raise Status(code)` of an operation of `len` words (00_scope.md R9; 60_exceptions.md R160, R166): the status is
written, `opc` moves past the operation (10_state.md R21), the transient state ends (10_state.md R33), and no other state
changes. It is the block's one way to end an operation; there is no trap and nothing to return from (60_exceptions.md
R167). -/
def raiseStatus (code : StatusCode) (len : Nat) (s : State) : State :=
  { s with status := code, opc := s.opc + len, seq := .idle }

/-- The check every operation but GEOM and RELEASE makes first (60_exceptions.md R165): `NotReady` unless
`CTRL.READY` is 1. -/
def whenReady (len : Nat) (s : State) (k : Host.Outcome State Fault Refusal) : Host.Outcome State Fault Refusal :=
  if s.ready then k else .next (raiseStatus .notReady len s)

/-! ### Bus writes -/

/-- The answer to a bus write of `bytes` for which the state schedules none: a free value (20_memory.md R51; log
entry 2). -/
def freeAnswer (bytes : List Byte) (s : State) : Answer :=
  Config.transportAnswer s.tr.length s.devAddr bytes Config.tTimeout

/-- The transcript entry of a write that was answered `a`. -/
def entryOf (s : State) (bytes : List Byte) (a : Answer) : BusEntry := ⟨s.devAddr, bytes, a⟩

/-- The transcript entry of a write that was fully acknowledged. -/
def ackedEntry (s : State) (bytes : List Byte) : BusEntry := entryOf s bytes (.ack bytes.length)

/-- The transcript after a write of `bytes` answered `a` (10_state.md R34, 20_memory.md R50). -/
def State.logWrite (bytes : List Byte) (a : Answer) (s : State) : State :=
  { s with tr := s.tr ++ [entryOf s bytes a] }

/-- `BusWrite(bytes)` (20_memory.md R50, R51): one transcript entry and the transport's answer; none while the
transport does not answer. -/
def busWrite (bytes : List Byte) (s : State) : Option (Answer × State) :=
  match s.draws with
  | [] => some (freeAnswer bytes s, s.logWrite bytes (freeAnswer bytes s))
  | none :: _ => none
  | some a :: ds => some (a, { s.logWrite bytes a with draws := ds })

/-- `ok(BusWrite(bytes))`, read off the answer: full acknowledgement of the write (R51). -/
def acked (bytes : List Byte) (a : Answer) : Bool := decide (a = .ack bytes.length)

/-- How a run of bus writes went. -/
inductive Emitted where
  /-- Every write was fully acknowledged. -/
  | done (s : State)
  /-- A write was not; the writes after it were not emitted. -/
  | failed (s : State)
  /-- The transport does not answer the write at this sequencing state. -/
  | silent (at_ : Seq)
  deriving DecidableEq, Repr

/-- Bus writes in order, each with the sequencing state it is made in, up to the first that is not fully
acknowledged (60_exceptions.md R165 step 5, 44_sequencer.md R152). -/
def emitAll : List (Seq × List Byte) → State → Emitted
  | [], s => .done s
  | (q, bytes) :: rest, s =>
    match busWrite bytes { s with seq := q } with
    | none => .silent q
    | some (a, s') => if acked bytes a then emitAll rest s' else .failed s'

/-- The answers that acknowledge every one of a run of writes in full. -/
def ackAll (ws : List (Seq × List Byte)) : List (Option Answer) := ws.map fun w => some (.ack w.2.length)

/-- The end of an operation that writes the bus: `OK`, or `TransportFailure` at the first failed write. -/
def finishEmitted (len : Nat) : Emitted → Host.Outcome State Fault Refusal
  | .done s => .next (raiseStatus .ok len s)
  | .failed s => .next (raiseStatus .transportFailure len s)
  | .silent q => .fault (.awaitAnswer q)

/-- A command write of controller commands, in order (30_encoding.md R71): the control byte `CTRL_CMD`, then the
commands' bytes. -/
def commandWrite (cmds : List Instr) : List Byte := Config.ctrlCmd :: cmds.flatMap encodeCommand

/-- A data write (30_encoding.md R71): the control byte `CTRL_DATA`, then pixel bytes. -/
def dataWrite (bytes : List Byte) : List Byte := Config.ctrlData :: bytes

end Sys2Proof.Machine
end

