-- ==== Sys2Proof/Machine/Commands.lean ====
section
/-! DEFINITION. The controller commands as actions of the command encoder (30_encoding.md R71, R72; 41_encoder.md R100 to
R122): each is put on the bus as one command write, as SETAREA and SHOW put theirs. INIT puts 18 of them on the bus in one
write (41_encoder.md R95). A command is no host operation, so it writes neither `STATUS` nor `opc` (log entry 3). -/

namespace Sys2Proof.Machine

/-- The staged sequence once its first `n` bytes are sent. -/
def Seq.sent (n : Nat) : Seq → Seq
  | .command staged =>
    match staged.drop n with
    | [] => .idle
    | rest => .command rest
  | .idle => .idle
  | .initSeq _ => .idle
  | .areaAt _ => .idle
  | .showAt _ _ => .idle
  | .blitAt _ _ => .idle

/-- The staged sequence after the command of `n` bytes was sent and answered: the rest of it, or nothing after a
failed write (44_sequencer.md R152: no further write is emitted). -/
def Seq.afterWrite (n : Nat) (ok : Bool) (q : Seq) : Seq := if ok then q.sent n else .idle

/-- One controller command put on the bus as one command write (30_encoding.md R71). The transcript gains the write with
its answer. -/
def sendCommand (i : Instr) (s : State) : Host.Outcome State Fault Refusal :=
  match busWrite (commandWrite [i]) s with
  | none => .fault (.awaitAnswer s.seq)
  | some (a, s') =>
    .next { s' with seq := s.seq.afterWrite (encodeCommand i).length (acked (commandWrite [i]) a) }

/-- DISPLAY_OFF (R100). -/
def execDisplayOff (s : State) : Host.Outcome State Fault Refusal := sendCommand .displayOff s

/-- DISPLAY_ON (R101). -/
def execDisplayOn (s : State) : Host.Outcome State Fault Refusal := sendCommand .displayOn s

/-- SET_COM_SCAN (R102). -/
def execSetComScan (d : BitVec 1) (s : State) : Host.Outcome State Fault Refusal := sendCommand (.setComScan d) s

/-- SET_MUX (R103). -/
def execSetMux (m : BitVec 8) (s : State) : Host.Outcome State Fault Refusal := sendCommand (.setMux m) s

/-- SET_CLKDIV (R104). -/
def execSetClkDiv (f d : BitVec 4) (s : State) : Host.Outcome State Fault Refusal := sendCommand (.setClkDiv f d) s

/-- SET_NORMAL_INVERSE (R105). -/
def execSetNormalInverse (i : BitVec 1) (s : State) : Host.Outcome State Fault Refusal := sendCommand (.setNormalInverse i) s

/-- ENTIRE_DISPLAY_RESUME (R106). -/
def execEntireDisplayResume (s : State) : Host.Outcome State Fault Refusal := sendCommand .entireDisplayResume s

/-- SET_START_LINE (R107). -/
def execSetStartLine (l : BitVec 6) (s : State) : Host.Outcome State Fault Refusal := sendCommand (.setStartLine l) s

/-- SET_CONTRAST (R108). -/
def execSetContrast (c : BitVec 8) (s : State) : Host.Outcome State Fault Refusal := sendCommand (.setContrast c) s

/-- SET_FADE (R109). -/
def execSetFade (m t : BitVec 4) (s : State) : Host.Outcome State Fault Refusal := sendCommand (.setFade m t) s

/-- SET_ZOOM (R110). -/
def execSetZoom (z : BitVec 8) (s : State) : Host.Outcome State Fault Refusal := sendCommand (.setZoom z) s

/-- SET_DISPLAY_OFFSET (R111). -/
def execSetDisplayOffset (o : BitVec 8) (s : State) : Host.Outcome State Fault Refusal := sendCommand (.setDisplayOffset o) s

/-- SET_ADDR_MODE (R112). -/
def execSetAddrMode (a : BitVec 8) (s : State) : Host.Outcome State Fault Refusal := sendCommand (.setAddrMode a) s

/-- SET_PRECHARGE (R113). -/
def execSetPrecharge (p2 p1 : BitVec 4) (s : State) : Host.Outcome State Fault Refusal := sendCommand (.setPrecharge p2 p1) s

/-- SET_VCOMH (R114). -/
def execSetVcomh (v : BitVec 8) (s : State) : Host.Outcome State Fault Refusal := sendCommand (.setVcomh v) s

/-- SET_COM_PINS (R115). -/
def execSetComPins (b : BitVec 8) (s : State) : Host.Outcome State Fault Refusal := sendCommand (.setComPins b) s

/-- SET_SEG_REMAP (R116). -/
def execSetSegRemap (g : BitVec 1) (s : State) : Host.Outcome State Fault Refusal := sendCommand (.setSegRemap g) s

/-- SET_CHARGE_PUMP (R117). -/
def execSetChargePump (e : BitVec 8) (s : State) : Host.Outcome State Fault Refusal := sendCommand (.setChargePump e) s

/-- SET_COL_RANGE (R118). -/
def execSetColRange (sc ec : BitVec 8) (s : State) : Host.Outcome State Fault Refusal := sendCommand (.setColRange sc ec) s

/-- SET_PAGE_RANGE (R119). -/
def execSetPageRange (sp ep : BitVec 8) (s : State) : Host.Outcome State Fault Refusal := sendCommand (.setPageRange sp ep) s

/-- SET_PAGE_START (R120). -/
def execSetPageStart (p : BitVec 3) (s : State) : Host.Outcome State Fault Refusal := sendCommand (.setPageStart p) s

/-- SET_COL_LOW (R121). -/
def execSetColLow (n : BitVec 4) (s : State) : Host.Outcome State Fault Refusal := sendCommand (.setColLow n) s

/-- SET_COL_HIGH (R122). -/
def execSetColHigh (n : BitVec 4) (s : State) : Host.Outcome State Fault Refusal := sendCommand (.setColHigh n) s

end Sys2Proof.Machine
end

