-- ==== Sys2Proof/Machine/Compositor.lean ====
section
/-! DEFINITION. The clipped bitmap compositor: BLIT (43_compositor.md R140 to R146). -/

namespace Sys2Proof.Machine

/-- `(b & ~(1 << bit)) | (v << bit)`: one bit of a byte replaced (R143). -/
def setBit (b : Byte) (bit : Nat) (v : Bool) : Byte :=
  (b &&& ~~~(1#8 <<< bit)) ||| ((BitVec.ofBool v).setWidth 8 <<< bit)

/-- `PUT(n, bit, v)` (R140, R143): read-modify-write of one bit of `PIX[n]`. -/
def putBit (n bit : Nat) (v : Bool) (fb : Memory) : Memory :=
  Memory.write (some 0) (1 + n) (setBit (byteAt fb (1 + n)) bit v) fb

/-- `for k in 0 .. n - 1: PUT(dst + k, bit, b[k])` (R140). -/
def putBits (dst bit : Nat) (b : Byte) : Nat → Memory → Memory
  | 0, fb => fb
  | k + 1, fb => putBit (dst + k) bit (b.getLsbD k) (putBits dst bit b k fb)

/-- The source pixel at column `c` of the row whose bytes begin at `addr` (R142, 20_memory.md R46). -/
def sourcePixel (src : Memory) (addr c : Nat) : Bool := ((memRead src (addr + c / 8)).getD 0).getLsbD (c % 8)

/-- The read of byte `byte` of drawn row `row`, at address `addr` (R140, R144; `SrcFault`, 20_memory.md R43). -/
def srcByte (src : Memory) (row byte addr : Nat) : Except Fault Byte :=
  match memRead src addr with
  | some b => .ok b
  | none => .error (.srcFault addr (.blitAt row byte))

/-- The loop over the full source bytes of a row (R140). -/
def blitFull (src : Memory) (row addr dst bit : Nat) : Nat → Memory → Except Fault Memory
  | 0, fb => .ok fb
  | b + 1, fb =>
    match blitFull src row addr dst bit b fb with
    | .error e => .error e
    | .ok fb' =>
      match srcByte src row b (addr + b) with
      | .error e => .error e
      | .ok v => .ok (putBits (dst + 8 * b) bit v 8 fb')

/-- One row of the loop of R140: the full source bytes, then the tail bits, if any. -/
def blitRow (src : Memory) (row addr dst bit dw : Nat) (fb : Memory) : Except Fault Memory :=
  match blitFull src row addr dst bit (dw / 8) fb with
  | .error e => .error e
  | .ok fb' =>
    if dw % 8 = 0 then .ok fb'
    else
      match srcByte src row (dw / 8) (addr + dw / 8) with
      | .error e => .error e
      | .ok v => .ok (putBits (dst + 8 * (dw / 8)) bit v (dw % 8) fb')

/-- What a BLIT draws, once its operands are read and clipped (R140, R141). -/
structure BlitJob where
  /-- The panel width `W`. -/
  w : Nat
  /-- The destination column. -/
  x : Nat
  /-- The destination row. -/
  y : Nat
  /-- `DW`. -/
  dw : Nat
  /-- `DH`. -/
  dh : Nat
  /-- `STRIDE`. -/
  stride : Nat
  /-- `BASE`. -/
  base : Nat
  deriving DecidableEq, Repr

/-- `dst` of drawn row `i`: the pixel index of screen column `X` in the page of screen row `Y + i` (R140). -/
def BlitJob.dst (j : BlitJob) (i : Nat) : Nat := (j.y + i) / Config.pageRows * j.w + j.x

/-- The loop over the drawn rows, the first `n` of them (R140). -/
def blitRows (src : Memory) (j : BlitJob) : Nat → Memory → Except Fault Memory
  | 0, fb => .ok fb
  | i + 1, fb =>
    match blitRows src j i fb with
    | .error e => .error e
    | .ok fb' => blitRow src i (j.base + i * j.stride) (j.dst i) ((j.y + i) % Config.pageRows) j.dw fb'

/-- The job of a BLIT on a panel of width `w` and height `h` (R140, R141). -/
def blitJob (w h : Nat) (x y bw bh : BitVec 16) (base : BitVec 32) : BlitJob where
  w := w
  x := x.toNat
  y := y.toNat
  dw := clipped bw.toNat w x.toNat
  dh := clipped bh.toNat h y.toNat
  stride := strideOf bw.toNat
  base := base.toNat

/-- The highest index of `FB` that the job touches: the last column of its last row. -/
def BlitJob.lastIndex (j : BlitJob) : Nat := 1 + j.dst (j.dh - 1) + (j.dw - 1)

/-- The composite. Its highest index exists whenever the geometry is one of `GEOMS` (20_memory.md R41); in a state of
another geometry, which no run reaches, the access is the model fault `NoValue` (log entry 6). -/
def runBlit (j : BlitJob) (s : State) : Host.Outcome State Fault Refusal :=
  if s.fbHolds j.lastIndex then
    match blitRows s.src j j.dh s.fb with
    | .error e => .fault e
    | .ok fb => .next (raiseStatus .ok 2 { s with fb := fb })
  else .fault (.noValue j.lastIndex)

/-- BLIT (R140). -/
def execBlit (x y : BitVec 16) (bp dp : BitVec 1) (bw bh : BitVec 16) (base : BitVec 32) (s : State) :
    Host.Outcome State Fault Refusal :=
  whenReady 2 s
    (if bitmapOk bp dp bw bh then
      if offScreen s.width s.height x y then .next (raiseStatus .ok 2 s)
      else runBlit (blitJob s.width s.height x y bw bh base) s
     else .next (raiseStatus .invalidBitmap 2 s))

end Sys2Proof.Machine
end

