-- ==== Sys2Proof/Machine/Encoder.lean ====
section
/-! DEFINITION. The operation INIT and its command sequence (41_encoder.md R90 to R99). -/

namespace Sys2Proof.Machine

/-- The operand byte of SET_COM_PINS, `0x02 | (alt << 4) | (lr << 5)` (R94, R115). -/
def comPinsByte (alt lr : BitVec 1) : Byte := 0x02 ||| (alt.setWidth 8 <<< 4) ||| (lr.setWidth 8 <<< 5)

/-- The operand byte of SET_CHARGE_PUMP, `CP ? 0x14 : 0x10` (R94, R117). -/
def chargePumpByte (cp : BitVec 1) : Byte := if cp = 1 then 0x14 else 0x10

/-- The 18 commands of `INITSEQ(cfg, H)`, in their order (R94). Fields that R93 validates fit their nibbles; the
others go out at their field width (R97, R98). -/
def initCommands (c : InitConfig) (h : Nat) : List Instr :=
  [ .displayOff,
    .setComScan c.com,
    .setMux (BitVec.ofNat 8 (muxOf h)),
    .setClkDiv (c.osc.setWidth 4) (c.ckd.setWidth 4),
    .setNormalInverse c.inv,
    .entireDisplayResume,
    .setStartLine 0,
    .setContrast c.con,
    .setFade (c.fm.setWidth 4) (c.fi.setWidth 4),
    .setZoom (c.zm.setWidth 8),
    .setDisplayOffset 0,
    .setAddrMode (c.am.setWidth 8),
    .setPrecharge (c.pc2.setWidth 4) (c.pc1.setWidth 4),
    .setVcomh c.vch,
    .setComPins (comPinsByte (altOf h) Config.comLrRemap),
    .setSegRemap c.seg,
    .setChargePump (chargePumpByte c.cp),
    .displayOn ]

/-- `INITSEQ(cfg, H)`, 29 bytes (R94). -/
def initSeq (c : InitConfig) (h : Nat) : List Byte := (initCommands c h).flatMap encodeCommand

/-- INIT's one bus write (R95): the whole sequence as one command write of 30 bytes. -/
def initWrites (c : InitConfig) (h : Nat) : List (Seq × List Byte) :=
  [(.initSeq (initSeq c h), commandWrite (initCommands c h))]

/-- INIT (R90). -/
def execInit (p : BitVec 1) (c : InitConfig) (s : State) : Host.Outcome State Fault Refusal :=
  whenReady 2 s
    (if p = 0 then .next (raiseStatus .invalidConfig 2 s)
     else if validConfig c s.height then finishEmitted 2 (emitAll (initWrites c s.height) s)
     else .next (raiseStatus .invalidConfig 2 s))

end Sys2Proof.Machine
end

