-- ==== Sys2Proof/Machine/FbMgr.lean ====
section
/-! DEFINITION. The framebuffer manager: CLEAR and SETAREA (42_fbmgr.md R130 to R132). -/

namespace Sys2Proof.Machine

/-- Every pixel byte becomes 0x00, and the marker byte stays (R130). -/
def State.clearPix (s : State) : State := { s with fb := Memory.forget 1 s.npix s.fb }

/-- CLEAR (R130). -/
def execClear (s : State) : Host.Outcome State Fault Refusal :=
  whenReady 1 s (.next (raiseStatus .ok 1 s.clearPix))

/-- SETAREA's two bus writes: the page range, then the column range (R131). -/
def areaWrites (sp ep sc ec : BitVec 8) : List (Seq × List Byte) :=
  [ (.areaAt .pageRange, commandWrite [.setPageRange sp ep]),
    (.areaAt .colRange, commandWrite [.setColRange sc ec]) ]

/-- SETAREA (R131). -/
def execSetArea (sp ep sc ec : BitVec 8) (s : State) : Host.Outcome State Fault Refusal :=
  whenReady 1 s
    (if areaOk s.width s.height sp ep sc ec then finishEmitted 1 (emitAll (areaWrites sp ep sc ec) s)
     else .next (raiseStatus .invalidArea 1 s))

end Sys2Proof.Machine
end

