-- ==== Sys2Proof/Machine/Lifecycle.lean ====
section
/-! DEFINITION. The lifecycle operations GEOM and RELEASE (40_lifecycle.md R80 to R82), and what an illegal
operation word does (30_encoding.md R69, 60_exceptions.md R175). -/

namespace Sys2Proof.Machine

/-- GEOM's effect on a supported pair (R80): geometry and address registers, `READY`, and a fresh store; any
previous store is discarded. -/
def State.construct (gw gh : BitVec 16) (ga : BitVec 7) (s : State) : State :=
  { s with
    geomW := gw
    geomH := gh
    devAddr := ga
    fb := freshFb (gw.toNat * gh.toNat / 8)
    ready := true }

/-- GEOM (R80). -/
def execGeom (gw gh : BitVec 16) (ga : BitVec 7) (s : State) : Host.Outcome State Fault Refusal :=
  if supportedGeometry gw gh then .next (raiseStatus .ok 1 (s.construct gw gh ga))
  else .next (raiseStatus .invalidGeometry 1 s)

/-- RELEASE (R81): `READY` becomes 0 and no byte of `FB` holds a value; with `READY` already 0 it changes nothing but
`STATUS` and `opc`. -/
def execRelease (s : State) : Host.Outcome State Fault Refusal :=
  if s.ready then .next (raiseStatus .ok 1 { s with ready := false, fb := [] })
  else .next (raiseStatus .ok 1 s)

/-- An illegal word of length `len` (R69, R175): `IllegalOperation`, `opc` moves past it, nothing else changes. -/
def execIllegal (len : Nat) (s : State) : Host.Outcome State Fault Refusal :=
  .next (raiseStatus .illegalOperation len s)

end Sys2Proof.Machine
end

