-- ==== Sys2Proof/Machine/Sequencer.lean ====
section
/-! DEFINITION. The page-mapped write sequencer: SHOW (44_sequencer.md R150 to R154). -/

namespace Sys2Proof.Machine

/-- The pixel bytes of page `p`, in ascending column order (R151, 20_memory.md R54). -/
def pageBytes (p : Nat) (s : State) : List Byte :=
  (List.range s.width).map fun x => s.pix (p * s.width + x)

/-- `PAGEFRAME(p)` (R151): the marker, then page p's pixel bytes. -/
def pageFrame (p : Nat) (s : State) : List Byte := dataWrite (pageBytes p s)

/-- The four bus writes of one page: page select, column low, column high, data (R150). -/
def pageWrites (s : State) (p : Nat) : List (Seq × List Byte) :=
  [ (.showAt p .pageSel, commandWrite [.setPageStart (BitVec.ofNat 3 p)]),
    (.showAt p .colLo, commandWrite [.setColLow 0]),
    (.showAt p .colHi, commandWrite [.setColHigh 0]),
    (.showAt p .data, pageFrame p s) ]

/-- SHOW's bus writes: page addressing mode, then every page in ascending order (R150). `FB` does not change while
SHOW runs, so the frames are those of the state it starts in (R151). DESIGN CHOICE (log entry 11): the spec gives `SEQ.PAGE` no
value at the addressing-mode write (R150 sets it only inside the page loop, and R152's formula starts at m = 2); here it is
0 there. -/
def showWrites (s : State) : List (Seq × List Byte) :=
  (.showAt 0 .mode, commandWrite [.setAddrMode 2]) :: (List.range s.pages).flatMap (pageWrites s)

/-- SHOW (R150). -/
def execShow (s : State) : Host.Outcome State Fault Refusal :=
  whenReady 1 s (finishEmitted 1 (emitAll (showWrites s) s))

end Sys2Proof.Machine
end

