-- ==== Sys2Proof/Machine/Dispatch.lean ====
section
/-! DEFINITION. One arm per instruction, each a direct call of its meaning. -/

namespace Sys2Proof.Machine

def exec (i : Instr) (s : State) : Host.Outcome State Fault Refusal :=
  match i with
  | .geom gw gh ga => Sys2Proof.Machine.execGeom gw gh ga s
  | .release => Sys2Proof.Machine.execRelease s
  | .init p cfg => Sys2Proof.Machine.execInit p cfg s
  | .clear => Sys2Proof.Machine.execClear s
  | .setArea sp ep sc ec => Sys2Proof.Machine.execSetArea sp ep sc ec s
  | .blit x y bp dp bw bh base => Sys2Proof.Machine.execBlit x y bp dp bw bh base s
  | .showFrame => Sys2Proof.Machine.execShow s
  | .displayOff => Sys2Proof.Machine.execDisplayOff s
  | .displayOn => Sys2Proof.Machine.execDisplayOn s
  | .setComScan d => Sys2Proof.Machine.execSetComScan d s
  | .setMux m => Sys2Proof.Machine.execSetMux m s
  | .setClkDiv f d => Sys2Proof.Machine.execSetClkDiv f d s
  | .setNormalInverse v => Sys2Proof.Machine.execSetNormalInverse v s
  | .entireDisplayResume => Sys2Proof.Machine.execEntireDisplayResume s
  | .setStartLine l => Sys2Proof.Machine.execSetStartLine l s
  | .setContrast c => Sys2Proof.Machine.execSetContrast c s
  | .setFade m t => Sys2Proof.Machine.execSetFade m t s
  | .setZoom z => Sys2Proof.Machine.execSetZoom z s
  | .setDisplayOffset o => Sys2Proof.Machine.execSetDisplayOffset o s
  | .setAddrMode a => Sys2Proof.Machine.execSetAddrMode a s
  | .setPrecharge p2 p1 => Sys2Proof.Machine.execSetPrecharge p2 p1 s
  | .setVcomh v => Sys2Proof.Machine.execSetVcomh v s
  | .setComPins b => Sys2Proof.Machine.execSetComPins b s
  | .setSegRemap g => Sys2Proof.Machine.execSetSegRemap g s
  | .setChargePump e => Sys2Proof.Machine.execSetChargePump e s
  | .setColRange sc ec => Sys2Proof.Machine.execSetColRange sc ec s
  | .setPageRange sp ep => Sys2Proof.Machine.execSetPageRange sp ep s
  | .setPageStart p => Sys2Proof.Machine.execSetPageStart p s
  | .setColLow n => Sys2Proof.Machine.execSetColLow n s
  | .setColHigh n => Sys2Proof.Machine.execSetColHigh n s

end Sys2Proof.Machine
end

