-- ==== Sys2Proof/Machine/Fetch.lean ====
section
/-! DEFINITION. Fetching: where the next step takes its instruction from (30_encoding.md R60, R70; 20_memory.md R44, R57). -/

namespace Sys2Proof.Machine

/-- What fetching answers. -/
inductive Fetched where
  | instr (i : Instr)
  /-- An illegal operation word, of `len` words (30_encoding.md R69). -/
  | illegal (len : Nat)
  | stuck (f : Fault)
  | refuse (r : Refusal)
  deriving DecidableEq, Repr

/-- The operation at `opc` in the stream (R70). -/
def fetchOperation (s : State) : Fetched :=
  match s.ops[s.opc]? with
  | none => .stuck .awaitOperation
  | some w0 =>
    match decodeOp w0 s.ops[s.opc + 1]? with
    | .instr i _ => .instr i
    | .illegal _ len => .illegal len
    | .incomplete => .stuck .awaitSecondWord

/-- The first controller command staged in the encoder. -/
def fetchCommand (staged : List Byte) : Fetched :=
  match decodeCommand staged with
  | .instr i _ => .instr i
  | .illegal _ _ => .refuse .unknownCommand
  | .incomplete => .refuse .incompleteCommand

/-- Between operations the block reads the operation stream. A staged command comes first (log entry 3). While an
operation is in flight no other may begin (20_memory.md R57; 00_scope.md R5). -/
def fetch (s : State) : Fetched :=
  match s.seq with
  | .idle => fetchOperation s
  | .command staged => fetchCommand staged
  | .initSeq _ => .refuse .operationInFlight
  | .areaAt _ => .refuse .operationInFlight
  | .showAt _ _ => .refuse .operationInFlight
  | .blitAt _ _ => .refuse .operationInFlight

/-- The stream with `ws` standing from index `at_` on; what stood before that index and after `ws` stays, and a stream
shorter than `at_` is filled up with zero words, which lie behind `opc` and are never read. -/
def placeWords (at_ : Nat) (ws : List Word) (ops : List Word) : List Word :=
  ops.take at_ ++ List.replicate (at_ - ops.length) 0 ++ ws ++ ops.drop (at_ + ws.length)

/-- The code placed where the next step fetches: words at `opc` of the stream, or a command staged in the encoder. -/
def placeCode (c : Encoded) (s : State) : State :=
  match c with
  | .operation ws => { s with ops := placeWords s.opc ws s.ops, seq := .idle }
  | .command bs => { s with seq := .command bs }

/-- The code of exactly one instruction: what follows its own words or bytes is cut off. -/
def oneInstruction (c : Encoded) : Encoded :=
  match decode c, c with
  | .instr _ len, .operation ws => .operation (ws.take len)
  | .instr _ len, .command bs => .command (bs.take len)
  | .illegal _ len, .operation ws => .operation (ws.take len)
  | .illegal _ len, .command bs => .command (bs.take len)
  | .incomplete, c => c

end Sys2Proof.Machine
end

