-- ==== Sys2Proof/Machine/Step.lean ====
section
/-! DEFINITION. One step: one whole operation (00_scope.md R5). -/

namespace Sys2Proof.Machine

/-- Fetch, then execute (00_scope.md R5). An illegal word ends with a status (60_exceptions.md R175). -/
def step (s : State) : Host.Outcome State Fault Refusal :=
  match fetch s with
  | .instr i => exec i s
  | .illegal len => execIllegal len s
  | .stuck f => .fault f
  | .refuse r => .refused r

/-- `s` with the instruction whose bits are `w` (numbered as spec/opcode_table.json numbers them) placed where
`step` fetches its next instruction (log entry 4). -/
def State.withFetchWord (s : State) (nbits w : Nat) : State := placeCode (oneInstruction (tableCode nbits w)) s

end Sys2Proof.Machine
end

