-- ==== Sys2Proof/Machine/Assembler.lean ====
section
/-! DEFINITION. The assembly language of host operations (30_encoding.md R73), its pseudo-instructions (R74) and the
default preset (41_encoder.md R96), on lines already split into their numbers. Nothing the machine does depends on it. -/

namespace Sys2Proof.Machine

/-- The keys of `INIT { ... }`, as written numbers (R73). -/
structure AsmConfig where
  contrast : Nat
  inverse : Nat
  addrmode : Nat
  segremap : Nat
  comremap : Nat
  clkdiv : Nat
  osc : Nat
  pre1 : Nat
  pre2 : Nat
  vcomh : Nat
  fademode : Nat
  fadeint : Nat
  zoom : Nat
  chargepump : Nat
  deriving DecidableEq, Repr

/-- A key of `INIT { ... }` (R73). -/
inductive AsmKey where
  | contrast | inverse | addrmode | segremap | comremap | clkdiv | osc | pre1 | pre2 | vcomh
  | fademode | fadeint | zoom | chargepump
  deriving DecidableEq, Repr

/-- A record with one key replaced (R74). -/
def AsmConfig.replace (c : AsmConfig) (k : AsmKey) (v : Nat) : AsmConfig :=
  match k with
  | .contrast => { c with contrast := v }
  | .inverse => { c with inverse := v }
  | .addrmode => { c with addrmode := v }
  | .segremap => { c with segremap := v }
  | .comremap => { c with comremap := v }
  | .clkdiv => { c with clkdiv := v }
  | .osc => { c with osc := v }
  | .pre1 => { c with pre1 := v }
  | .pre2 => { c with pre2 := v }
  | .vcomh => { c with vcomh := v }
  | .fademode => { c with fademode := v }
  | .fadeint => { c with fadeint := v }
  | .zoom => { c with zoom := v }
  | .chargepump => { c with chargepump := v }

/-- The default preset (41_encoder.md R96). -/
def defaultPreset : AsmConfig where
  contrast := 0xFF
  inverse := 0
  addrmode := 0
  segremap := 1
  comremap := 1
  clkdiv := 0
  osc := 8
  pre1 := 1
  pre2 := 15
  vcomh := 0x20
  fademode := 0
  fadeint := 0
  zoom := 0
  chargepump := 1

/-- A line of assembly (R73), pseudo-instructions (R74) included. -/
inductive AsmLine where
  | geom (w h addr : Nat)
  | release
  | init (c : AsmConfig)
  | initAbsent
  | initDefault (replaced : List (AsmKey × Nat))
  | clear
  | setArea (sp ep sc ec : Nat)
  | setAreaFull (w h : Nat)
  | blit (x y bw bh base : Nat)
  | blitNoData (x y bw bh : Nat)
  | blitAbsent (x y : Nat)
  | showFrame
  | word (w : Nat)
  deriving DecidableEq, Repr

/-- A written number as a field of `n` bits; none where it does not fit (R73). -/
def asmField (n v : Nat) : Option (BitVec n) := if v < 2 ^ n then some (BitVec.ofNat n v) else none

/-- The configuration record of written numbers; none where one does not fit its field. -/
def asmConfig (c : AsmConfig) : Option InitConfig := do
  let inv ← asmField 1 c.inverse
  let am ← asmField 2 c.addrmode
  let seg ← asmField 1 c.segremap
  let com ← asmField 1 c.comremap
  let fm ← asmField 2 c.fademode
  let zm ← asmField 1 c.zoom
  let cp ← asmField 1 c.chargepump
  let con ← asmField 8 c.contrast
  let ckd ← asmField 8 c.clkdiv
  let osc ← asmField 8 c.osc
  let pc1 ← asmField 8 c.pre1
  let pc2 ← asmField 8 c.pre2
  let fi ← asmField 8 c.fadeint
  let vch ← asmField 8 c.vcomh
  pure { inv, am, seg, com, fm, zm, cp, con, ckd, osc, pc1, pc2, fi, vch }

/-- The record of `INIT absent`: every field 0 (R73). -/
def zeroConfig : InitConfig where
  inv := 0
  am := 0
  seg := 0
  com := 0
  fm := 0
  zm := 0
  cp := 0
  con := 0
  ckd := 0
  osc := 0
  pc1 := 0
  pc2 := 0
  fi := 0
  vch := 0

/-- The operation a line stands for; none for `.word`, and where a number does not fit its field (R73, R74). -/
def assembleOp (l : AsmLine) : Option Instr :=
  match l with
  | .geom w h addr => do return .geom (← asmField 16 w) (← asmField 16 h) (← asmField 7 addr)
  | .release => some .release
  | .init c => do return .init 1 (← asmConfig c)
  | .initAbsent => some (.init 0 zeroConfig)
  | .initDefault rs => do return .init 1 (← asmConfig (rs.foldl (fun c r => c.replace r.1 r.2) defaultPreset))
  | .clear => some .clear
  | .setArea sp ep sc ec => do
    return .setArea (← asmField 8 sp) (← asmField 8 ep) (← asmField 8 sc) (← asmField 8 ec)
  | .setAreaFull w h => do
    if 1 ≤ h / 8 ∧ 1 ≤ w then return .setArea 0 (← asmField 8 (h / 8 - 1)) 0 (← asmField 8 (w - 1)) else none
  | .blit x y bw bh base => do
    return .blit (← asmField 16 x) (← asmField 16 y) 1 1 (← asmField 16 bw) (← asmField 16 bh) (← asmField 32 base)
  | .blitNoData x y bw bh => do
    return .blit (← asmField 16 x) (← asmField 16 y) 1 0 (← asmField 16 bw) (← asmField 16 bh) 0
  | .blitAbsent x y => do return .blit (← asmField 16 x) (← asmField 16 y) 0 0 0 0 0
  | .showFrame => some .showFrame
  | .word _ => none

/-- The words an encoding lays in the operation stream. -/
def operationWords : Encoded → List Word
  | .operation ws => ws
  | .command _ => []

/-- The words of a line; none where the assembler refuses it (R73). -/
def assemble (l : AsmLine) : Option (List Word) :=
  match l with
  | .word w => (asmField 64 w).map fun v => [v]
  | _ => (assembleOp l).map fun i => operationWords (encode i)

/-- A configuration record as the numbers of `INIT { ... }` (R73). -/
def disassembleConfig (c : InitConfig) : AsmConfig where
  contrast := c.con.toNat
  inverse := c.inv.toNat
  addrmode := c.am.toNat
  segremap := c.seg.toNat
  comremap := c.com.toNat
  clkdiv := c.ckd.toNat
  osc := c.osc.toNat
  pre1 := c.pc1.toNat
  pre2 := c.pc2.toNat
  vcomh := c.vch.toNat
  fademode := c.fm.toNat
  fadeint := c.fi.toNat
  zoom := c.zm.toNat
  chargepump := c.cp.toNat

/-- The line a host operation is written as, where one of R73's forms gives its words; none for the operations that no
form gives (an absent configuration or bitmap with fields that are not 0), and for controller commands. -/
def disassembleOp : Instr → Option AsmLine
  | .geom gw gh ga => some (.geom gw.toNat gh.toNat ga.toNat)
  | .release => some .release
  | .init p c => if p = 1 then some (.init (disassembleConfig c)) else if c = zeroConfig then some .initAbsent else none
  | .clear => some .clear
  | .setArea sp ep sc ec => some (.setArea sp.toNat ep.toNat sc.toNat ec.toNat)
  | .blit x y bp dp bw bh base =>
    if bp = 1 ∧ dp = 1 then some (.blit x.toNat y.toNat bw.toNat bh.toNat base.toNat)
    else if bp = 1 ∧ base = 0 then some (.blitNoData x.toNat y.toNat bw.toNat bh.toNat)
    else if bp = 0 ∧ dp = 0 ∧ bw = 0 ∧ bh = 0 ∧ base = 0 then some (.blitAbsent x.toNat y.toNat)
    else none
  | .showFrame => some .showFrame
  | .displayOff => none
  | .displayOn => none
  | .setComScan _ => none
  | .setMux _ => none
  | .setClkDiv _ _ => none
  | .setNormalInverse _ => none
  | .entireDisplayResume => none
  | .setStartLine _ => none
  | .setContrast _ => none
  | .setFade _ _ => none
  | .setZoom _ => none
  | .setDisplayOffset _ => none
  | .setAddrMode _ => none
  | .setPrecharge _ _ => none
  | .setVcomh _ => none
  | .setComPins _ => none
  | .setSegRemap _ => none
  | .setChargePump _ => none
  | .setColRange _ _ => none
  | .setPageRange _ _ => none
  | .setPageStart _ => none
  | .setColLow _ => none
  | .setColHigh _ => none

/-- The line the disassembler prints for the word `w0`, followed in the stream by `w1` if that is there: `.word` for an
illegal word (R73), and for one that no form of R73 gives. -/
def disassemble (w0 : Word) (w1 : Option Word) : AsmLine :=
  match decodeOp w0 w1 with
  | .instr i _ => (disassembleOp i).getD (.word w0.toNat)
  | .illegal _ _ => .word w0.toNat
  | .incomplete => .word w0.toNat

end Sys2Proof.Machine
end

