-- ==== Sys2Proof/Machine/Controller.lean ====
section
/-! DEFINITION. What the transcript says of the display controller's settings, by the "Controller meaning" sentences of
41_encoder.md R100 to R122. This is a reading of `TR`, not state: the block keeps no shadow of the controller (10_state.md
R35, 41_encoder.md R99), the controller's own behaviour is out of scope (00_scope.md R3), and no operation reads it. A
setting is none while nothing acknowledged has set it, since the controller's state at reset is unknown to the block
(70_reset_and_hazards.md R181), and again after a write that failed, since what such a write delivered is not fixed
(20_memory.md R51, 70_reset_and_hazards.md R189). Log entry 5. -/

namespace Sys2Proof.Machine

/-- The controller's settings, as far as the transcript tells them. -/
structure Controller where
  /-- Display on (R101) or off (R100). -/
  displayOn : Option Bool
  /-- COM output scan direction, 1 = remapped (R102). -/
  comScan : Option (BitVec 1)
  /-- Multiplex ratio minus 1 (R103). -/
  mux : Option (BitVec 8)
  /-- Oscillator frequency (R104). -/
  oscillator : Option (BitVec 4)
  /-- Clock divide ratio minus 1 (R104). -/
  clockDivide : Option (BitVec 4)
  /-- 1 = a RAM bit 1 darkens its pixel (R105). -/
  inverse : Option (BitVec 1)
  /-- "Entire display on", which the block only ever disables (R106). -/
  entireOn : Option Bool
  /-- The RAM row shown on the top line (R107). -/
  startLine : Option (BitVec 6)
  /-- Contrast level (R108). -/
  contrast : Option (BitVec 8)
  /-- Fade or blink mode (R109). -/
  fadeMode : Option (BitVec 4)
  /-- Fade or blink interval (R109). -/
  fadeInterval : Option (BitVec 4)
  /-- Zoom-in (R110). -/
  zoom : Option (BitVec 8)
  /-- Vertical shift (R111). -/
  offset : Option (BitVec 8)
  /-- 0 horizontal, 1 vertical, 2 page addressing (R112). -/
  addrMode : Option (BitVec 8)
  /-- Pre-charge phase 2 (R113). -/
  precharge2 : Option (BitVec 4)
  /-- Pre-charge phase 1 (R113). -/
  precharge1 : Option (BitVec 4)
  /-- VCOMH deselect level (R114). -/
  vcomh : Option (BitVec 8)
  /-- Alternative COM pin configuration (R115). -/
  comAlt : Option Bool
  /-- COM left/right remap (R115). -/
  comLrRemap : Option Bool
  /-- 1 = column address 0 maps to SEG127 (R116). -/
  segRemap : Option (BitVec 1)
  /-- The charge pump's operand byte, 0x14 on and 0x10 off (R117). -/
  chargePump : Option (BitVec 8)
  /-- Column window: start and end (R118). -/
  colWindow : Option (BitVec 8 × BitVec 8)
  /-- Page window: start and end (R119). -/
  pageWindow : Option (BitVec 8 × BitVec 8)
  /-- The page that the next data bytes go to, in page addressing mode (R120). -/
  page : Option (BitVec 3)
  /-- Low nibble of the column pointer (R121). -/
  columnLow : Option (BitVec 4)
  /-- High nibble of the column pointer (R122). -/
  columnHigh : Option (BitVec 4)
  deriving DecidableEq, Repr

/-- Nothing known (70_reset_and_hazards.md R181). -/
def Controller.unknown : Controller where
  displayOn := none
  comScan := none
  mux := none
  oscillator := none
  clockDivide := none
  inverse := none
  entireOn := none
  startLine := none
  contrast := none
  fadeMode := none
  fadeInterval := none
  zoom := none
  offset := none
  addrMode := none
  precharge2 := none
  precharge1 := none
  vcomh := none
  comAlt := none
  comLrRemap := none
  segRemap := none
  chargePump := none
  colWindow := none
  pageWindow := none
  page := none
  columnLow := none
  columnHigh := none

/-- The setting a command gives, if the command is known to have been carried out. -/
def settingIf {α : Type} (known : Bool) (v : α) : Option α := if known then some v else none

/-- The controller's settings after a command was sent to it: what the command sets, or, when the write it was in
failed (`known` is false), no longer known. A host operation is no command and sets nothing. DESIGN CHOICE (log entry 5): an
acknowledged value outside the controller's own set (contrast 0, addressing mode 3, fade mode 1, an undefined VCOMH level, a zoom
byte above 1) is taken as the setting held, although 41_encoder.md R97 and 93_implementation_defined.md I5 leave open what the
controller does with it. -/
def Controller.receive (known : Bool) (i : Instr) (c : Controller) : Controller :=
  match i with
  | .displayOff => { c with displayOn := settingIf known false }
  | .displayOn => { c with displayOn := settingIf known true }
  | .setComScan d => { c with comScan := settingIf known d }
  | .setMux m => { c with mux := settingIf known m }
  | .setClkDiv f d => { c with oscillator := settingIf known f, clockDivide := settingIf known d }
  | .setNormalInverse i => { c with inverse := settingIf known i }
  | .entireDisplayResume => { c with entireOn := settingIf known false }
  | .setStartLine l => { c with startLine := settingIf known l }
  | .setContrast v => { c with contrast := settingIf known v }
  | .setFade m t => { c with fadeMode := settingIf known m, fadeInterval := settingIf known t }
  | .setZoom z => { c with zoom := settingIf known z }
  | .setDisplayOffset o => { c with offset := settingIf known o }
  | .setAddrMode a => { c with addrMode := settingIf known a }
  | .setPrecharge p2 p1 => { c with precharge2 := settingIf known p2, precharge1 := settingIf known p1 }
  | .setVcomh v => { c with vcomh := settingIf known v }
  | .setComPins b =>
    { c with comAlt := settingIf known (b.getLsbD 4), comLrRemap := settingIf known (b.getLsbD 5) }
  | .setSegRemap g => { c with segRemap := settingIf known g }
  | .setChargePump e => { c with chargePump := settingIf known e }
  | .setColRange sc ec => { c with colWindow := settingIf known (sc, ec) }
  | .setPageRange sp ep => { c with pageWindow := settingIf known (sp, ep) }
  | .setPageStart p => { c with page := settingIf known p }
  | .setColLow n => { c with columnLow := settingIf known n }
  | .setColHigh n => { c with columnHigh := settingIf known n }
  | .geom _ _ _ => c
  | .release => c
  | .init _ _ => c
  | .clear => c
  | .setArea _ _ _ _ => c
  | .blit _ _ _ _ _ _ _ => c
  | .showFrame => c

/-- The commands of a command write's payload, in order (30_encoding.md R71, R72), the first `fuel` of them. -/
def parseCommands : Nat → List Byte → List Instr
  | 0, _ => []
  | fuel + 1, bs =>
    match decodeCommand bs with
    | .instr i len => i :: parseCommands fuel (bs.drop len)
    | .illegal _ _ => []
    | .incomplete => []

/-- The commands of a bus write: those of its payload if it is a command write, none if it is a data write
(30_encoding.md R71). -/
def commandsOf (bytes : List Byte) : List Instr :=
  match bytes with
  | [] => []
  | ctrl :: payload => if ctrl = Config.ctrlCmd then parseCommands payload.length payload else []

/-- The settings after one transcript entry. DESIGN CHOICE (log entry 5): the entry's device address is not looked at, so entries
that GEOM had sent to different addresses are read as sent to one controller; no rule says whether they reach one. -/
def Controller.afterEntry (c : Controller) (e : BusEntry) : Controller :=
  (commandsOf e.bytes).foldl (fun c i => c.receive (acked e.bytes e.answer) i) c

/-- What the transcript says of the settings of the one controller that every entry is read as sent to (log entry 5). -/
def controllerView (tr : List BusEntry) : Controller := tr.foldl Controller.afterEntry Controller.unknown

end Sys2Proof.Machine
end

