-- ==== Sys2Proof/Machine/HostPort.lean ====
section
/-! DEFINITION. What the world outside the block does to it between operations: the host supplies operation words
(20_memory.md R44), admits source bytes (R43) and reads the register window and `FB` (R42); the transport's answers arrive (R50,
R51). -/

namespace Sys2Proof.Machine

/-- The bus write the block waits at, if it waits for the transport (20_memory.md R50, 60_exceptions.md R176): the sequencing
state at the write. The waiting block is held as the state its operation started in (log entry 2). -/
def State.awaits (s : State) : Option Seq :=
  match step s with
  | .next _ => none
  | .fault .awaitOperation => none
  | .fault .awaitSecondWord => none
  | .fault (.awaitAnswer q) => some q
  | .fault (.srcFault _ _) => none
  | .fault (.noValue _) => none
  | .refused _ => none

/-- An operation is in flight (20_memory.md R57): it waits for the transport's answer, its only suspension point (R50), or the
transient state holds a value. A missing second word is no such wait: the host lifts it (60_exceptions.md R176). -/
def State.inFlight (s : State) : Bool :=
  match s.seq with
  | .idle => s.awaits.isSome
  | .command _ => true
  | .initSeq _ => true
  | .areaAt _ => true
  | .showAt _ _ => true
  | .blitAt _ _ => true

/-- A move of the host, from `s` to `t`, that is refused while an operation is in flight (20_memory.md R57,
93_implementation_defined.md I7, I8). -/
def betweenOperations (s t : State) : Host.Outcome State Fault Refusal :=
  if s.inFlight then .refused .operationInFlight else .next t

/-- The host appends words to the operation stream (20_memory.md R44, R58). DESIGN CHOICE (log entry 4): R58 leaves open whether
the host may replace a word it has already supplied and the block has not read; here a supplied word stays, and the host only
appends. -/
def hostSupply (ws : List Word) (s : State) : Host.Outcome State Fault Refusal :=
  betweenOperations s { s with ops := s.ops ++ ws }

/-- The host admits one byte of `SRC`, or changes an admitted one (20_memory.md R43). -/
def hostAdmit (addr : BitVec 32) (v : Byte) (s : State) : Host.Outcome State Fault Refusal :=
  betweenOperations s { s with src := Memory.write none addr.toNat v s.src }

/-- The host admits one byte of `SRC` no longer (20_memory.md R43, 70_reset_and_hazards.md R184). -/
def hostWithdraw (addr : BitVec 32) (s : State) : Host.Outcome State Fault Refusal :=
  betweenOperations s { s with src := Memory.forget addr.toNat 1 s.src }

/-- The transport's answers after those scheduled so far (20_memory.md R50, R51). It may schedule them at any time. -/
def transportSchedule (ds : List (Option Answer)) (s : State) : State := { s with draws := s.draws ++ ds }

/-- The answers to come with the first one withheld given as `a`. -/
def answerFirst (a : Answer) : List (Option Answer) → List (Option Answer)
  | [] => []
  | none :: ds => some a :: ds
  | some b :: ds => some b :: answerFirst a ds

/-- The transport answers the write the block waits at, whichever of the operation's writes it is: the answers before the first
one withheld are those of the operation's earlier writes (20_memory.md R50, 60_exceptions.md R176). With no write waiting it
has nothing to answer. -/
def transportAnswersNow (a : Answer) (s : State) : State :=
  match s.awaits with
  | some _ => { s with draws := answerFirst a s.draws }
  | none => s

/-- Why a host read answers no value. -/
inductive ReadStop where
  /-- What is read holds no value: the model fault `NoValue` (60_exceptions.md R176). Safe. -/
  | fault (f : Fault)
  /-- The read has no place while an operation is in flight (20_memory.md R42, R52). Safe. -/
  | refused (r : Refusal)
  deriving DecidableEq, Repr

/-- A host read, which would answer `r`, through the observation port: only between operations (20_memory.md R42, R52). It is a
function of the state, so it changes nothing (R53). -/
def readBetweenOperations {α : Type} (s : State) (r : Except ReadStop α) : Except ReadStop α :=
  if s.inFlight then .error (.refused .operationInFlight) else r

/-- A host read of the register window (10_state.md R27, 20_memory.md R42). -/
def readWindow (index : Nat) (s : State) : Except ReadStop (BitVec 16) :=
  readBetweenOperations s (.ok (windowValue index s))

/-- A host read of `FB[j]` (20_memory.md R42): `NoValue` where the byte holds none (00_scope.md R10). -/
def observeFb (j : Nat) (s : State) : Except ReadStop Byte :=
  readBetweenOperations s (if s.fbHolds j then .ok (s.fbByte j) else .error (.fault (.noValue j)))

end Sys2Proof.Machine
end

