-- ==== Sys2Proof/Safety.lean ====
section
/-! DEFINITION. What counts as a legal state and as a safe step, in the terms that statements use. -/

namespace Sys2Proof.Machine

/-- The stops that the host or the transport lifts: the two stuck conditions of 60_exceptions.md R176, and the idle block (R174,
log entry 4). The others are model faults, which mark a run the spec gives no meaning to (R176). -/
def Fault.isStuck : Fault → Bool
  | .awaitOperation => true
  | .awaitSecondWord => true
  | .awaitAnswer _ => true
  | .srcFault _ _ => false
  | .noValue _ => false

/-- A step that meets no model fault and no refusal: it answers a next state, or waits for the host or the transport. -/
def SafeOutcome : Host.Outcome State Fault Refusal → Prop
  | .next _ => True
  | .fault f => f.isStuck = true
  | .refused _ => False

/-- `t` is `s` but for what a bus write may change: the transcript, the answers to come, the transient state. -/
structure SameBlock (s t : State) : Prop where
  opc : t.opc = s.opc
  status : t.status = s.status
  geomW : t.geomW = s.geomW
  geomH : t.geomH = s.geomH
  ready : t.ready = s.ready
  devAddr : t.devAddr = s.devAddr
  fb : t.fb = s.fb
  ops : t.ops = s.ops
  src : t.src = s.src

/-- The invariant of the machine: what every step keeps. -/
structure State.Inv (s : State) : Prop where
  /-- While `READY` is 1 the geometry is one of `GEOMS` (10_state.md R32). -/
  geometry : s.ready = true → supportedGeometry s.geomW s.geomH = true
  /-- `FB` is in canonical form. -/
  fbCanonical : Memory.wf (some 0) s.fb = true
  /-- `FB` lists no index that does not exist (10_state.md R29). -/
  fbBounded : ∀ c ∈ s.fb, c.1 < s.fbSize
  /-- While `READY` is 0 no byte of `FB` holds a value (10_state.md R29). -/
  fbReleased : s.ready = false → s.fb = []
  /-- While `READY` is 1 byte 0 of `FB` is the protocol marker (10_state.md R30). -/
  markerKept : s.ready = true → s.fbByte 0 = Config.marker
  /-- `SRC` is in canonical form. -/
  srcCanonical : Memory.wf none s.src = true
  /-- InvalidFont is never produced (60_exceptions.md R161). -/
  statusProduced : s.status ≠ .invalidFont
  /-- No operation is in flight between steps (10_state.md R33, 00_scope.md R5). -/
  quiescent : s.seq = .idle ∨ ∃ staged, s.seq = .command staged

/-! ### What the spec's rules say goes out, written from the rules

These lists are written from the rules' own bytes, apart from the machine's encoder, and statements compare the machine
with them. -/

/-- The bytes of INIT's one bus write: the control byte and the table of 41_encoder.md R94. -/
def initBytesOfRule (c : InitConfig) (h : Nat) : List Byte :=
  [ 0x00,
    0xAE,
    0xC0 ||| (c.com.setWidth 8 <<< 3),
    0xA8, BitVec.ofNat 8 (h - 1),
    0xD5, (c.osc <<< 4) ||| c.ckd,
    0xA6 ||| c.inv.setWidth 8,
    0xA4,
    0x40,
    0x81, c.con,
    0x23, (c.fm.setWidth 8 <<< 4) ||| c.fi,
    0xD6, c.zm.setWidth 8,
    0xD3, 0x00,
    0x20, c.am.setWidth 8,
    0xD9, (c.pc2 <<< 4) ||| c.pc1,
    0xDB, c.vch,
    0xDA, 0x02 ||| (if h > 32 then 0x10 else 0x00),
    0xA0 ||| c.seg.setWidth 8,
    0x8D, if c.cp = 1 then 0x14 else 0x10,
    0xAF ]

/-- The ranges of 41_encoder.md R93, the multiplex check among them. -/
def InitRangesOfRule (c : InitConfig) (h : Nat) : Prop :=
  (1 ≤ h - 1 ∧ h - 1 ≤ 64) ∧ c.ckd.toNat ≤ 15 ∧ c.osc.toNat ≤ 15 ∧ c.fi.toNat ≤ 15 ∧
    (1 ≤ c.pc1.toNat ∧ c.pc1.toNat ≤ 15) ∧ (1 ≤ c.pc2.toNat ∧ c.pc2.toNat ≤ 15)

/-- The bus writes of SHOW, in order (44_sequencer.md R150, R151). -/
def showBytesOfRule (s : State) : List (List Byte) :=
  [0x00, 0x20, 0x02] ::
    (List.range (s.height / 8)).flatMap fun p =>
      [ [0x00, 0xB0 ||| BitVec.ofNat 8 p],
        [0x00, 0x00],
        [0x00, 0x10],
        0x40 :: (List.range s.width).map fun c => s.pix (p * s.width + c) ]

/-- `SEQ.PHASE` for `(m - 2) mod 4` (44_sequencer.md R152). -/
def phaseOfRule : Nat → ShowPhase
  | 0 => .pageSel
  | 1 => .colLo
  | 2 => .colHi
  | _ => .data

/-- The write that SHOW makes at a page and phase (44_sequencer.md R150). -/
def showWriteOf (s : State) (page : Nat) : ShowPhase → List Byte
  | .mode => [0x00, 0x20, 0x02]
  | .pageSel => [0x00, 0xB0 ||| BitVec.ofNat 8 page]
  | .colLo => [0x00, 0x00]
  | .colHi => [0x00, 0x10]
  | .data => 0x40 :: (List.range s.width).map fun c => s.pix (page * s.width + c)

/-- Full acknowledgements of a list of writes, as the transport's coming answers. -/
def fullAcks (ws : List (List Byte)) : List (Option Answer) := ws.map fun w => some (.ack w.length)

/-- The legal windows of 42_fbmgr.md R132 on a panel of width `w` and height `h`. -/
def AreaOfRule (w h : Nat) (sp ep sc ec : BitVec 8) : Prop :=
  (h / 8 - 1 ≤ 7 ∧ w - 1 ≤ 127) ∧ sp.toNat ≤ ep.toNat ∧ sc.toNat ≤ ec.toNat ∧
    ep.toNat ≤ h / 8 - 1 ∧ ec.toNat ≤ w - 1

/-- The host has admitted every source byte that the spec says a BLIT of this bitmap at this place reads: of each drawn row
`i`, the bytes `BASE + i*STRIDE` to `BASE + i*STRIDE + ceil(DW/8) - 1` (43_compositor.md R144). -/
def SourceAdmitted (s : State) (x y bw bh : BitVec 16) (base : BitVec 32) : Prop :=
  ∀ i < min bh.toNat (s.height - y.toNat), ∀ b < (min bw.toNat (s.width - x.toNat) + 7) / 8,
    (memRead s.src (base.toNat + i * ((bw.toNat + 7) / 8) + b)).isSome = true

/-- The state after a controller command of bytes `bytes`, answered `a`, with `ds` the answers still to come: one more
transcript entry, the command taken off the staged sequence, and nothing else (30_encoding.md R71; log entry 3). -/
def afterCommand (s : State) (bytes : List Byte) (a : Answer) (ds : List (Option Answer)) : State :=
  { s with
    tr := s.tr ++ [{ addr := s.devAddr, bytes := 0x00 :: bytes, answer := a }]
    draws := ds
    seq := s.seq.afterWrite bytes.length (decide (a = .ack (bytes.length + 1))) }

end Sys2Proof.Machine
end

