-- ==== Sys2Proof/Certificates/Slice0/Obligations.lean ====
section
/-! DEFINITION. The statements for the provers. Each says which rule of spec/ it formalises. Statements about an
instruction hold for every state, reachable or not, unless they assume the machine's invariant `State.Inv`, which every step
keeps (`EveryStepKeepsTheInvariant`). -/

open Sys2Proof Sys2Proof.Machine

/-! ### Encoding and decoding -/

/-- Decoding the encoding of an instruction gives it back, every operand at every value (30_encoding.md R61 to R68, R70, R72;
41_encoder.md R100 to R122). -/
def Obligations.DecodeInvertsEncode : Prop :=
  ∀ i : Instr, decode (encode i) = .instr i (encodedLength (encode i))

/-- Whatever the decoder accepts is the encoding of the instruction it answers: no bit of an accepted operation word or
command byte is dropped (30_encoding.md R62 to R70, R72). -/
def Obligations.AcceptedCodeIsTheEncoding : Prop :=
  (∀ (w0 : Word) (w1 : Option Word) (i : Instr) (n : Nat), decodeOp w0 w1 = .instr i n →
    i.isOperation = true ∧ encode i = .operation ((w0 :: w1.toList).take n)) ∧
  (∀ (bs : List Byte) (i : Instr) (n : Nat), decodeCommand bs = .instr i n →
    i.isOperation = false ∧ encode i = .command (bs.take n))

/-- Words and bytes written out in the spec decode to the operations and commands the spec writes beside them
(40_lifecycle.md R80 and R81, 41_encoder.md R90, R98 and R120, 42_fbmgr.md R131, 43_compositor.md R140). -/
def Obligations.SpecWordsDecode : Prop :=
  decodeOp 0x00003C0040008001 none = .instr (.geom 128 64 0x3C) 1 ∧
  decodeOp 0x0000000000000002 none = .instr .release 1 ∧
  decodeOp 0x0000000000000004 none = .instr .clear 1 ∧
  decodeOp 0x0000007F00070005 none = .instr (.setArea 0 7 0 127) 1 ∧
  decodeOp 0x0000000000000007 none = .instr .showFrame 1 ∧
  decodeOp 0x000003000A000506 (some 0x0000100000010001) = .instr (.blit 5 10 1 1 1 1 0x1000) 2 ∧
  decodeCommand [0xB3] = .instr (.setPageStart 3) 1 ∧
  decodeCommand [0x81, 0x00] = .instr (.setContrast 0) 2 ∧
  decodeCommand [0x22, 0x00, 0x07] = .instr (.setPageRange 0 7) 3

/-- The bytes of every sequence of controller commands, put in one command write, read back as those commands in that
order (30_encoding.md R71, R72). -/
def Obligations.CommandWriteReadsBack : Prop :=
  ∀ cs : List Instr, (∀ c ∈ cs, c.isOperation = false) → commandsOf (commandWrite cs) = cs

/-! ### Fetching, decoding and illegal words -/

/-- A step runs exactly the decoded instruction: the operation at `opc` when the block is between operations (00_scope.md
R5, 30_encoding.md R70), or, the model's own choice of log entry 3, the first command staged in the encoder. The step adds
nothing around `exec`: moving `opc` past the operation is part of the operation's own end. -/
def Obligations.StepRunsTheDecodedInstruction : Prop :=
  (∀ (s : State) (w0 : Word) (i : Instr) (n : Nat), s.seq = .idle → s.ops[s.opc]? = some w0 →
    decodeOp w0 s.ops[s.opc + 1]? = .instr i n → step s = exec i s) ∧
  (∀ (s : State) (bs : List Byte) (i : Instr) (n : Nat), s.seq = .command bs →
    decodeCommand bs = .instr i n → step s = exec i s)

/-- R69: an illegal opcode, of length 1, and a legal opcode with a reserved bit set, of its own length, end with
IllegalOperation, change no other state and write no bus; and every word is one of the seven operations or illegal. For the
two-word operations the second word is in the stream (R70 waits for it first). -/
def Obligations.IllegalWordsReportIllegalOperation : Prop :=
  (∀ (s : State) (w0 : Word), s.seq = .idle → s.ops[s.opc]? = some w0 →
    (w0.toNat % 256 = 0 ∨ 8 ≤ w0.toNat % 256) →
    step s = .next { s with status := .illegalOperation, opc := s.opc + 1 }) ∧
  (∀ (s : State) (w0 : Word), s.seq = .idle → s.ops[s.opc]? = some w0 →
    (w0.toNat % 256 = 2 ∨ w0.toNat % 256 = 4 ∨ w0.toNat % 256 = 7) → 256 ≤ w0.toNat →
    step s = .next { s with status := .illegalOperation, opc := s.opc + 1 }) ∧
  (∀ (s : State) (w0 : Word), s.seq = .idle → s.ops[s.opc]? = some w0 →
    w0.toNat % 256 = 1 → 2 ^ 47 ≤ w0.toNat →
    step s = .next { s with status := .illegalOperation, opc := s.opc + 1 }) ∧
  (∀ (s : State) (w0 : Word), s.seq = .idle → s.ops[s.opc]? = some w0 →
    w0.toNat % 256 = 5 → 2 ^ 40 ≤ w0.toNat →
    step s = .next { s with status := .illegalOperation, opc := s.opc + 1 }) ∧
  (∀ (s : State) (w0 w1 : Word), s.seq = .idle → s.ops[s.opc]? = some w0 → s.ops[s.opc + 1]? = some w1 →
    w0.toNat % 256 = 3 → (2 ^ 18 ≤ w0.toNat ∨ 2 ^ 56 ≤ w1.toNat) →
    step s = .next { s with status := .illegalOperation, opc := s.opc + 2 }) ∧
  (∀ (s : State) (w0 w1 : Word), s.seq = .idle → s.ops[s.opc]? = some w0 → s.ops[s.opc + 1]? = some w1 →
    w0.toNat % 256 = 6 → 2 ^ 42 ≤ w0.toNat →
    step s = .next { s with status := .illegalOperation, opc := s.opc + 2 }) ∧
  (∀ w0 w1 : Word, (∃ i n, decodeOp w0 (some w1) = .instr i n ∧ i.isOperation = true) ∨
    (∃ why n, decodeOp w0 (some w1) = .illegal why n))

/-- A two-word operation whose second word the host has not supplied is stuck, whatever its first word's other bits
(30_encoding.md R70, 60_exceptions.md R176). A block for which there is no operation at all is idle (60_exceptions.md R174); that
its step then stops at awaitOperation is the model's choice (log entry 4), no third stuck condition of R176. -/
def Obligations.MissingWordsAreStuck : Prop :=
  (∀ (s : State) (w0 : Word), s.seq = .idle → s.ops[s.opc]? = some w0 → s.ops[s.opc + 1]? = none →
    (w0.toNat % 256 = 3 ∨ w0.toNat % 256 = 6) → step s = .fault .awaitSecondWord) ∧
  (∀ s : State, s.seq = .idle → s.ops[s.opc]? = none → step s = .fault .awaitOperation)

/-! ### Reset and the invariant -/

/-- R180 and R36: reset puts every piece of state at its reset value, and after reset the block decodes the operation at
`opc` = 0. -/
def Obligations.ResetState : Prop :=
  State.reset.opc = 0 ∧ State.reset.status = .ok ∧ State.reset.geomW = 0 ∧ State.reset.geomH = 0 ∧
  State.reset.ready = false ∧ State.reset.devAddr = 0 ∧ State.reset.seq = .idle ∧ State.reset.tr = [] ∧
  (∀ j, observeFb j State.reset = .error (.fault (.noValue j))) ∧
  (∀ j, readWindow j State.reset = .ok 0) ∧
  (∀ (w0 : Word) (ws : List Word) (i : Instr) (n : Nat), decodeOp w0 ws.head? = .instr i n →
    step { State.reset with ops := w0 :: ws } = exec i { State.reset with ops := w0 :: ws })

/-- The state right after reset meets the invariant. -/
def Obligations.ResetMeetsTheInvariant : Prop := State.reset.Inv

/-- Every step keeps the invariant: a supported geometry while ready, memories in canonical form, no byte of FB listed
that does not exist, none at all while not ready, the marker in place while ready, InvalidFont never reported, no operation
in flight between steps (10_state.md R29, R30, R32, R33; 60_exceptions.md R161). -/
def Obligations.EveryStepKeepsTheInvariant : Prop :=
  ∀ s t : State, s.Inv → step s = .next t → t.Inv

/-- R32: while READY is 1 the geometry is a member of GEOMS, with what follows from it. -/
def Obligations.ReadyGeometryIsSupported : Prop :=
  (∀ s : State, s.Inv → s.ready = true →
    (s.width, s.height) ∈ [(128, 64), (128, 32)] ∧ 0 < s.width ∧ 0 < s.height ∧ s.height % 8 = 0 ∧
    (s.pages = 8 ∨ s.pages = 4) ∧ s.pages = s.height / 8 ∧ s.pages - 1 ≤ 7 ∧ s.width - 1 ≤ 127) ∧
  (∀ s t : State, s.Inv → step s = .next t → t.ready = true → (t.width, t.height) ∈ [(128, 64), (128, 32)])

/-! ### GEOM and RELEASE -/

/-- R80: GEOM on a supported pair sets geometry, address and READY and makes a fresh store with the marker and every pixel
byte 0, whatever the block held before; on any other pair it changes nothing. No bus write either way. -/
def Obligations.GeomConstructsOrChangesNothing : Prop :=
  (∀ (s : State) (gw gh : BitVec 16) (ga : BitVec 7),
    ((gw = 128 ∧ gh = 64) ∨ (gw = 128 ∧ gh = 32)) →
    ∃ t, exec (.geom gw gh ga) s = .next t ∧
      t.status = .ok ∧ t.opc = s.opc + 1 ∧ t.geomW = gw ∧ t.geomH = gh ∧ t.devAddr = ga ∧ t.ready = true ∧
      t.fbSize = gw.toNat * gh.toNat / 8 + 1 ∧ t.fbByte 0 = 0x40 ∧ (∀ i < gw.toNat * gh.toNat / 8, t.pix i = 0x00) ∧
      t.tr = s.tr ∧ t.ops = s.ops ∧ t.src = s.src ∧ t.draws = s.draws ∧ t.seq = .idle) ∧
  (∀ (s : State) (gw gh : BitVec 16) (ga : BitVec 7),
    ¬ ((gw = 128 ∧ gh = 64) ∨ (gw = 128 ∧ gh = 32)) →
    exec (.geom gw gh ga) s = .next { s with status := .invalidGeometry, opc := s.opc + 1, seq := .idle })

/-- R82: right after a successful GEOM, and in every legal ready state, FBSIZE is W * H / 8 + 1, that is 1025 or 513; right
after GEOM every pixel byte is 0 and FB[0] is the marker. -/
def Obligations.BufferSizeProperty : Prop :=
  (∀ s : State, s.Inv → s.ready = true → s.fbSize = s.width * s.height / 8 + 1 ∧
    (s.height = 64 → s.fbSize = 1025) ∧ (s.height = 32 → s.fbSize = 513)) ∧
  (∀ (s t : State) (gw gh : BitVec 16) (ga : BitVec 7), exec (.geom gw gh ga) s = .next t → t.status = .ok →
    t.fbSize = t.width * t.height / 8 + 1 ∧ ((t.height = 64 ∧ t.fbSize = 1025) ∨ (t.height = 32 ∧ t.fbSize = 513)) ∧
    (∀ i < t.npix, t.pix i = 0x00) ∧ t.fbByte 0 = Config.marker)

/-- R81: RELEASE always ends OK. While READY is 1 it clears READY and every byte of FB loses its value; geometry and
address registers stay; while READY is 0 it changes nothing but STATUS. No bus write. After it, every operation but GEOM and
RELEASE reports NotReady. -/
def Obligations.ReleaseDropsTheBuffer : Prop :=
  ∀ s : State,
    (s.ready = true → ∃ t, exec .release s = .next t ∧
      t.status = .ok ∧ t.opc = s.opc + 1 ∧ t.ready = false ∧ (∀ j, observeFb j t = .error (.fault (.noValue j))) ∧ t.fb = [] ∧
      t.geomW = s.geomW ∧ t.geomH = s.geomH ∧ t.devAddr = s.devAddr ∧
      t.tr = s.tr ∧ t.ops = s.ops ∧ t.src = s.src ∧ t.draws = s.draws ∧ t.seq = .idle) ∧
    (s.ready = false → exec .release s = .next { s with status := .ok, opc := s.opc + 1, seq := .idle }) ∧
    (∀ (t : State) (i : Instr), exec .release s = .next t → i.isOperation = true →
      (∀ gw gh ga, i ≠ .geom gw gh ga) → i ≠ .release → ∃ u, exec i t = .next u ∧ u.status = .notReady)

/-- R190: after RELEASE every operation but GEOM and RELEASE reports NotReady and leaves the block released, the framebuffer
contents are gone, and a GEOM that succeeds, however much later, starts from a zero framebuffer. -/
def Obligations.NothingSurvivesRelease : Prop :=
  (∀ (s t : State), exec .release s = .next t → t.ready = false ∧ ∀ j, observeFb j t = .error (.fault (.noValue j))) ∧
  (∀ (t : State) (i : Instr), t.ready = false → i.isOperation = true →
    (∀ gw gh ga, i ≠ .geom gw gh ga) → i ≠ .release →
    ∃ u, exec i t = .next u ∧ u.status = .notReady ∧ u.ready = false) ∧
  (∀ (t : State) (gw gh : BitVec 16) (ga : BitVec 7), ((gw = 128 ∧ gh = 64) ∨ (gw = 128 ∧ gh = 32)) →
    ∃ u, exec (.geom gw gh ga) t = .next u ∧ u.status = .ok ∧ ∀ i < u.npix, u.pix i = 0x00)

/-! ### Readiness -/

/-- INIT, CLEAR, SETAREA, BLIT and SHOW check READY before anything else and change nothing but STATUS and `opc` when it
is 0, whatever their operands (60_exceptions.md R165, R161). -/
def Obligations.NotReadyComesFirst : Prop :=
  ∀ s : State, s.ready = false →
    (∀ p c, exec (.init p c) s = .next { s with status := .notReady, opc := s.opc + 2, seq := .idle }) ∧
    exec .clear s = .next { s with status := .notReady, opc := s.opc + 1, seq := .idle } ∧
    (∀ sp ep sc ec, exec (.setArea sp ep sc ec) s =
      .next { s with status := .notReady, opc := s.opc + 1, seq := .idle }) ∧
    (∀ x y bp dp bw bh base, exec (.blit x y bp dp bw bh base) s =
      .next { s with status := .notReady, opc := s.opc + 2, seq := .idle }) ∧
    exec .showFrame s = .next { s with status := .notReady, opc := s.opc + 1, seq := .idle }

/-! ### INIT -/

/-- An INIT that is present and in range, fully acknowledged, ends OK with one 30-byte command write, byte for byte the table
of R94, and changes nothing else (41_encoder.md R90, R92, R94, R95, R97, R98). -/
def Obligations.InitSendsTheSequence : Prop :=
  ∀ (s : State) (c : InitConfig) (rest : List (Option Answer)),
    s.ready = true → InitRangesOfRule c s.height → s.draws = some (.ack 30) :: rest →
    (initBytesOfRule c s.height).length = 30 ∧
    exec (.init 1 c) s = .next { s with
      status := .ok
      opc := s.opc + 2
      seq := .idle
      tr := s.tr ++ [{ addr := s.devAddr, bytes := initBytesOfRule c s.height, answer := .ack 30 }]
      draws := rest }

/-- R93: an INIT with its configuration present reports InvalidConfig exactly when a validated field is out of range; the
multiplex check holds for every supported geometry. -/
def Obligations.InitValidatesItsRanges : Prop :=
  (∀ (s : State) (c : InitConfig), s.ready = true → ¬ InitRangesOfRule c s.height →
    exec (.init 1 c) s = .next { s with status := .invalidConfig, opc := s.opc + 2, seq := .idle }) ∧
  (∀ (s t : State) (c : InitConfig), s.ready = true → InitRangesOfRule c s.height →
    exec (.init 1 c) s = .next t → t.status ≠ .invalidConfig) ∧
  (∀ s : State, s.Inv → s.ready = true → (1 ≤ s.height - 1 ∧ s.height - 1 ≤ 64) ∧ (s.height - 1 = 63 ∨ s.height - 1 = 31))

/-- An INIT whose configuration is absent reports InvalidConfig, whatever its other fields hold, and writes no bus
(41_encoder.md R90, 30_encoding.md R66, 60_exceptions.md R165). -/
def Obligations.InitRejectsAnAbsentConfiguration : Prop :=
  ∀ (s : State) (c : InitConfig), s.ready = true →
    exec (.init 0 c) s = .next { s with status := .invalidConfig, opc := s.opc + 2, seq := .idle }

/-- R95: an INIT that ends has either put nothing on the bus, or the whole sequence as one command write of 30 bytes, and the
latter only once every validated field passed; it succeeds only on Ack(30). -/
def Obligations.InitIsOneWriteOrNone : Prop :=
  ∀ (s t : State) (p : BitVec 1) (c : InitConfig), exec (.init p c) s = .next t →
    (t.tr = s.tr ∧ t.status ≠ .ok) ∨
    (s.ready = true ∧ p = 1 ∧ InitRangesOfRule c s.height ∧ (initBytesOfRule c s.height).length = 30 ∧
      ∃ a : Answer, t.tr = s.tr ++ [{ addr := s.devAddr, bytes := initBytesOfRule c s.height, answer := a }] ∧
        (t.status = .ok ↔ a = .ack 30))

/-- R98: INIT does not validate the contrast; CON = 0 sends the bytes 0x81, 0x00 (the 10th and 11th of the write, after the
control byte) and ends OK when acknowledged. -/
def Obligations.ContrastZeroIsSent : Prop :=
  ∀ (s : State) (c : InitConfig) (rest : List (Option Answer)),
    s.ready = true → InitRangesOfRule c s.height → c.con = 0 → s.draws = some (.ack 30) :: rest →
    ∃ t e, exec (.init 1 c) s = .next t ∧ t.status = .ok ∧ t.tr = s.tr ++ [e] ∧
      (e.bytes.drop 10).take 2 = [0x81, 0x00]

/-- An INIT in range whose write is answered by anything but Ack(30) reports TransportFailure, with the write in the
transcript (41_encoder.md R90, R95; 20_memory.md R51). -/
def Obligations.InitReportsTransportFailure : Prop :=
  ∀ (s : State) (c : InitConfig) (a : Answer) (rest : List (Option Answer)),
    s.ready = true → InitRangesOfRule c s.height → s.draws = some a :: rest → a ≠ .ack 30 →
    exec (.init 1 c) s = .next { s with
      status := .transportFailure
      opc := s.opc + 2
      seq := .idle
      tr := s.tr ++ [{ addr := s.devAddr, bytes := initBytesOfRule c s.height, answer := a }]
      draws := rest }

/-- R99: INIT leaves the block's own state unchanged except STATUS and TR, however it ends. -/
def Obligations.InitKeepsTheBlock : Prop :=
  ∀ (s t : State) (p : BitVec 1) (c : InitConfig), exec (.init p c) s = .next t →
    t.fb = s.fb ∧ (∀ j, t.fbByte j = s.fbByte j) ∧ t.geomW = s.geomW ∧ t.geomH = s.geomH ∧ t.ready = s.ready ∧
    t.devAddr = s.devAddr ∧ t.ops = s.ops ∧ t.src = s.src ∧ t.opc = s.opc + 2 ∧ t.seq = .idle

/-! ### CLEAR and SETAREA -/

/-- R130: CLEAR makes every pixel byte 0, keeps the marker byte, writes no bus and has no other failure than NotReady. -/
def Obligations.ClearZeroesThePixels : Prop :=
  (∀ s : State, s.ready = true → ∃ t, exec .clear s = .next t ∧
    t.status = .ok ∧ t.opc = s.opc + 1 ∧ (∀ i < s.npix, t.pix i = 0x00) ∧ t.fbByte 0 = s.fbByte 0 ∧
    (∀ j, s.fbSize ≤ j → t.fbByte j = s.fbByte j) ∧
    t.geomW = s.geomW ∧ t.geomH = s.geomH ∧ t.ready = s.ready ∧ t.devAddr = s.devAddr ∧
    t.tr = s.tr ∧ t.ops = s.ops ∧ t.src = s.src ∧ t.draws = s.draws ∧ t.seq = .idle) ∧
  (∀ s : State, s.ready = false → exec .clear s = .next { s with status := .notReady, opc := s.opc + 1, seq := .idle })

/-- A SETAREA of a legal window, both writes fully acknowledged, ends OK with the page range and then the column range on
the bus, and changes nothing else (42_fbmgr.md R131, R132). -/
def Obligations.SetAreaSendsBothRanges : Prop :=
  ∀ (s : State) (sp ep sc ec : BitVec 8) (rest : List (Option Answer)),
    s.ready = true → AreaOfRule s.width s.height sp ep sc ec →
    s.draws = some (.ack 4) :: some (.ack 4) :: rest →
    exec (.setArea sp ep sc ec) s = .next { s with
      status := .ok
      opc := s.opc + 1
      seq := .idle
      tr := s.tr ++ [{ addr := s.devAddr, bytes := [0x00, 0x22, sp, ep], answer := .ack 4 },
                     { addr := s.devAddr, bytes := [0x00, 0x21, sc, ec], answer := .ack 4 }]
      draws := rest }

/-- A SETAREA whose first write fails sends no column range; one whose second write fails has sent both; either reports
TransportFailure (42_fbmgr.md R131). -/
def Obligations.SetAreaStopsAtTheFirstFailure : Prop :=
  (∀ (s : State) (sp ep sc ec : BitVec 8) (a : Answer) (rest : List (Option Answer)),
    s.ready = true → AreaOfRule s.width s.height sp ep sc ec → s.draws = some a :: rest → a ≠ .ack 4 →
    exec (.setArea sp ep sc ec) s = .next { s with
      status := .transportFailure
      opc := s.opc + 1
      seq := .idle
      tr := s.tr ++ [{ addr := s.devAddr, bytes := [0x00, 0x22, sp, ep], answer := a }]
      draws := rest }) ∧
  (∀ (s : State) (sp ep sc ec : BitVec 8) (a : Answer) (rest : List (Option Answer)),
    s.ready = true → AreaOfRule s.width s.height sp ep sc ec → s.draws = some (.ack 4) :: some a :: rest → a ≠ .ack 4 →
    exec (.setArea sp ep sc ec) s = .next { s with
      status := .transportFailure
      opc := s.opc + 1
      seq := .idle
      tr := s.tr ++ [{ addr := s.devAddr, bytes := [0x00, 0x22, sp, ep], answer := .ack 4 },
                     { addr := s.devAddr, bytes := [0x00, 0x21, sc, ec], answer := a }]
      draws := rest })

/-- R132: a SETAREA reports InvalidArea, with no bus write, exactly when the window is not legal; on 128×64 the legal pages are
0 to 7, on 128×32 0 to 3, and the columns 0 to 127 on both. -/
def Obligations.SetAreaChecksItsWindow : Prop :=
  (∀ (s : State) (sp ep sc ec : BitVec 8), s.ready = true → ¬ AreaOfRule s.width s.height sp ep sc ec →
    exec (.setArea sp ep sc ec) s = .next { s with status := .invalidArea, opc := s.opc + 1, seq := .idle }) ∧
  (∀ (s t : State) (sp ep sc ec : BitVec 8), s.ready = true → AreaOfRule s.width s.height sp ep sc ec →
    exec (.setArea sp ep sc ec) s = .next t → t.status ≠ .invalidArea) ∧
  (∀ sp ep sc ec : BitVec 8,
    (AreaOfRule 128 64 sp ep sc ec ↔ sp.toNat ≤ ep.toNat ∧ ep.toNat ≤ 7 ∧ sc.toNat ≤ ec.toNat ∧ ec.toNat ≤ 127) ∧
    (AreaOfRule 128 32 sp ep sc ec ↔ sp.toNat ≤ ep.toNat ∧ ep.toNat ≤ 3 ∧ sc.toNat ≤ ec.toNat ∧ ec.toNat ≤ 127))

/-! ### BLIT -/

/-- A BLIT of a valid bitmap whose corner is on the panel and whose source bytes are admitted ends OK. Pixel by pixel, the
clipped rectangle takes the source pixels, off ones included, and every other pixel, in every page, stays; so do the marker and
all other state (43_compositor.md R140 to R143). -/
def Obligations.BlitComposites : Prop :=
  ∀ (s : State) (x y bw bh : BitVec 16) (base : BitVec 32),
    s.Inv → s.ready = true → bw ≠ 0 → bh ≠ 0 → x.toNat < s.width → y.toNat < s.height →
    SourceAdmitted s x y bw bh base →
    ∃ t, exec (.blit x y 1 1 bw bh base) s = .next t ∧
      t.status = .ok ∧ t.opc = s.opc + 2 ∧
      (∀ c r, c < s.width → t.pixel c r =
        if (x.toNat ≤ c ∧ c < x.toNat + min bw.toNat (s.width - x.toNat)) ∧
           (y.toNat ≤ r ∧ r < y.toNat + min bh.toNat (s.height - y.toNat)) then
          ((memRead s.src (base.toNat + (r - y.toNat) * ((bw.toNat + 7) / 8) + (c - x.toNat) / 8)).getD 0).getLsbD
            ((c - x.toNat) % 8)
        else s.pixel c r) ∧
      t.fbByte 0 = s.fbByte 0 ∧ (∀ j, s.fbSize ≤ j → t.fbByte j = s.fbByte j) ∧
      t.geomW = s.geomW ∧ t.geomH = s.geomH ∧ t.ready = s.ready ∧ t.devAddr = s.devAddr ∧
      t.tr = s.tr ∧ t.ops = s.ops ∧ t.src = s.src ∧ t.draws = s.draws ∧ t.seq = .idle

/-- R145: (a) a bitmap fully within bounds reads back bit for bit; (b) one that straddles an edge writes only its in-bounds
part, and no source bit outside it affects anything, be it in a byte that is not read or in the rest of the last byte read of a
row; (c) one entirely outside changes nothing and ends OK;
(d) pixels outside the rectangle are unchanged. -/
def Obligations.BlitReadsBack : Prop :=
  (∀ (s t : State) (x y bw bh : BitVec 16) (base : BitVec 32), s.Inv → s.ready = true →
    x.toNat + bw.toNat ≤ s.width → y.toNat + bh.toNat ≤ s.height →
    exec (.blit x y 1 1 bw bh base) s = .next t → t.status = .ok →
    ∀ i < bh.toNat, ∀ j < bw.toNat, ∃ b,
      memRead s.src (base.toNat + i * ((bw.toNat + 7) / 8) + j / 8) = some b ∧
      (t.pix ((y.toNat + i) / 8 * s.width + x.toNat + j)).getLsbD ((y.toNat + i) % 8) = b.getLsbD (j % 8)) ∧
  (∀ (s t : State) (src' : Memory) (x y bw bh : BitVec 16) (base : BitVec 32), s.Inv → s.ready = true →
    exec (.blit x y 1 1 bw bh base) s = .next t →
    (∀ i < min bh.toNat (s.height - y.toNat), ∀ b < (min bw.toNat (s.width - x.toNat) + 7) / 8,
      (memRead src' (base.toNat + i * ((bw.toNat + 7) / 8) + b)).isSome = true ∧
      ∀ k < 8, 8 * b + k < min bw.toNat (s.width - x.toNat) →
        ((memRead src' (base.toNat + i * ((bw.toNat + 7) / 8) + b)).getD 0).getLsbD k =
          ((memRead s.src (base.toNat + i * ((bw.toNat + 7) / 8) + b)).getD 0).getLsbD k) →
    exec (.blit x y 1 1 bw bh base) { s with src := src' } = .next { t with src := src' }) ∧
  (∀ (s : State) (x y bw bh : BitVec 16) (base : BitVec 32), s.ready = true → bw ≠ 0 → bh ≠ 0 →
    (s.width ≤ x.toNat ∨ s.height ≤ y.toNat) →
    exec (.blit x y 1 1 bw bh base) s = .next { s with status := .ok, opc := s.opc + 2, seq := .idle }) ∧
  (∀ (s t : State) (x y bw bh : BitVec 16) (base : BitVec 32), s.Inv → s.ready = true →
    exec (.blit x y 1 1 bw bh base) s = .next t →
    ∀ c r, c < s.width →
      ¬ ((x.toNat ≤ c ∧ c < x.toNat + min bw.toNat (s.width - x.toNat)) ∧
         (y.toNat ≤ r ∧ r < y.toNat + min bh.toNat (s.height - y.toNat))) →
      t.pixel c r = s.pixel c r)

/-- A BLIT that needs a source byte the host has not admitted, or one at 2^32 or above, is the model fault SrcFault, at such a
byte of its own clipped rows (20_memory.md R43, 43_compositor.md R144, 60_exceptions.md R176). -/
def Obligations.BlitFaultsOnUnadmittedSource : Prop :=
  ∀ (s : State) (x y bw bh : BitVec 16) (base : BitVec 32),
    s.Inv → s.ready = true → bw ≠ 0 → bh ≠ 0 → x.toNat < s.width → y.toNat < s.height →
    ¬ SourceAdmitted s x y bw bh base →
    ∃ i b, i < min bh.toNat (s.height - y.toNat) ∧ b < (min bw.toNat (s.width - x.toNat) + 7) / 8 ∧
      memRead s.src (base.toNat + i * ((bw.toNat + 7) / 8) + b) = none ∧
      exec (.blit x y 1 1 bw bh base) s =
        .fault (.srcFault (base.toNat + i * ((bw.toNat + 7) / 8) + b) (.blitAt i b))

/-- A BLIT whose bitmap is absent, has no data, or is of zero width or height reports InvalidBitmap and changes nothing, off
the panel too (43_compositor.md R140, 60_exceptions.md R165). -/
def Obligations.BlitRejectsInvalidBitmaps : Prop :=
  ∀ (s : State) (x y : BitVec 16) (bp dp : BitVec 1) (bw bh : BitVec 16) (base : BitVec 32),
    s.ready = true → (bp = 0 ∨ dp = 0 ∨ bw = 0 ∨ bh = 0) →
    exec (.blit x y bp dp bw bh base) s = .next { s with status := .invalidBitmap, opc := s.opc + 2, seq := .idle }

/-- A BLIT repeated writes the same bits again: after it, the store is the same list of cells (43_compositor.md R140 corner
case (i)). -/
def Obligations.BlitIsIdempotent : Prop :=
  ∀ (s t u : State) (x y : BitVec 16) (bp dp : BitVec 1) (bw bh : BitVec 16) (base : BitVec 32), s.Inv →
    exec (.blit x y bp dp bw bh base) s = .next t → exec (.blit x y bp dp bw bh base) t = .next u → u.fb = t.fb

/-! ### SHOW -/

/-- A SHOW whose writes are all fully acknowledged ends OK with exactly the writes of R150 and R151 in the transcript, in
order, and changes nothing else (44_sequencer.md R150, R151). -/
def Obligations.ShowSendsEveryPage : Prop :=
  ∀ (s : State) (rest : List (Option Answer)), s.Inv → s.ready = true →
    s.draws = fullAcks (showBytesOfRule s) ++ rest →
    exec .showFrame s = .next { s with
      status := .ok
      opc := s.opc + 1
      seq := .idle
      tr := s.tr ++ (showBytesOfRule s).map fun w => { addr := s.devAddr, bytes := w, answer := .ack w.length }
      draws := rest }

/-- R151: the data write of page p in a SHOW that succeeds is the marker and page p's W pixel bytes in ascending column order,
as they stand when SHOW starts, W + 1 = 129 bytes; for page 0 it equals FB[0 .. W]. -/
def Obligations.PageFrames : Prop :=
  ∀ (s t : State) (p : Nat), s.Inv → exec .showFrame s = .next t → t.status = .ok → p < s.pages →
    ∃ e, t.tr[s.tr.length + 4 * p + 4]? = some e ∧
      e.bytes = 0x40 :: ((List.range s.width).map fun c => s.pix (p * s.width + c)) ∧
      e.bytes.length = s.width + 1 ∧ e.bytes.length = 129 ∧
      (p = 0 → e.bytes = (List.range (s.width + 1)).map s.fbByte)

/-- R154: a SHOW that succeeds emits 1 + 4 * PAGES writes, 33 or 17, of 1083 or 543 bytes in all: the mode write of 3 bytes,
then per page three of 2 bytes and one of 129. -/
def Obligations.ShowCounts : Prop :=
  ∀ s t : State, s.Inv → exec .showFrame s = .next t → t.status = .ok →
    ∃ es : List BusEntry, t.tr = s.tr ++ es ∧ es.length = 1 + 4 * s.pages ∧
      (es.map fun e => e.bytes.length).sum = 3 + s.pages * (2 + 2 + 2 + s.width + 1) ∧
      es.map (fun e => e.bytes.length) = 3 :: (List.replicate s.pages [2, 2, 2, 129]).flatten ∧
      (s.height = 64 → es.length = 33 ∧ (es.map fun e => e.bytes.length).sum = 1083) ∧
      (s.height = 32 → es.length = 17 ∧ (es.map fun e => e.bytes.length).sum = 543)

/-- A SHOW whose write number k + 1 is the first one not fully acknowledged reports TransportFailure at once: the
transcript ends with that write, no further write is emitted, and nothing else changes. Write number m is that of page
(m - 2) div 4 in the phase of (m - 2) mod 4, after the mode write (44_sequencer.md R150, R152; 60_exceptions.md R163). -/
def Obligations.ShowAbortsAtTheFirstFailure : Prop :=
  (∀ (s : State) (m : Nat), 2 ≤ m → m ≤ 1 + 4 * s.pages →
    (showBytesOfRule s)[m - 1]? = some (showWriteOf s ((m - 2) / 4) (phaseOfRule ((m - 2) % 4)))) ∧
  (∀ s : State, (showBytesOfRule s)[0]? = some (showWriteOf s 0 .mode) ∧ (showBytesOfRule s).length = 1 + 4 * s.pages) ∧
  ∀ (s : State) (k : Nat) (w : List Byte) (a : Answer) (rest : List (Option Answer)), s.Inv → s.ready = true →
    (showBytesOfRule s)[k]? = some w → a ≠ .ack w.length →
    s.draws = fullAcks ((showBytesOfRule s).take k) ++ some a :: rest →
    exec .showFrame s = .next { s with
      status := .transportFailure
      opc := s.opc + 1
      seq := .idle
      tr := s.tr ++ ((showBytesOfRule s).take k).map (fun v => { addr := s.devAddr, bytes := v, answer := .ack v.length }) ++
        [{ addr := s.devAddr, bytes := w, answer := a }]
      draws := rest }

/-- A SHOW waits at a write the transport does not answer, and the sequencing state there is the page and phase that R152
computes from the write's number m: page (m - 2) div 4 and the phase of (m - 2) mod 4 (10_state.md R33, 44_sequencer.md R152,
60_exceptions.md R176). For the mode write, m = 1, the spec gives no page: page 0 is the model's choice (log entry 11). -/
def Obligations.ShowWaitsAtItsPageAndPhase : Prop :=
  ∀ (s : State) (m : Nat) (rest : List (Option Answer)), s.Inv → s.ready = true →
    1 ≤ m → m ≤ (showBytesOfRule s).length →
    s.draws = fullAcks ((showBytesOfRule s).take (m - 1)) ++ none :: rest →
    exec .showFrame s = .fault (.awaitAnswer
      (if m = 1 then .showAt 0 .mode else .showAt ((m - 2) / 4) (phaseOfRule ((m - 2) % 4))))

/-- R153: SHOW changes nothing but STATUS and TR, whether it succeeds or not; and, as far as the transcript tells of the
controller's mode (log entry 5: the model's reading), when its first write succeeded the controller is left in page addressing
mode. -/
def Obligations.ShowKeepsTheBlock : Prop :=
  ∀ s t : State, exec .showFrame s = .next t →
    t.fb = s.fb ∧ (∀ j, t.fbByte j = s.fbByte j) ∧ t.geomW = s.geomW ∧ t.geomH = s.geomH ∧ t.ready = s.ready ∧
    t.devAddr = s.devAddr ∧ t.ops = s.ops ∧ t.src = s.src ∧ t.opc = s.opc + 1 ∧ t.seq = .idle ∧
    (∀ e, t.tr[s.tr.length]? = some e → e.answer = .ack 3 → (controllerView t.tr).addrMode = some 2)

/-! ### Controller commands -/

/-- Each one-byte controller command, put on the bus by itself, is one command write of its byte: the byte is the rule's,
the write of its own is the model's choice (30_encoding.md R71, 41_encoder.md R100 to R122; log entry 3). It writes neither
STATUS nor `opc` nor any byte of FB. -/
def Obligations.OneByteCommandsAreSent : Prop :=
  ∀ (s : State) (a : Answer) (ds : List (Option Answer)), s.draws = some a :: ds →
    exec .displayOff s = .next (afterCommand s [0xAE] a ds) ∧
    exec .displayOn s = .next (afterCommand s [0xAF] a ds) ∧
    (∀ d : BitVec 1, exec (.setComScan d) s = .next (afterCommand s [0xC0 ||| (d.setWidth 8 <<< 3)] a ds)) ∧
    (∀ i : BitVec 1, exec (.setNormalInverse i) s = .next (afterCommand s [0xA6 ||| i.setWidth 8] a ds)) ∧
    exec .entireDisplayResume s = .next (afterCommand s [0xA4] a ds) ∧
    (∀ l : BitVec 6, exec (.setStartLine l) s = .next (afterCommand s [0x40 ||| l.setWidth 8] a ds)) ∧
    (∀ g : BitVec 1, exec (.setSegRemap g) s = .next (afterCommand s [0xA0 ||| g.setWidth 8] a ds)) ∧
    (∀ p : BitVec 3, exec (.setPageStart p) s = .next (afterCommand s [0xB0 ||| p.setWidth 8] a ds)) ∧
    (∀ n : BitVec 4, exec (.setColLow n) s = .next (afterCommand s [0x00 ||| n.setWidth 8] a ds)) ∧
    (∀ n : BitVec 4, exec (.setColHigh n) s = .next (afterCommand s [0x10 ||| n.setWidth 8] a ds))

/-- Each controller command with operand bytes, put on the bus by itself, is one command write of its opcode byte and its
operand bytes: the bytes are the rules', the write of its own is the model's choice (30_encoding.md R71, 41_encoder.md R103 to
R119; log entry 3). It writes neither STATUS nor `opc` nor any byte of FB. -/
def Obligations.OperandCommandsAreSent : Prop :=
  ∀ (s : State) (a : Answer) (ds : List (Option Answer)), s.draws = some a :: ds →
    (∀ m, exec (.setMux m) s = .next (afterCommand s [0xA8, m] a ds)) ∧
    (∀ f d : BitVec 4, exec (.setClkDiv f d) s =
      .next (afterCommand s [0xD5, (f.setWidth 8 <<< 4) ||| d.setWidth 8] a ds)) ∧
    (∀ c, exec (.setContrast c) s = .next (afterCommand s [0x81, c] a ds)) ∧
    (∀ m t : BitVec 4, exec (.setFade m t) s =
      .next (afterCommand s [0x23, (m.setWidth 8 <<< 4) ||| t.setWidth 8] a ds)) ∧
    (∀ z, exec (.setZoom z) s = .next (afterCommand s [0xD6, z] a ds)) ∧
    (∀ o, exec (.setDisplayOffset o) s = .next (afterCommand s [0xD3, o] a ds)) ∧
    (∀ m, exec (.setAddrMode m) s = .next (afterCommand s [0x20, m] a ds)) ∧
    (∀ p2 p1 : BitVec 4, exec (.setPrecharge p2 p1) s =
      .next (afterCommand s [0xD9, (p2.setWidth 8 <<< 4) ||| p1.setWidth 8] a ds)) ∧
    (∀ v, exec (.setVcomh v) s = .next (afterCommand s [0xDB, v] a ds)) ∧
    (∀ b, exec (.setComPins b) s = .next (afterCommand s [0xDA, b] a ds)) ∧
    (∀ e, exec (.setChargePump e) s = .next (afterCommand s [0x8D, e] a ds)) ∧
    (∀ sc ec, exec (.setColRange sc ec) s = .next (afterCommand s [0x21, sc, ec] a ds)) ∧
    (∀ sp ep, exec (.setPageRange sp ep) s = .next (afterCommand s [0x22, sp, ep] a ds))

/-- A bus write takes whatever answer the transport gives: with none scheduled, a controller command still completes with one
more transcript entry, answered by the free value; it waits only where the next answer is none (20_memory.md R50, R51;
60_exceptions.md R176; log entries 2 and 3). -/
def Obligations.CommandsWaitOnlyForTheTransport : Prop :=
  ∀ (i : Instr) (s : State), i.isOperation = false →
    (s.draws = [] → ∃ t, exec i s = .next t ∧
      t.tr = s.tr ++ [{ addr := s.devAddr, bytes := commandWrite [i], answer := freeAnswer (commandWrite [i]) s }]) ∧
    (∀ ds, s.draws = none :: ds → exec i s = .fault (.awaitAnswer s.seq))

/-- What an acknowledged INIT tells the controller, by the controller meanings of 41_encoder.md R100 to R117: every
setting it sends. That is a reading of the transcript, the controller itself being out of scope, and it takes an acknowledged
value outside the controller's own set (CON = 0, AM = 3, FM = 1, an undefined VCH) as the setting held, which R97 leaves open: the
model's choice (log entry 5). -/
def Obligations.InitTellsTheController : Prop :=
  ∀ (s t : State) (c : InitConfig), exec (.init 1 c) s = .next t → t.status = .ok →
    (controllerView t.tr).displayOn = some true ∧ (controllerView t.tr).contrast = some c.con ∧
    (controllerView t.tr).mux = some (BitVec.ofNat 8 (s.height - 1)) ∧
    (controllerView t.tr).addrMode = some (c.am.setWidth 8) ∧ (controllerView t.tr).inverse = some c.inv ∧
    (controllerView t.tr).comScan = some c.com ∧ (controllerView t.tr).segRemap = some c.seg ∧
    (controllerView t.tr).vcomh = some c.vch ∧ (controllerView t.tr).startLine = some 0 ∧
    (controllerView t.tr).offset = some 0 ∧ (controllerView t.tr).entireOn = some false ∧
    (controllerView t.tr).comAlt = some (decide (32 < s.height)) ∧
    (controllerView t.tr).comLrRemap = some false ∧
    (controllerView t.tr).chargePump = some (if c.cp = 1 then 0x14 else 0x10) ∧
    (controllerView t.tr).oscillator.map BitVec.toNat = some c.osc.toNat ∧
    (controllerView t.tr).clockDivide.map BitVec.toNat = some c.ckd.toNat ∧
    (controllerView t.tr).fadeMode.map BitVec.toNat = some c.fm.toNat ∧
    (controllerView t.tr).fadeInterval.map BitVec.toNat = some c.fi.toNat ∧
    (controllerView t.tr).zoom.map BitVec.toNat = some c.zm.toNat ∧
    (controllerView t.tr).precharge1.map BitVec.toNat = some c.pc1.toNat ∧
    (controllerView t.tr).precharge2.map BitVec.toNat = some c.pc2.toNat

/-! ### The whole machine -/

/-- R71 and R72: every bus write of a host operation begins with exactly one control byte; a command write carries well-formed
commands of the twenty-three and nothing else, one of them from SETAREA and SHOW and eighteen from INIT; a data write comes
from SHOW only and carries pixel bytes. GEOM, RELEASE, CLEAR and BLIT write no bus. -/
def Obligations.OperationsFrameTheirWrites : Prop :=
  ∀ (i : Instr) (s t : State), i.isOperation = true → exec i s = .next t →
    ∃ es : List BusEntry, t.tr = s.tr ++ es ∧
      (∀ e ∈ es, e.addr = s.devAddr ∧
        ((∃ cs : List Instr, e.bytes = 0x00 :: cs.flatMap encodeCommand ∧
            (∀ c ∈ cs, c.isOperation = false ∧ c.WellFormed) ∧
            ((∃ p cfg, i = .init p cfg ∧ cs.length = 18) ∨
             (((∃ sp ep sc ec, i = .setArea sp ep sc ec) ∨ i = .showFrame) ∧ cs.length = 1))) ∨
         (i = .showFrame ∧ ∃ p < s.pages, e.bytes = 0x40 :: (List.range s.width).map fun c => s.pix (p * s.width + c)))) ∧
      ((∃ gw gh ga, i = .geom gw gh ga) ∨ i = .release ∨ i = .clear ∨ (∃ x y bp dp bw bh base, i = .blit x y bp dp bw bh base) →
        es = [])

/-- R21: an operation moves `opc` past its own words, whatever its status, and so does a step, by 2 words for the opcodes of
INIT and BLIT and by 1 for every other, illegal ones among them; it is 0 at reset. -/
def Obligations.OpcAdvancesByLength : Prop :=
  (∀ (i : Instr) (s t : State), i.isOperation = true → exec i s = .next t →
    t.opc = s.opc + encodedLength (encode i)) ∧
  (∀ (s t : State) (w0 : Word), s.seq = .idle → s.ops[s.opc]? = some w0 → step s = .next t →
    t.opc = s.opc + (if w0.toNat % 256 = 3 ∨ w0.toNat % 256 = 6 then 2 else 1)) ∧
  State.reset.opc = 0

/-- R162: which operation can end with which status code. -/
def Obligations.StatusesByOperation : Prop :=
  (∀ (s t : State) gw gh ga, exec (.geom gw gh ga) s = .next t → t.status = .ok ∨ t.status = .invalidGeometry) ∧
  (∀ s t : State, exec .release s = .next t → t.status = .ok) ∧
  (∀ (s t : State) p c, exec (.init p c) s = .next t →
    t.status = .ok ∨ t.status = .notReady ∨ t.status = .invalidConfig ∨ t.status = .transportFailure) ∧
  (∀ s t : State, exec .clear s = .next t → t.status = .ok ∨ t.status = .notReady) ∧
  (∀ (s t : State) sp ep sc ec, exec (.setArea sp ep sc ec) s = .next t →
    t.status = .ok ∨ t.status = .notReady ∨ t.status = .transportFailure ∨ t.status = .invalidArea) ∧
  (∀ (s t : State) x y bp dp bw bh base, exec (.blit x y bp dp bw bh base) s = .next t →
    t.status = .ok ∨ t.status = .notReady ∨ t.status = .invalidBitmap) ∧
  (∀ s t : State, exec .showFrame s = .next t →
    t.status = .ok ∨ t.status = .notReady ∨ t.status = .transportFailure)

/-- R166: an operation that ends with a status other than OK leaves every other piece of state as it was, but that `opc`
advances and that the bus writes it made stay in the transcript; FB is never part-written. The same for a step from between
operations, illegal words among them. -/
def Obligations.FailingOperationsChangeNothingElse : Prop :=
  (∀ (i : Instr) (s t : State), i.isOperation = true → exec i s = .next t → t.status ≠ .ok →
    t.fb = s.fb ∧ (∀ j, t.fbByte j = s.fbByte j) ∧ t.geomW = s.geomW ∧ t.geomH = s.geomH ∧ t.ready = s.ready ∧
    t.devAddr = s.devAddr ∧ t.ops = s.ops ∧ t.src = s.src ∧ t.seq = .idle ∧
    t.opc = s.opc + encodedLength (encode i) ∧ (∃ es, t.tr = s.tr ++ es) ∧ (t.status ≠ .transportFailure → t.tr = s.tr)) ∧
  (∀ s t : State, s.seq = .idle → step s = .next t → t.status ≠ .ok →
    t.fb = s.fb ∧ (∀ j, t.fbByte j = s.fbByte j) ∧ t.geomW = s.geomW ∧ t.geomH = s.geomH ∧ t.ready = s.ready ∧
    t.devAddr = s.devAddr ∧ t.ops = s.ops ∧ t.src = s.src ∧ t.seq = .idle ∧
    (t.opc = s.opc + 1 ∨ t.opc = s.opc + 2) ∧ (∃ es, t.tr = s.tr ++ es) ∧ (t.status ≠ .transportFailure → t.tr = s.tr))

/-- An operation reports TransportFailure exactly when its last write was not fully acknowledged, and then that write is the
last transcript entry with its answer; every write before it, and every write of an operation that ends otherwise, was answered
with its whole length (20_memory.md R51, 60_exceptions.md R163, R165). -/
def Obligations.AnswersDecideTheStatus : Prop :=
  ∀ (i : Instr) (s t : State), i.isOperation = true → exec i s = .next t →
    (t.status = .transportFailure → ∃ (es : List BusEntry) (e : BusEntry), t.tr = s.tr ++ es ++ [e] ∧
      e.answer ≠ .ack e.bytes.length ∧ ∀ d ∈ es, d.answer = .ack d.bytes.length) ∧
    (t.status ≠ .transportFailure → ∃ es : List BusEntry, t.tr = s.tr ++ es ∧ ∀ d ∈ es, d.answer = .ack d.bytes.length)

/-- The transcript only grows, and every entry a step adds is addressed to DEVADDR (10_state.md R26, R34; 20_memory.md
R50). -/
def Obligations.TranscriptOnlyGrows : Prop :=
  ∀ s t : State, step s = .next t →
    ∃ es : List BusEntry, t.tr = s.tr ++ es ∧ ∀ e ∈ es, e.addr = s.devAddr

/-- No step writes the operation stream or the source memory (20_memory.md R43, R44, R58), and the block keeps no copy of
anything but what GEOM, RELEASE, CLEAR and BLIT write: only GEOM writes the geometry and address registers, only GEOM and
RELEASE write READY (10_state.md R23 to R26), and only GEOM, RELEASE, CLEAR and BLIT write FB (20_memory.md R41). -/
def Obligations.OnlyTheirWritersWriteThem : Prop :=
  (∀ s t : State, step s = .next t → t.ops = s.ops ∧ t.src = s.src) ∧
  (∀ (i : Instr) (s t : State), exec i s = .next t → (∀ gw gh ga, i ≠ .geom gw gh ga) →
    t.geomW = s.geomW ∧ t.geomH = s.geomH ∧ t.devAddr = s.devAddr ∧
    (i ≠ .release → t.ready = s.ready ∧ t.fbByte 0 = s.fbByte 0 ∧
      (i ≠ .clear → (∀ x y bp dp bw bh base, i ≠ .blit x y bp dp bw bh base) →
        t.fb = s.fb ∧ ∀ j, t.fbByte j = s.fbByte j)))

/-- R28: no operation reads STATUS: with another status before it, it does and answers the very same, and so does every step
from between operations. -/
def Obligations.StatusIsNeverRead : Prop :=
  (∀ (i : Instr) (s : State) (c : StatusCode), i.isOperation = true → exec i { s with status := c } = exec i s) ∧
  (∀ (s : State) (c : StatusCode), s.seq = .idle → step { s with status := c } = step s)

/-- In a legal state no operation meets the model fault NoValue or a refusal, and none meets SrcFault unless it is a BLIT
that reads a byte the host has not admitted: it answers a next state unless the transport leaves a write unanswered
(60_exceptions.md R176; 20_memory.md R41). The statement is of every instruction: that a controller command runs as one at all is
the model's choice (log entry 3). -/
def Obligations.EveryOperationEnds : Prop :=
  ∀ (i : Instr) (s : State), s.Inv → none ∉ s.draws →
    (∀ x y bp dp bw bh base, i = .blit x y bp dp bw bh base → SourceAdmitted s x y bw bh base) →
    ∃ t, exec i s = .next t

/-- A step in a legal state is safe, or stops at a source byte that is not admitted (60_exceptions.md R176, 20_memory.md R41), or
refuses staged bytes that are no command of the twenty-three: staging, and that refusal, are the model's choice (log entry 3). -/
def Obligations.StepsAreSafe : Prop :=
  ∀ s : State, s.Inv → SafeOutcome (step s) ∨
    (∃ addr at_, step s = .fault (.srcFault addr at_) ∧ memRead s.src addr = none) ∨
    step s = .refused .unknownCommand ∨ step s = .refused .incompleteCommand

/-! ### What the host sees -/

/-- R27, with the registers' layouts of R22 to R26: the register window has indices 0 to 4, reserved bits read 0, any other
index reads 0, and between operations a host read answers just that. The host writes none of it: its moves leave the whole window as it was. What the block writes there is legal: a
code of R161 that the block produces, and a geometry of `GEOMS` while READY is 1. -/
def Obligations.RegisterWindow : Prop :=
  (∀ s : State,
    (windowValue 0 s).toNat = s.status.number.toNat ∧
    windowValue 1 s = s.geomW ∧ windowValue 2 s = s.geomH ∧
    (windowValue 3 s).toNat = (if s.ready then 1 else 0) ∧
    (windowValue 4 s).toNat = s.devAddr.toNat ∧
    (∀ k, 5 ≤ k → windowValue k s = 0)) ∧
  (∀ (s : State) (k : Nat), s.seq = .idle → (∀ q, step s ≠ .fault (.awaitAnswer q)) →
    readWindow k s = .ok (windowValue k s)) ∧
  (∀ (s t : State) (k : Nat),
    ((∃ ws, hostSupply ws s = .next t) ∨ (∃ addr v, hostAdmit addr v s = .next t) ∨ (∃ addr, hostWithdraw addr s = .next t)) →
    windowValue k t = windowValue k s) ∧
  (∀ s t : State, s.Inv → step s = .next t →
    (windowValue 0 t).toNat ≤ 8 ∧ (windowValue 0 t).toNat ≠ 5 ∧
    (windowValue 3 t = 1 → windowValue 1 t = 128 ∧ (windowValue 2 t = 64 ∨ windowValue 2 t = 32)))

/-- The codes of R161 have its numbers, all different, and InvalidFont is reported by no step of a legal state. -/
def Obligations.StatusNumbers : Prop :=
  StatusCode.ok.number = 0 ∧ StatusCode.invalidGeometry.number = 1 ∧ StatusCode.notReady.number = 2 ∧
  StatusCode.invalidConfig.number = 3 ∧ StatusCode.invalidBitmap.number = 4 ∧ StatusCode.invalidFont.number = 5 ∧
  StatusCode.transportFailure.number = 6 ∧ StatusCode.invalidArea.number = 7 ∧ StatusCode.illegalOperation.number = 8 ∧
  (∀ s t : State, s.Inv → step s = .next t → t.status ≠ .invalidFont ∧ t.status.number.toNat ≤ 8)

/-- Between operations the observation port reads every register of the window, every byte of FB below FBSIZE while READY is 1,
and no value while READY is 0 (20_memory.md R42, 00_scope.md R10); an index at or above FBSIZE holds no value either (log entry
6). While a bus write awaits its answer neither is read (20_memory.md R42, R52). -/
def Obligations.ObservationPort : Prop :=
  (∀ (s : State) (j : Nat), s.seq = .idle → (∀ q, step s ≠ .fault (.awaitAnswer q)) →
    readWindow j s = .ok (windowValue j s) ∧
    (s.ready = true → j < s.fbSize → observeFb j s = .ok (s.fbByte j)) ∧
    (s.ready = true → s.fbSize ≤ j → observeFb j s = .error (.fault (.noValue j))) ∧
    (s.ready = false → observeFb j s = .error (.fault (.noValue j)))) ∧
  (∀ (s : State) (q : Seq) (j : Nat), step s = .fault (.awaitAnswer q) →
    readWindow j s = .error (.refused .operationInFlight) ∧ observeFb j s = .error (.refused .operationInFlight))

/-- The default preset assembles to the words of R96, the pseudo-instructions of R74 to theirs, and every line the assembler
takes decodes to the operation it stands for (30_encoding.md R73, R74; 41_encoder.md R96). -/
def Obligations.AssemblerAgreesWithDecoder : Prop :=
  assemble (.initDefault []) = some [0x0000000000023103, 0x0020000F010800FF] ∧
  assemble (.initDefault [(.contrast, 100)]) = some [0x0000000000023103, 0x0020000F01080064] ∧
  assemble (.setAreaFull 128 64) = some [0x0000007F00070005] ∧
  (∀ (l : AsmLine) (i : Instr), assembleOp l = some i →
    ∃ ws n, assemble l = some ws ∧ decode (.operation ws) = .instr i n ∧ n = ws.length)

/-- The forms of R73 give the words of R62 to R67, written out here as sums of fields, and a number that does not fit its field
is refused, each operand at its own width; SETAREA.FULL expands as R74 says. Lines are taken as numbers already split, and a
SETAREA.FULL without a page or a column is refused (log entry 7: the model's choice). -/
def Obligations.AssemblyFormsGiveTheirWords : Prop :=
  (∀ w h addr : Nat, assemble (.geom w h addr) =
    if w < 2 ^ 16 ∧ h < 2 ^ 16 ∧ addr < 2 ^ 7 then some [BitVec.ofNat 64 (0x01 + w * 2 ^ 8 + h * 2 ^ 24 + addr * 2 ^ 40)]
    else none) ∧
  assemble .release = some [0x02] ∧ assemble .clear = some [0x04] ∧ assemble .showFrame = some [0x07] ∧
  (∀ sp ep sc ec : Nat, assemble (.setArea sp ep sc ec) =
    if sp < 2 ^ 8 ∧ ep < 2 ^ 8 ∧ sc < 2 ^ 8 ∧ ec < 2 ^ 8 then
      some [BitVec.ofNat 64 (0x05 + sp * 2 ^ 8 + ep * 2 ^ 16 + sc * 2 ^ 24 + ec * 2 ^ 32)]
    else none) ∧
  (∀ x y bw bh base : Nat, assemble (.blit x y bw bh base) =
    if x < 2 ^ 16 ∧ y < 2 ^ 16 ∧ bw < 2 ^ 16 ∧ bh < 2 ^ 16 ∧ base < 2 ^ 32 then
      some [BitVec.ofNat 64 (0x06 + x * 2 ^ 8 + y * 2 ^ 24 + 2 ^ 40 + 2 ^ 41),
            BitVec.ofNat 64 (bw + bh * 2 ^ 16 + base * 2 ^ 32)]
    else none) ∧
  (∀ x y bw bh : Nat, assemble (.blitNoData x y bw bh) =
    if x < 2 ^ 16 ∧ y < 2 ^ 16 ∧ bw < 2 ^ 16 ∧ bh < 2 ^ 16 then
      some [BitVec.ofNat 64 (0x06 + x * 2 ^ 8 + y * 2 ^ 24 + 2 ^ 40), BitVec.ofNat 64 (bw + bh * 2 ^ 16)]
    else none) ∧
  (∀ x y : Nat, assemble (.blitAbsent x y) =
    if x < 2 ^ 16 ∧ y < 2 ^ 16 then some [BitVec.ofNat 64 (0x06 + x * 2 ^ 8 + y * 2 ^ 24), 0] else none) ∧
  assemble .initAbsent = some [0x03, 0] ∧
  (∀ c : AsmConfig, assemble (.init c) =
    if (c.inverse < 2 ∧ c.addrmode < 4 ∧ c.segremap < 2 ∧ c.comremap < 2 ∧ c.fademode < 4 ∧ c.zoom < 2 ∧ c.chargepump < 2) ∧
       (c.contrast < 256 ∧ c.clkdiv < 256 ∧ c.osc < 256 ∧ c.pre1 < 256 ∧ c.pre2 < 256 ∧ c.fadeint < 256 ∧ c.vcomh < 256) then
      some [BitVec.ofNat 64 (0x03 + 2 ^ 8 + c.inverse * 2 ^ 9 + c.addrmode * 2 ^ 10 + c.segremap * 2 ^ 12 +
              c.comremap * 2 ^ 13 + c.fademode * 2 ^ 14 + c.zoom * 2 ^ 16 + c.chargepump * 2 ^ 17),
            BitVec.ofNat 64 (c.contrast + c.clkdiv * 2 ^ 8 + c.osc * 2 ^ 16 + c.pre1 * 2 ^ 24 + c.pre2 * 2 ^ 32 +
              c.fadeint * 2 ^ 40 + c.vcomh * 2 ^ 48)]
    else none) ∧
  (∀ w : Nat, assemble (.word w) = if w < 2 ^ 64 then some [BitVec.ofNat 64 w] else none) ∧
  (∀ w h : Nat, 8 ≤ h → 1 ≤ w → assemble (.setAreaFull w h) = assemble (.setArea 0 (h / 8 - 1) 0 (w - 1)))

/-- The host's moves (20_memory.md R43, R44, R57; 60_exceptions.md R176). While a bus write awaits its answer, the one way an
operation is seen in flight, supplying words, admitting and withdrawing source bytes are all refused. In a legal state between
operations each is done, changes nothing but its own input, there only what it names, and leaves a legal state; that supplying
only appends is the model's choice (log entry 4). A block stuck for a second word is not in flight: the host supplies the word,
and the block is stuck for it no longer. -/
def Obligations.HostMovesOnlyBetweenOperations : Prop :=
  (∀ (s : State) (q : Seq), step s = .fault (.awaitAnswer q) →
    (∀ ws, hostSupply ws s = .refused .operationInFlight) ∧
    (∀ addr v, hostAdmit addr v s = .refused .operationInFlight) ∧
    (∀ addr, hostWithdraw addr s = .refused .operationInFlight)) ∧
  (∀ s : State, s.Inv → s.seq = .idle → (∀ q, step s ≠ .fault (.awaitAnswer q)) →
    (∀ ws, ∃ t, hostSupply ws s = .next t ∧ t = { s with ops := s.ops ++ ws } ∧ t.Inv) ∧
    (∀ addr v, ∃ t, hostAdmit addr v s = .next t ∧ t = { s with src := t.src } ∧ t.Inv ∧
      memRead t.src addr.toNat = some v ∧ ∀ a, a ≠ addr.toNat → memRead t.src a = memRead s.src a) ∧
    (∀ addr, ∃ t, hostWithdraw addr s = .next t ∧ t = { s with src := t.src } ∧ t.Inv ∧
      memRead t.src addr.toNat = none ∧ ∀ a, a ≠ addr.toNat → memRead t.src a = memRead s.src a)) ∧
  (∀ (s : State) (w1 : Word), step s = .fault .awaitSecondWord →
    ∃ t, hostSupply [w1] s = .next t ∧ t.ops[t.opc + 1]? = some w1 ∧ step t ≠ .fault .awaitSecondWord)

/-- A write that waits is lifted by the transport's answer, whichever of the operation's writes it is (20_memory.md R50,
60_exceptions.md R176): the answers before the one withheld were all given to earlier writes of the same operation, the answer
takes the withheld one's place and changes nothing else, and once no further answer is withheld the operation ends, with that
answer on that write. That the block waits in the state the operation started in is the model's choice (log entry 2). -/
def Obligations.AnAnswerLiftsTheWait : Prop :=
  ∀ (s : State) (q : Seq) (a : Answer), step s = .fault (.awaitAnswer q) →
    ∃ pre rest, s.draws = pre ++ none :: rest ∧ none ∉ pre ∧
      transportAnswersNow a s = { s with draws := pre ++ some a :: rest } ∧
      (none ∉ rest → ∃ t e, step (transportAnswersNow a s) = .next t ∧
        t.tr[s.tr.length + pre.length]? = some e ∧ e.answer = a ∧ e.addr = s.devAddr)
end

