-- ==== Sys2Proof/Laws/Memory.lean ====
section
/-! SUPPORT. The laws of byte memories: what a read gives after each operation, and that every operation keeps the
canonical form. -/

namespace Sys2Proof.Machine

@[simp] theorem Memory.read_nil (d : Option Byte) (a : Nat) : Memory.read d [] a = d := rfl

theorem Memory.read_cons (d : Option Byte) (b : Nat) (v : Byte) (m : Memory) (a : Nat) :
    Memory.read d ((b, v) :: m) a = if a = b then some v else Memory.read d m a := rfl

@[simp] theorem Memory.read_insert_same (d : Option Byte) (a : Nat) (v : Byte) (m : Memory) :
    Memory.read d (Memory.insert a v m) a = some v := by
  induction m with
  | nil => simp [Memory.insert, Memory.read_cons]
  | cons c m ih =>
    obtain ⟨b, w⟩ := c
    simp only [Memory.insert]
    split
    · simp [Memory.read_cons]
    · split
      · simp [Memory.read_cons]
      · rename_i h
        simp [Memory.read_cons, h, ih]

theorem Memory.read_insert_other (d : Option Byte) (a b : Nat) (v : Byte) (m : Memory) (h : b ≠ a) :
    Memory.read d (Memory.insert a v m) b = Memory.read d m b := by
  induction m with
  | nil => simp [Memory.insert, Memory.read_cons, h]
  | cons c m ih =>
    obtain ⟨e, w⟩ := c
    simp only [Memory.insert]
    split
    · simp [Memory.read_cons, h]
    · split
      · rename_i h2
        subst h2
        simp [Memory.read_cons, h]
      · simp [Memory.read_cons, ih]

theorem Memory.read_forget (d : Option Byte) (lo n a : Nat) (m : Memory) :
    Memory.read d (Memory.forget lo n m) a = if lo ≤ a ∧ a < lo + n then d else Memory.read d m a := by
  induction m with
  | nil => simp [Memory.forget]
  | cons c m ih =>
    obtain ⟨b, v⟩ := c
    simp only [Memory.forget] at ih ⊢
    by_cases hb : lo ≤ b ∧ b < lo + n
    · rw [List.filter_cons_of_neg (by simp [hb.1, hb.2]), ih, Memory.read_cons]
      split
      · rfl
      · rw [if_neg (by rintro rfl; contradiction)]
    · rw [List.filter_cons_of_pos (by simp; omega), Memory.read_cons, ih, Memory.read_cons]
      by_cases hab : a = b
      · subst hab
        simp [hb]
      · simp [hab]

/-- A read after a write to the same address gives the value written. -/
@[simp] theorem Memory.read_write_same (d : Option Byte) (a : Nat) (v : Byte) (m : Memory) :
    Memory.read d (Memory.write d a v m) a = some v := by
  unfold Memory.write
  split
  · rename_i h
    rw [Memory.read_forget, if_pos ⟨le_refl a, Nat.lt_succ_self a⟩, h]
  · exact Memory.read_insert_same d a v m

/-- A write leaves every other address as it was. -/
theorem Memory.read_write_other (d : Option Byte) (a b : Nat) (v : Byte) (m : Memory) (h : b ≠ a) :
    Memory.read d (Memory.write d a v m) b = Memory.read d m b := by
  unfold Memory.write
  split
  · rw [Memory.read_forget, if_neg (by omega)]
  · exact Memory.read_insert_other d a b v m h

/-- A read after a write, at every address. -/
theorem Memory.read_write (d : Option Byte) (a b : Nat) (v : Byte) (m : Memory) :
    Memory.read d (Memory.write d a v m) b = if b = a then some v else Memory.read d m b := by
  by_cases h : b = a
  · subst h
    simp
  · rw [if_neg h, Memory.read_write_other d a b v m h]

/-! ### The canonical form -/

theorem Memory.wf_cons (d : Option Byte) (a : Nat) (v : Byte) (m : Memory) :
    Memory.wf d ((a, v) :: m) = true ↔ (∀ c ∈ m, a < c.1) ∧ some v ≠ d ∧ Memory.wf d m = true := by
  simp [Memory.wf, and_assoc]

/-- The cells of an insertion are the new cell and cells that were there. -/
theorem Memory.mem_insert {a : Nat} {v : Byte} {m : Memory} {c : Host.Cell} (h : c ∈ Memory.insert a v m) :
    c = (a, v) ∨ c ∈ m := by
  induction m with
  | nil => simpa [Memory.insert] using h
  | cons e m ih =>
    obtain ⟨b, w⟩ := e
    simp only [Memory.insert] at h
    split at h
    · simpa using h
    · split at h
      · rcases List.mem_cons.mp h with h | h
        · exact Or.inl h
        · exact Or.inr (List.mem_cons_of_mem _ h)
      · rcases List.mem_cons.mp h with h | h
        · exact Or.inr (by simp [h])
        · exact (ih h).imp_right (List.mem_cons_of_mem _)

theorem Memory.wf_insert (d : Option Byte) (a : Nat) (v : Byte) (m : Memory) (hv : some v ≠ d)
    (h : Memory.wf d m = true) : Memory.wf d (Memory.insert a v m) = true := by
  induction m with
  | nil => simpa [Memory.insert, Memory.wf] using hv
  | cons e m ih =>
    obtain ⟨b, w⟩ := e
    obtain ⟨h1, h2, h3⟩ := (Memory.wf_cons d b w m).mp h
    simp only [Memory.insert]
    split
    · rename_i hab
      refine (Memory.wf_cons _ _ _ _).mpr ⟨?_, hv, h⟩
      intro c hc
      rcases List.mem_cons.mp hc with rfl | hc
      · exact hab
      · exact lt_trans hab (h1 c hc)
    · split
      · rename_i hab
        subst hab
        exact (Memory.wf_cons _ _ _ _).mpr ⟨h1, hv, h3⟩
      · refine (Memory.wf_cons _ _ _ _).mpr ⟨?_, h2, ih h3⟩
        intro c hc
        rcases Memory.mem_insert hc with rfl | hc
        · show b < a
          omega
        · exact h1 c hc

theorem Memory.wf_forget (d : Option Byte) (lo n : Nat) (m : Memory) (h : Memory.wf d m = true) :
    Memory.wf d (Memory.forget lo n m) = true := by
  induction m with
  | nil => rfl
  | cons e m ih =>
    obtain ⟨b, w⟩ := e
    obtain ⟨h1, h2, h3⟩ := (Memory.wf_cons d b w m).mp h
    simp only [Memory.forget] at ih ⊢
    rw [List.filter_cons]
    split
    · exact (Memory.wf_cons _ _ _ _).mpr ⟨fun c hc => h1 c (List.mem_of_mem_filter hc), h2, ih h3⟩
    · exact ih h3

/-- A write keeps the canonical form. -/
theorem Memory.wf_write (d : Option Byte) (a : Nat) (v : Byte) (m : Memory) (h : Memory.wf d m = true) :
    Memory.wf d (Memory.write d a v m) = true := by
  unfold Memory.write
  split
  · exact Memory.wf_forget d a 1 m h
  · rename_i hv
    exact Memory.wf_insert d a v m hv h

/-- A canonical memory reads as its default below its first listed address. -/
theorem Memory.read_below (d : Option Byte) (m : Memory) (a : Nat) (h : ∀ c ∈ m, a < c.1) : Memory.read d m a = d := by
  induction m with
  | nil => rfl
  | cons e m ih =>
    obtain ⟨b, w⟩ := e
    have : a < b := h (b, w) (by simp)
    rw [Memory.read_cons, if_neg (by omega), ih (fun c hc => h c (List.mem_cons_of_mem _ hc))]

/-- Two canonical memories that read alike are equal. -/
theorem Memory.eq_of_read (d : Option Byte) (m n : Memory) (hm : Memory.wf d m = true) (hn : Memory.wf d n = true)
    (h : ∀ a, Memory.read d m a = Memory.read d n a) : m = n := by
  induction m generalizing n with
  | nil =>
    cases n with
    | nil => rfl
    | cons e n =>
      obtain ⟨b, w⟩ := e
      have := h b
      rw [Memory.read_cons, if_pos rfl] at this
      exact absurd this.symm ((Memory.wf_cons d b w n).mp hn).2.1
  | cons e m ih =>
    obtain ⟨a, v⟩ := e
    obtain ⟨m1, m2, m3⟩ := (Memory.wf_cons d a v m).mp hm
    cases n with
    | nil =>
      have := h a
      rw [Memory.read_cons, if_pos rfl] at this
      exact absurd this m2
    | cons f n =>
      obtain ⟨b, w⟩ := f
      obtain ⟨n1, n2, n3⟩ := (Memory.wf_cons d b w n).mp hn
      have hab : a = b := by
        rcases Nat.lt_trichotomy a b with hlt | heq | hgt
        · have := h a
          rw [Memory.read_cons, if_pos rfl, Memory.read_cons, if_neg (by omega),
            Memory.read_below d n a (fun c hc => lt_trans hlt (n1 c hc))] at this
          exact absurd this m2
        · exact heq
        · have := h b
          rw [Memory.read_cons, if_neg (by omega), Memory.read_below d m b (fun c hc => lt_trans hgt (m1 c hc)),
            Memory.read_cons, if_pos rfl] at this
          exact absurd this.symm n2
      subst hab
      have hvw := h a
      rw [Memory.read_cons, if_pos rfl, Memory.read_cons, if_pos rfl] at hvw
      obtain rfl := Option.some.inj hvw
      rw [ih n m3 n3 fun x => ?_]
      by_cases hx : x = a
      · subst hx
        rw [Memory.read_below d m x m1, Memory.read_below d n x n1]
      · have := h x
        rwa [Memory.read_cons, if_neg hx, Memory.read_cons, if_neg hx] at this

/-- The cells of a memory after a write are the new cell and cells that were there. -/
theorem Memory.mem_write {d : Option Byte} {a : Nat} {v : Byte} {m : Memory} {c : Host.Cell}
    (h : c ∈ Memory.write d a v m) : c = (a, v) ∨ c ∈ m := by
  unfold Memory.write at h
  split at h
  · exact Or.inr (List.mem_of_mem_filter h)
  · exact Memory.mem_insert h

theorem Memory.mem_forget {lo n : Nat} {m : Memory} {c : Host.Cell} (h : c ∈ Memory.forget lo n m) : c ∈ m :=
  List.mem_of_mem_filter h

/-- The state after reset has its memories in canonical form. -/
theorem reset_memories_wf : Memory.wf (some 0) State.reset.fb = true ∧ Memory.wf none State.reset.src = true :=
  ⟨rfl, rfl⟩

/-! ### The fresh store -/

/-- A fresh store reads as the marker at 0 and as 0x00 elsewhere (40_lifecycle.md R80). -/
theorem read_freshFb (n j : Nat) :
    Memory.read (some 0) (freshFb n) j = if j = 0 then some Config.marker else some 0 := by
  unfold freshFb
  rw [Memory.read_forget, Memory.read_write]
  by_cases h : j = 0
  · simp [h]
  · simp [h]

theorem wf_freshFb (n : Nat) : Memory.wf (some 0) (freshFb n) = true :=
  Memory.wf_forget _ _ _ _ (Memory.wf_write _ _ _ _ rfl)

theorem mem_freshFb {n : Nat} {c : Host.Cell} (h : c ∈ freshFb n) : c = (0, Config.marker) := by
  simpa using Memory.mem_write (Memory.mem_forget h)

end Sys2Proof.Machine
end

