-- ==== Sys2Proof/Laws/State.lean ====
section
/-! SUPPORT. One lemma per field of `State` per named update. -/

namespace Sys2Proof.Machine

section
variable (c : StatusCode) (n : Nat) (s : State)
@[simp] theorem raiseStatus_opc : (raiseStatus c n s).opc = s.opc + n := rfl
@[simp] theorem raiseStatus_status : (raiseStatus c n s).status = c := rfl
@[simp] theorem raiseStatus_geomW : (raiseStatus c n s).geomW = s.geomW := rfl
@[simp] theorem raiseStatus_geomH : (raiseStatus c n s).geomH = s.geomH := rfl
@[simp] theorem raiseStatus_ready : (raiseStatus c n s).ready = s.ready := rfl
@[simp] theorem raiseStatus_devAddr : (raiseStatus c n s).devAddr = s.devAddr := rfl
@[simp] theorem raiseStatus_fb : (raiseStatus c n s).fb = s.fb := rfl
@[simp] theorem raiseStatus_seq : (raiseStatus c n s).seq = .idle := rfl
@[simp] theorem raiseStatus_tr : (raiseStatus c n s).tr = s.tr := rfl
@[simp] theorem raiseStatus_ops : (raiseStatus c n s).ops = s.ops := rfl
@[simp] theorem raiseStatus_src : (raiseStatus c n s).src = s.src := rfl
@[simp] theorem raiseStatus_draws : (raiseStatus c n s).draws = s.draws := rfl
@[simp] theorem raiseStatus_fbByte (j : Nat) : (raiseStatus c n s).fbByte j = s.fbByte j := rfl
@[simp] theorem raiseStatus_pix (j : Nat) : (raiseStatus c n s).pix j = s.pix j := rfl
@[simp] theorem raiseStatus_pixel (x r : Nat) : (raiseStatus c n s).pixel x r = s.pixel x r := rfl
@[simp] theorem raiseStatus_width : (raiseStatus c n s).width = s.width := rfl
@[simp] theorem raiseStatus_height : (raiseStatus c n s).height = s.height := rfl
@[simp] theorem raiseStatus_fbSize : (raiseStatus c n s).fbSize = s.fbSize := rfl
end

section
variable (gw gh : BitVec 16) (ga : BitVec 7) (s : State)
@[simp] theorem construct_opc : (s.construct gw gh ga).opc = s.opc := rfl
@[simp] theorem construct_status : (s.construct gw gh ga).status = s.status := rfl
@[simp] theorem construct_geomW : (s.construct gw gh ga).geomW = gw := rfl
@[simp] theorem construct_geomH : (s.construct gw gh ga).geomH = gh := rfl
@[simp] theorem construct_ready : (s.construct gw gh ga).ready = true := rfl
@[simp] theorem construct_devAddr : (s.construct gw gh ga).devAddr = ga := rfl
@[simp] theorem construct_fb : (s.construct gw gh ga).fb = freshFb (gw.toNat * gh.toNat / 8) := rfl
@[simp] theorem construct_seq : (s.construct gw gh ga).seq = s.seq := rfl
@[simp] theorem construct_tr : (s.construct gw gh ga).tr = s.tr := rfl
@[simp] theorem construct_ops : (s.construct gw gh ga).ops = s.ops := rfl
@[simp] theorem construct_src : (s.construct gw gh ga).src = s.src := rfl
@[simp] theorem construct_draws : (s.construct gw gh ga).draws = s.draws := rfl
end

section
variable (s : State)
@[simp] theorem clearPix_opc : s.clearPix.opc = s.opc := rfl
@[simp] theorem clearPix_status : s.clearPix.status = s.status := rfl
@[simp] theorem clearPix_geomW : s.clearPix.geomW = s.geomW := rfl
@[simp] theorem clearPix_geomH : s.clearPix.geomH = s.geomH := rfl
@[simp] theorem clearPix_ready : s.clearPix.ready = s.ready := rfl
@[simp] theorem clearPix_devAddr : s.clearPix.devAddr = s.devAddr := rfl
@[simp] theorem clearPix_fb : s.clearPix.fb = Memory.forget 1 s.npix s.fb := rfl
@[simp] theorem clearPix_seq : s.clearPix.seq = s.seq := rfl
@[simp] theorem clearPix_tr : s.clearPix.tr = s.tr := rfl
@[simp] theorem clearPix_ops : s.clearPix.ops = s.ops := rfl
@[simp] theorem clearPix_src : s.clearPix.src = s.src := rfl
@[simp] theorem clearPix_draws : s.clearPix.draws = s.draws := rfl
end

section
variable (b : List Byte) (a : Answer) (s : State)
@[simp] theorem logWrite_opc : (s.logWrite b a).opc = s.opc := rfl
@[simp] theorem logWrite_status : (s.logWrite b a).status = s.status := rfl
@[simp] theorem logWrite_geomW : (s.logWrite b a).geomW = s.geomW := rfl
@[simp] theorem logWrite_geomH : (s.logWrite b a).geomH = s.geomH := rfl
@[simp] theorem logWrite_ready : (s.logWrite b a).ready = s.ready := rfl
@[simp] theorem logWrite_devAddr : (s.logWrite b a).devAddr = s.devAddr := rfl
@[simp] theorem logWrite_fb : (s.logWrite b a).fb = s.fb := rfl
@[simp] theorem logWrite_seq : (s.logWrite b a).seq = s.seq := rfl
@[simp] theorem logWrite_tr : (s.logWrite b a).tr = s.tr ++ [entryOf s b a] := rfl
@[simp] theorem logWrite_ops : (s.logWrite b a).ops = s.ops := rfl
@[simp] theorem logWrite_src : (s.logWrite b a).src = s.src := rfl
@[simp] theorem logWrite_draws : (s.logWrite b a).draws = s.draws := rfl
end

end Sys2Proof.Machine
end

