-- ==== Sys2Proof/Laws/Blit.lean ====
section
/-! SUPPORT. Everything the compositor's loops can do: which bits of which bytes they write, which source bytes they read,
and where they stop (43_compositor.md R140 to R144). -/

namespace Sys2Proof.Machine

theorem getLsbD_setBit (b : Byte) (bit : Nat) (v : Bool) (k : Nat) (hb : bit < 8) :
    (setBit b bit v).getLsbD k = if k = bit then v else b.getLsbD k := by
  unfold setBit
  by_cases hk : k = bit
  · subst hk
    simp [hb]
  · by_cases h8 : k < 8
    · rcases Nat.lt_or_gt_of_ne hk with h | h
      · simp [hk, h8, h]
      · have : k - bit ≠ 0 := by omega
        simp [hk, h8, Nat.not_lt.mpr (le_of_lt h), this]
    · have : k ≥ 8 := by omega
      simp [hk, this]

theorem byteAt_putBit (n bit : Nat) (v : Bool) (fb : Memory) (j : Nat) :
    byteAt (putBit n bit v fb) j = if j = 1 + n then setBit (byteAt fb j) bit v else byteAt fb j := by
  unfold putBit
  rw [byteAt, Memory.read_write]
  split
  · rename_i h
    rw [h]
    rfl
  · rfl

/-- `n` bits put from index `1 + dst` on: exactly bit `bit` of those `n` bytes is replaced. -/
theorem getLsbD_putBits (dst bit : Nat) (b : Byte) (n : Nat) (fb : Memory) (j k : Nat) (hb : bit < 8) :
    (byteAt (putBits dst bit b n fb) j).getLsbD k =
      if k = bit ∧ 1 + dst ≤ j ∧ j < 1 + dst + n then b.getLsbD (j - 1 - dst) else (byteAt fb j).getLsbD k := by
  induction n with
  | zero => rw [if_neg (by omega)]; rfl
  | succ n ih =>
    rw [putBits, byteAt_putBit]
    by_cases hj : j = 1 + (dst + n)
    · rw [if_pos hj, getLsbD_setBit _ _ _ _ hb]
      by_cases hk : k = bit
      · rw [if_pos hk, if_pos (by omega), show j - 1 - dst = n by omega]
      · rw [if_neg hk, ih, if_neg (by simp [hk]), if_neg (by simp [hk])]
    · rw [if_neg hj, ih]
      by_cases hc : k = bit ∧ 1 + dst ≤ j ∧ j < 1 + dst + n
      · rw [if_pos hc, if_pos (by omega)]
      · rw [if_neg hc, if_neg (by omega)]

theorem wf_putBits (dst bit : Nat) (b : Byte) (n : Nat) (fb : Memory) (h : Memory.wf (some 0) fb = true) :
    Memory.wf (some 0) (putBits dst bit b n fb) = true := by
  induction n with
  | zero => exact h
  | succ n ih => exact Memory.wf_write _ _ _ _ ih

theorem mem_putBits {dst bit : Nat} {b : Byte} {n : Nat} {fb : Memory} {c : Host.Cell}
    (h : c ∈ putBits dst bit b n fb) : c ∈ fb ∨ (1 + dst ≤ c.1 ∧ c.1 < 1 + dst + n) := by
  induction n with
  | zero => exact Or.inl h
  | succ n ih =>
    rcases Memory.mem_write h with rfl | h
    · exact Or.inr ⟨by simp, by simp; omega⟩
    · exact (ih h).imp_right (by omega)

theorem srcByte_ok {src : Memory} {row byte addr : Nat} {v : Byte} (h : srcByte src row byte addr = .ok v) :
    memRead src addr = some v := by
  unfold srcByte at h
  split at h
  · rename_i b hb
    rw [hb, Except.ok.inj h]
  · cases h

theorem srcByte_error {src : Memory} {row byte addr : Nat} {e : Fault} (h : srcByte src row byte addr = .error e) :
    memRead src addr = none ∧ e = .srcFault addr (.blitAt row byte) := by
  unfold srcByte at h
  split at h
  · cases h
  · rename_i hb
    exact ⟨hb, (Except.error.inj h).symm⟩

/-- What a drawing loop does to the store: the bits of `n` pixels of one screen row, from pixel index `dst` on, become
those of the source row at `addr`; nothing else changes. -/
structure DrawnRow (src : Memory) (addr dst bit n : Nat) (fb fb' : Memory) : Prop where
  bits : ∀ j k, (byteAt fb' j).getLsbD k =
    if k = bit ∧ 1 + dst ≤ j ∧ j < 1 + dst + n then sourcePixel src addr (j - 1 - dst) else (byteAt fb j).getLsbD k
  canonical : Memory.wf (some 0) fb = true → Memory.wf (some 0) fb' = true
  cells : ∀ c ∈ fb', c ∈ fb ∨ (1 + dst ≤ c.1 ∧ c.1 < 1 + dst + n)

/-- Pixels of one more source byte after `8 * b` of them. -/
theorem DrawnRow.putByte {src : Memory} {addr dst bit b n : Nat} {fb fb' : Memory} {v : Byte}
    (h : DrawnRow src addr dst bit (8 * b) fb fb') (hv : memRead src (addr + b) = some v) (hn : n ≤ 8) (hb : bit < 8) :
    DrawnRow src addr dst bit (8 * b + n) fb (putBits (dst + 8 * b) bit v n fb') := by
  refine ⟨fun j k => ?_, fun hw => wf_putBits _ _ _ _ _ (h.canonical hw), fun c hc => ?_⟩
  · rw [getLsbD_putBits _ _ _ _ _ _ _ hb]
    by_cases hc : k = bit ∧ 1 + (dst + 8 * b) ≤ j ∧ j < 1 + (dst + 8 * b) + n
    · rw [if_pos hc, if_pos (by omega), sourcePixel]
      have hq : (j - 1 - dst) / 8 = b := by omega
      have hr : (j - 1 - dst) % 8 = j - 1 - (dst + 8 * b) := by omega
      rw [hq, hr, hv]
      rfl
    · rw [if_neg hc, h.bits]
      by_cases hd : k = bit ∧ 1 + dst ≤ j ∧ j < 1 + dst + 8 * b
      · rw [if_pos hd, if_pos (by omega)]
      · rw [if_neg hd, if_neg (by omega)]
  · rcases mem_putBits hc with hc | hc
    · exact (h.cells c hc).imp_right (by omega)
    · exact Or.inr (by omega)

theorem blitFull_ok {src : Memory} {row addr dst bit n : Nat} {fb fb' : Memory} (hb : bit < 8)
    (h : blitFull src row addr dst bit n fb = .ok fb') :
    DrawnRow src addr dst bit (8 * n) fb fb' ∧ ∀ b < n, (memRead src (addr + b)).isSome = true := by
  induction n generalizing fb' with
  | zero =>
    obtain rfl := Except.ok.inj h
    exact ⟨⟨fun j k => by rw [if_neg (by omega)], id, fun c hc => Or.inl hc⟩, by simp⟩
  | succ n ih =>
    simp only [blitFull] at h
    split at h
    · cases h
    · rename_i fb1 h1
      split at h
      · cases h
      · rename_i v hv
        obtain rfl := Except.ok.inj h
        obtain ⟨hd, ha⟩ := ih h1
        refine ⟨by simpa [Nat.mul_succ] using hd.putByte (srcByte_ok hv) (le_refl 8) hb, fun b hlt => ?_⟩
        rcases Nat.lt_succ_iff_lt_or_eq.mp hlt with hlt | rfl
        · exact ha b hlt
        · simp [srcByte_ok hv]

theorem blitFull_error {src : Memory} {row addr dst bit n : Nat} {fb : Memory} {e : Fault}
    (h : blitFull src row addr dst bit n fb = .error e) :
    ∃ b < n, memRead src (addr + b) = none ∧ e = .srcFault (addr + b) (.blitAt row b) := by
  induction n with
  | zero => cases h
  | succ n ih =>
    simp only [blitFull] at h
    split at h
    · rename_i e1 h1
      obtain rfl := Except.error.inj h
      obtain ⟨b, hlt, hb⟩ := ih h1
      exact ⟨b, by omega, hb⟩
    · split at h
      · rename_i e1 h1
        obtain rfl := Except.error.inj h
        exact ⟨n, by omega, srcByte_error h1⟩
      · cases h

/-- A row that is drawn: its `dw` pixels, from `ceil(dw / 8)` source bytes, every one of them admitted (R144). -/
theorem blitRow_ok {src : Memory} {row addr dst bit dw : Nat} {fb fb' : Memory} (hb : bit < 8)
    (h : blitRow src row addr dst bit dw fb = .ok fb') :
    DrawnRow src addr dst bit dw fb fb' ∧ ∀ b < (dw + 7) / 8, (memRead src (addr + b)).isSome = true := by
  unfold blitRow at h
  split at h
  · cases h
  · rename_i fb1 h1
    obtain ⟨hd, ha⟩ := blitFull_ok hb h1
    split at h
    · rename_i ht
      obtain rfl := Except.ok.inj h
      have he : 8 * (dw / 8) = dw := by omega
      rw [he] at hd
      exact ⟨hd, fun b hlt => ha b (by omega)⟩
    · rename_i ht
      split at h
      · cases h
      · rename_i v hv
        obtain rfl := Except.ok.inj h
        have hp := hd.putByte (srcByte_ok hv) (n := dw % 8) (by omega) hb
        have he : 8 * (dw / 8) + dw % 8 = dw := by omega
        rw [he] at hp
        refine ⟨hp, fun b hlt => ?_⟩
        rcases Nat.lt_or_ge b (dw / 8) with hlt2 | hge
        · exact ha b hlt2
        · rw [show b = dw / 8 by omega, srcByte_ok hv]
          rfl

theorem blitRow_error {src : Memory} {row addr dst bit dw : Nat} {fb : Memory} {e : Fault}
    (h : blitRow src row addr dst bit dw fb = .error e) :
    ∃ b < (dw + 7) / 8, memRead src (addr + b) = none ∧ e = .srcFault (addr + b) (.blitAt row b) := by
  unfold blitRow at h
  split at h
  · rename_i e1 h1
    obtain rfl := Except.error.inj h
    obtain ⟨b, hlt, hb⟩ := blitFull_error h1
    exact ⟨b, by omega, hb⟩
  · split at h
    · cases h
    · split at h
      · rename_i e1 h1
        obtain rfl := Except.error.inj h
        exact ⟨dw / 8, by omega, srcByte_error h1⟩
      · cases h

/-- A pixel index and column lie in the span of one row exactly when the page is that row's page and the column is in
the rectangle. -/
theorem pixel_in_span {w x dw p q c : Nat} (hx : x + dw ≤ w) (hc : c < w) :
    (1 + (q * w + x) ≤ 1 + (p * w + c) ∧ 1 + (p * w + c) < 1 + (q * w + x) + dw) ↔ p = q ∧ x ≤ c ∧ c < x + dw := by
  constructor
  · rintro ⟨h1, h2⟩
    have hpq : p < q + 1 := by
      apply Nat.lt_of_mul_lt_mul_right (a := w)
      rw [Nat.add_mul]
      omega
    have hqp : q < p + 1 := by
      apply Nat.lt_of_mul_lt_mul_right (a := w)
      rw [Nat.add_mul]
      omega
    have : p = q := by omega
    subst this
    omega
  · rintro ⟨rfl, h1, h2⟩
    omega

/-- What the loop over the first `n` rows of a job does to the store. -/
structure DrawnRows (src : Memory) (j : BlitJob) (n : Nat) (fb fb' : Memory) : Prop where
  /-- Pixel by pixel, on a panel as wide as the rectangle needs: inside the rectangle the source pixel, outside it the
  pixel that was there (R142, R143, R145). -/
  pixels : j.x + j.dw ≤ j.w → ∀ c r, c < j.w →
    (byteAt fb' (1 + (r / 8 * j.w + c))).getLsbD (r % 8) =
      if (j.y ≤ r ∧ r < j.y + n) ∧ j.x ≤ c ∧ c < j.x + j.dw then
        sourcePixel src (j.base + (r - j.y) * j.stride) (c - j.x)
      else (byteAt fb (1 + (r / 8 * j.w + c))).getLsbD (r % 8)
  /-- The marker byte stays (R140). -/
  marker : byteAt fb' 0 = byteAt fb 0
  canonical : Memory.wf (some 0) fb = true → Memory.wf (some 0) fb' = true
  cells : ∀ c ∈ fb', c ∈ fb ∨ ∃ i < n, 1 + j.dst i ≤ c.1 ∧ c.1 < 1 + j.dst i + j.dw
  /-- Every source byte read is admitted (R144). -/
  admitted : ∀ i < n, ∀ b < (j.dw + 7) / 8, (memRead src (j.base + i * j.stride + b)).isSome = true

theorem blitRows_ok {src : Memory} {j : BlitJob} {n : Nat} {fb fb' : Memory} (h : blitRows src j n fb = .ok fb') :
    DrawnRows src j n fb fb' := by
  induction n generalizing fb' with
  | zero =>
    obtain rfl := Except.ok.inj h
    exact ⟨fun _ c r _ => by rw [if_neg (by omega)], rfl, id, fun c hc => Or.inl hc, by simp⟩
  | succ n ih =>
    simp only [blitRows] at h
    split at h
    · cases h
    · rename_i fb1 h1
      obtain hd := ih h1
      have h8 : (j.y + n) % Config.pageRows < 8 := Nat.mod_lt _ (by decide)
      obtain ⟨hr, ha⟩ := blitRow_ok h8 h
      refine ⟨fun hx c r hc => ?_, ?_, fun hw => hr.canonical (hd.canonical hw), fun c hc => ?_, fun i hi b hb => ?_⟩
      · rw [hr.bits, hd.pixels hx c r hc]
        have hspan : (r % 8 = (j.y + n) % Config.pageRows ∧ 1 + j.dst n ≤ 1 + (r / 8 * j.w + c) ∧
            1 + (r / 8 * j.w + c) < 1 + j.dst n + j.dw) ↔ r = j.y + n ∧ j.x ≤ c ∧ c < j.x + j.dw := by
          have := pixel_in_span (p := r / 8) (q := (j.y + n) / 8) hx hc
          simp only [BlitJob.dst, Config.pageRows]
          omega
        by_cases hrow : r = j.y + n ∧ j.x ≤ c ∧ c < j.x + j.dw
        · rw [if_pos (hspan.mpr hrow), if_pos ⟨by omega, hrow.2⟩]
          obtain ⟨rfl, hcol⟩ := hrow
          rw [show j.y + n - j.y = n by omega,
            show 1 + ((j.y + n) / 8 * j.w + c) - 1 - j.dst n = c - j.x by simp only [BlitJob.dst, Config.pageRows]; omega]
        · rw [if_neg (fun hh => hrow (hspan.mp hh))]
          by_cases hin : (j.y ≤ r ∧ r < j.y + n) ∧ j.x ≤ c ∧ c < j.x + j.dw
          · rw [if_pos hin, if_pos (by omega)]
          · rw [if_neg hin, if_neg (by omega)]
      · rw [← hd.marker]
        apply BitVec.eq_of_getLsbD_eq
        intro k _
        rw [hr.bits, if_neg (by omega)]
      · rcases hr.cells c hc with hc | hc
        · rcases hd.cells c hc with hc | ⟨i, hi, hc⟩
          · exact Or.inl hc
          · exact Or.inr ⟨i, by omega, hc⟩
        · exact Or.inr ⟨n, by omega, hc⟩
      · rcases Nat.lt_succ_iff_lt_or_eq.mp hi with hi | rfl
        · exact hd.admitted i hi b hb
        · exact ha b hb

/-- The loop stops only at a source byte that is not admitted, and says which (20_memory.md R43). -/
theorem blitRows_error {src : Memory} {j : BlitJob} {n : Nat} {fb : Memory} {e : Fault}
    (h : blitRows src j n fb = .error e) :
    ∃ i < n, ∃ b < (j.dw + 7) / 8, memRead src (j.base + i * j.stride + b) = none ∧
      e = .srcFault (j.base + i * j.stride + b) (.blitAt i b) := by
  induction n with
  | zero => cases h
  | succ n ih =>
    simp only [blitRows] at h
    split at h
    · rename_i e1 h1
      obtain rfl := Except.error.inj h
      obtain ⟨i, hi, hb⟩ := ih h1
      exact ⟨i, by omega, hb⟩
    · obtain ⟨b, hb⟩ := blitRow_error h
      exact ⟨n, by omega, b, hb⟩

/-- The loop ends exactly when every source byte it reads is admitted (R144). -/
theorem blitRows_admitted {src : Memory} {j : BlitJob} {n : Nat} (fb : Memory)
    (h : ∀ i < n, ∀ b < (j.dw + 7) / 8, (memRead src (j.base + i * j.stride + b)).isSome = true) :
    ∃ fb', blitRows src j n fb = .ok fb' := by
  cases hr : blitRows src j n fb with
  | ok fb' => exact ⟨fb', rfl⟩
  | error e =>
    obtain ⟨i, hi, b, hb, hn, -⟩ := blitRows_error hr
    have := h i hi b hb
    rw [hn] at this
    cases this

/-- What a composite can do. -/
theorem runBlit_next {j : BlitJob} {s t : State} (h : runBlit j s = .next t) :
    s.fbHolds j.lastIndex = true ∧ ∃ fb', blitRows s.src j j.dh s.fb = .ok fb' ∧ t = raiseStatus .ok 2 { s with fb := fb' } := by
  unfold runBlit at h
  split at h
  · rename_i hh
    split at h
    · cases h
    · rename_i fb' hr
      exact ⟨hh, fb', hr, (Host.Outcome.next.inj h).symm⟩
  · cases h

end Sys2Proof.Machine
end

