-- ==== Sys2Proof/Laws/Bus.lean ====
section
/-! SUPPORT. Everything a bus write, a run of bus writes, and a single controller command can do. -/

namespace Sys2Proof.Machine

theorem SameBlock.refl (s : State) : SameBlock s s := ⟨rfl, rfl, rfl, rfl, rfl, rfl, rfl, rfl, rfl⟩

theorem SameBlock.of_seq {s t : State} {q : Seq} (h : SameBlock { s with seq := q } t) : SameBlock s t :=
  ⟨h.opc, h.status, h.geomW, h.geomH, h.ready, h.devAddr, h.fb, h.ops, h.src⟩

theorem SameBlock.trans {s t u : State} (h : SameBlock s t) (k : SameBlock t u) : SameBlock s u :=
  ⟨k.opc.trans h.opc, k.status.trans h.status, k.geomW.trans h.geomW, k.geomH.trans h.geomH,
    k.ready.trans h.ready, k.devAddr.trans h.devAddr, k.fb.trans h.fb, k.ops.trans h.ops, k.src.trans h.src⟩

/-- A bus write appends one entry with its answer and changes nothing else but the answers to come. -/
theorem busWrite_some {bytes : List Byte} {s t : State} {a : Answer} (h : busWrite bytes s = some (a, t)) :
    SameBlock s t ∧ t.seq = s.seq ∧ t.tr = s.tr ++ [entryOf s bytes a] ∧
      ((s.draws = [] ∧ a = freeAnswer bytes s ∧ t.draws = []) ∨ s.draws = some a :: t.draws) := by
  unfold busWrite at h
  split at h
  · rename_i hd
    obtain ⟨rfl, rfl⟩ := Prod.mk.inj (Option.some.inj h)
    exact ⟨⟨rfl, rfl, rfl, rfl, rfl, rfl, rfl, rfl, rfl⟩, rfl, rfl, Or.inl ⟨hd, rfl, hd⟩⟩
  · cases h
  · rename_i hd
    obtain ⟨rfl, rfl⟩ := Prod.mk.inj (Option.some.inj h)
    exact ⟨⟨rfl, rfl, rfl, rfl, rfl, rfl, rfl, rfl, rfl⟩, rfl, rfl, Or.inr hd⟩

/-- A bus write waits exactly when the transport's next answer is none. -/
theorem busWrite_none (bytes : List Byte) (s : State) : busWrite bytes s = none ↔ ∃ ds, s.draws = none :: ds := by
  unfold busWrite
  split <;> simp_all

theorem busWrite_draw (bytes : List Byte) (s : State) (a : Answer) (ds : List (Option Answer))
    (h : s.draws = some a :: ds) :
    busWrite bytes s = some (a, { s with tr := s.tr ++ [entryOf s bytes a], draws := ds }) := by
  unfold busWrite
  rw [h]
  rfl

theorem acked_iff (bytes : List Byte) (a : Answer) : acked bytes a = true ↔ a = .ack bytes.length := by
  simp [acked]

/-- A run of writes that ends well: every write is in the transcript, in order, fully acknowledged. -/
theorem emitAll_done {ws : List (Seq × List Byte)} {s t : State} (h : emitAll ws s = .done t) :
    SameBlock s t ∧ t.tr = s.tr ++ ws.map (fun w => ackedEntry s w.2) := by
  induction ws generalizing s with
  | nil =>
    obtain rfl := Emitted.done.inj h
    exact ⟨.refl _, by simp⟩
  | cons w ws ih =>
    obtain ⟨q, bytes⟩ := w
    simp only [emitAll] at h
    split at h
    · cases h
    · rename_i a s' hw
      obtain ⟨h1, -, h3, -⟩ := busWrite_some hw
      split at h
      · rename_i hack
        obtain ⟨k1, k2⟩ := ih h
        have hs : SameBlock s s' := h1.of_seq
        refine ⟨hs.trans k1, ?_⟩
        rw [k2, h3, (acked_iff bytes a).mp hack]
        simp [ackedEntry, entryOf, hs.devAddr]
      · cases h

/-- A run of writes that fails: the writes before the failing one are in the transcript fully acknowledged, then the
failing one with its answer, and none after it. -/
theorem emitAll_failed {ws : List (Seq × List Byte)} {s t : State} (h : emitAll ws s = .failed t) :
    SameBlock s t ∧ ∃ pre w post a, ws = pre ++ w :: post ∧ acked w.2 a = false ∧
      t.tr = s.tr ++ pre.map (fun v => ackedEntry s v.2) ++ [entryOf s w.2 a] := by
  induction ws generalizing s with
  | nil => cases h
  | cons w ws ih =>
    obtain ⟨q, bytes⟩ := w
    simp only [emitAll] at h
    split at h
    · cases h
    · rename_i a s' hw
      obtain ⟨h1, -, h3, -⟩ := busWrite_some hw
      have hs : SameBlock s s' := h1.of_seq
      split at h
      · rename_i hack
        obtain ⟨k1, pre, w, post, b, e1, e2, e3⟩ := ih h
        refine ⟨hs.trans k1, (q, bytes) :: pre, w, post, b, by rw [e1]; rfl, e2, ?_⟩
        rw [e3, h3, (acked_iff bytes a).mp hack]
        simp [ackedEntry, entryOf, hs.devAddr]
      · rename_i hack
        obtain rfl := Emitted.failed.inj h
        exact ⟨hs, [], (q, bytes), ws, a, rfl, by simpa using hack, by rw [h3]; simp [entryOf]⟩

/-- A run of writes waits at a write of its own whose answer is withheld, every earlier write of the run having been
acknowledged in full by a scheduled answer. -/
theorem emitAll_silent {ws : List (Seq × List Byte)} {s : State} {q : Seq} (h : emitAll ws s = .silent q) :
    ∃ pre w post rest, ws = pre ++ w :: post ∧ w.1 = q ∧ s.draws = ackAll pre ++ none :: rest := by
  induction ws generalizing s with
  | nil => cases h
  | cons w ws ih =>
    obtain ⟨q', bytes⟩ := w
    simp only [emitAll] at h
    split at h
    · rename_i hw
      obtain ⟨ds, hd⟩ := (busWrite_none _ _).mp hw
      exact ⟨[], (q', bytes), ws, ds, rfl, Emitted.silent.inj h, hd⟩
    · rename_i a s' hw
      obtain ⟨-, -, -, h4⟩ := busWrite_some hw
      split at h
      · rename_i hack
        obtain ⟨pre, w, post, rest, rfl, hq, hd⟩ := ih h
        rcases h4 with ⟨-, -, h5⟩ | h5
        · simp [h5] at hd
        · refine ⟨(q', bytes) :: pre, w, post, rest, rfl, hq, ?_⟩
          rw [show s.draws = some a :: s'.draws from h5, hd, (acked_iff bytes a).mp hack]
          rfl
      · cases h

theorem none_not_mem_ackAll (ws : List (Seq × List Byte)) : none ∉ ackAll ws := by simp [ackAll]

/-- A run of writes whose answers are scheduled as full acknowledgements ends well. -/
theorem emitAll_ackAll (ws : List (Seq × List Byte)) (s : State) (rest : List (Option Answer))
    (h : s.draws = ackAll ws ++ rest) :
    ∃ q, emitAll ws s =
      .done { s with seq := q, tr := s.tr ++ ws.map (fun w => ackedEntry s w.2), draws := rest } := by
  induction ws generalizing s with
  | nil => exact ⟨s.seq, by simp [emitAll, ackAll] at h ⊢; simp [← h]⟩
  | cons w ws ih =>
    obtain ⟨q, bytes⟩ := w
    simp only [emitAll]
    rw [busWrite_draw bytes { s with seq := q } (.ack bytes.length) (ackAll ws ++ rest) (by simpa [ackAll] using h)]
    simp only [acked, decide_true, if_true]
    obtain ⟨q', hq⟩ := ih { s with
      seq := q, tr := s.tr ++ [entryOf { s with seq := q } bytes (.ack bytes.length)], draws := ackAll ws ++ rest } rfl
    refine ⟨q', ?_⟩
    rw [hq]
    simp [ackedEntry, entryOf]

/-- An operation whose writes are all scheduled to be acknowledged in full ends `OK`, its writes in the transcript. -/
theorem finishEmitted_ackAll (len : Nat) (ws : List (Seq × List Byte)) (s : State) (rest : List (Option Answer))
    (h : s.draws = ackAll ws ++ rest) :
    finishEmitted len (emitAll ws s) =
      .next (raiseStatus .ok len
        { s with tr := s.tr ++ ws.map (fun w => ackedEntry s w.2), draws := rest }) := by
  obtain ⟨q, hq⟩ := emitAll_ackAll ws s rest h
  rw [hq]
  rfl

/-- What an operation that writes the bus ends with: `OK` after every write, `TransportFailure` after the first failed
one, or a wait for the transport; in a next state the block is as it was but for status, `opc` and transcript. -/
theorem finishEmitted_next {len : Nat} {ws : List (Seq × List Byte)} {s t : State}
    (h : finishEmitted len (emitAll ws s) = .next t) :
    t.opc = s.opc + len ∧ t.geomW = s.geomW ∧ t.geomH = s.geomH ∧ t.ready = s.ready ∧ t.devAddr = s.devAddr ∧
      t.fb = s.fb ∧ t.ops = s.ops ∧ t.src = s.src ∧ t.seq = .idle ∧
      ((t.status = .ok ∧ t.tr = s.tr ++ ws.map (fun w => ackedEntry s w.2)) ∨
       (t.status = .transportFailure ∧ ∃ pre w post a, ws = pre ++ w :: post ∧ acked w.2 a = false ∧
          t.tr = s.tr ++ pre.map (fun v => ackedEntry s v.2) ++ [entryOf s w.2 a])) := by
  cases he : emitAll ws s with
  | done u =>
    rw [he] at h
    obtain rfl := Host.Outcome.next.inj h
    obtain ⟨b, htr⟩ := emitAll_done he
    exact ⟨by simp [b.opc], b.geomW, b.geomH, b.ready, b.devAddr, b.fb, b.ops, b.src, rfl, Or.inl ⟨rfl, htr⟩⟩
  | failed u =>
    rw [he] at h
    obtain rfl := Host.Outcome.next.inj h
    obtain ⟨b, hf⟩ := emitAll_failed he
    exact ⟨by simp [b.opc], b.geomW, b.geomH, b.ready, b.devAddr, b.fb, b.ops, b.src, rfl, Or.inr ⟨rfl, hf⟩⟩
  | silent q =>
    rw [he] at h
    cases h

theorem finishEmitted_fault {len : Nat} {ws : List (Seq × List Byte)} {s : State} {f : Fault}
    (h : finishEmitted len (emitAll ws s) = .fault f) :
    ∃ pre w post rest, ws = pre ++ w :: post ∧ f = .awaitAnswer w.1 ∧ s.draws = ackAll pre ++ none :: rest := by
  cases he : emitAll ws s with
  | done u => rw [he] at h; cases h
  | failed u => rw [he] at h; cases h
  | silent q =>
    rw [he] at h
    obtain rfl := Host.Outcome.fault.inj h
    obtain ⟨pre, w, post, rest, h1, rfl, h3⟩ := emitAll_silent he
    exact ⟨pre, w, post, rest, h1, rfl, h3⟩

theorem finishEmitted_not_refused (len : Nat) (e : Emitted) (r : Refusal) : finishEmitted len e ≠ .refused r := by
  cases e <;> simp [finishEmitted]

/-- A controller command puts one command write on the bus and changes nothing else but the staged sequence and the
answers to come. -/
theorem sendCommand_next {i : Instr} {s t : State} (h : sendCommand i s = .next t) :
    SameBlock s t ∧ ∃ a, t.tr = s.tr ++ [entryOf s (commandWrite [i]) a] ∧
      t.seq = s.seq.afterWrite (encodeCommand i).length (acked (commandWrite [i]) a) ∧
      ((s.draws = [] ∧ a = freeAnswer (commandWrite [i]) s ∧ t.draws = []) ∨ s.draws = some a :: t.draws) := by
  unfold sendCommand at h
  split at h
  · cases h
  · rename_i a s' hw
    obtain rfl := Host.Outcome.next.inj h
    obtain ⟨b, -, h3, h4⟩ := busWrite_some hw
    exact ⟨⟨b.opc, b.status, b.geomW, b.geomH, b.ready, b.devAddr, b.fb, b.ops, b.src⟩, a, h3, rfl, h4⟩

theorem sendCommand_draw (i : Instr) (s : State) (a : Answer) (ds : List (Option Answer))
    (h : s.draws = some a :: ds) :
    sendCommand i s = .next { s with
      tr := s.tr ++ [entryOf s (commandWrite [i]) a], draws := ds,
      seq := s.seq.afterWrite (encodeCommand i).length (acked (commandWrite [i]) a) } := by
  unfold sendCommand
  rw [busWrite_draw _ _ _ _ h]

/-- The staged sequence after a command is a staged sequence or nothing. -/
theorem afterWrite_quiescent (n : Nat) (ok : Bool) (q : Seq) :
    q.afterWrite n ok = .idle ∨ ∃ staged, q.afterWrite n ok = .command staged := by
  cases ok with
  | false => exact Or.inl rfl
  | true =>
    cases q with
    | command staged =>
      simp only [Seq.afterWrite, if_true, Seq.sent]
      split
      · exact Or.inl rfl
      · exact Or.inr ⟨_, rfl⟩
    | idle => exact Or.inl rfl
    | initSeq l => exact Or.inl rfl
    | areaAt p => exact Or.inl rfl
    | showAt p q => exact Or.inl rfl
    | blitAt r b => exact Or.inl rfl

end Sys2Proof.Machine
end

