-- ==== Sys2Proof/Laws/Host.lean ====
section
/-! SUPPORT. Everything the host's and the transport's moves can do. -/

namespace Sys2Proof.Machine

/-- The block waits at `q` exactly when its step stops there for the transport. -/
theorem State.awaits_iff (s : State) (q : Seq) : s.awaits = some q ↔ step s = .fault (.awaitAnswer q) := by
  unfold State.awaits
  split <;> simp_all

/-- A waiting block is in flight. -/
theorem State.inFlight_of_awaits {s : State} {q : Seq} (h : step s = .fault (.awaitAnswer q)) : s.inFlight = true := by
  have h' := (s.awaits_iff q).mpr h
  unfold State.inFlight
  split <;> simp [h']

/-- Between operations and not waiting, nothing is in flight. -/
theorem State.not_inFlight {s : State} (hs : s.seq = .idle) (h : ∀ q, step s ≠ .fault (.awaitAnswer q)) :
    s.inFlight = false := by
  unfold State.inFlight
  rw [hs]
  cases hq : s.awaits with
  | none => rfl
  | some q => exact absurd ((s.awaits_iff q).mp hq) (h q)

/-- A host move is done as asked, or refused because an operation is in flight. -/
theorem betweenOperations_cases (s t : State) :
    (s.inFlight = false ∧ betweenOperations s t = .next t) ∨
      (s.inFlight = true ∧ betweenOperations s t = .refused .operationInFlight) := by
  unfold betweenOperations
  cases s.inFlight <;> simp

theorem betweenOperations_next {s t u : State} (h : betweenOperations s t = .next u) : s.inFlight = false ∧ u = t := by
  obtain ⟨hf, hb⟩ | ⟨-, hb⟩ := betweenOperations_cases s t
  · exact ⟨hf, (Host.Outcome.next.inj (hb.symm.trans h)).symm⟩
  · cases hb.symm.trans h

/-- A host read answers what it would, or is refused because an operation is in flight. -/
theorem readBetweenOperations_cases {α : Type} (s : State) (r : Except ReadStop α) :
    (s.inFlight = false ∧ readBetweenOperations s r = r) ∨
      (s.inFlight = true ∧ readBetweenOperations s r = .error (.refused .operationInFlight)) := by
  unfold readBetweenOperations
  cases s.inFlight <;> simp

/-- Between operations and not waiting, a host read answers what it would. -/
theorem readBetweenOperations_idle {α : Type} {s : State} (r : Except ReadStop α) (hs : s.seq = .idle)
    (h : ∀ q, step s ≠ .fault (.awaitAnswer q)) : readBetweenOperations s r = r := by
  simp [readBetweenOperations, State.not_inFlight hs h]

/-- While a write awaits its answer, a host read is refused. -/
theorem readBetweenOperations_awaits {α : Type} {s : State} {q : Seq} (r : Except ReadStop α)
    (h : step s = .fault (.awaitAnswer q)) : readBetweenOperations s r = .error (.refused .operationInFlight) := by
  simp [readBetweenOperations, State.inFlight_of_awaits h]

/-- The first withheld answer is the one given. -/
theorem answerFirst_eq (a : Answer) (pre rest : List (Option Answer)) (h : none ∉ pre) :
    answerFirst a (pre ++ none :: rest) = pre ++ some a :: rest := by
  induction pre with
  | nil => rfl
  | cons b pre ih =>
    cases b with
    | none => simp at h
    | some b => simp [answerFirst, ih (fun hm => h (List.mem_cons_of_mem _ hm))]

/-- Answering a waiting block puts the answer in the place of the first withheld one and changes nothing else. -/
theorem transportAnswersNow_eq {s : State} {q : Seq} (a : Answer) (pre rest : List (Option Answer))
    (h : step s = .fault (.awaitAnswer q)) (hd : s.draws = pre ++ none :: rest) (hn : none ∉ pre) :
    transportAnswersNow a s = { s with draws := pre ++ some a :: rest } := by
  unfold transportAnswersNow
  rw [(s.awaits_iff q).mpr h]
  simp only [hd, answerFirst_eq a pre rest hn]

/-- With no answer withheld a run of writes ends, and its transcript keeps what stood in it before. -/
theorem emitAll_ends (ws : List (Seq × List Byte)) (s : State) (h : none ∉ s.draws) :
    ∃ t es, (emitAll ws s = .done t ∨ emitAll ws s = .failed t) ∧ t.tr = s.tr ++ es := by
  cases he : emitAll ws s with
  | done t => exact ⟨t, _, Or.inl rfl, (emitAll_done he).2⟩
  | failed t =>
    obtain ⟨-, pre, w, post, b, -, -, ht⟩ := emitAll_failed he
    exact ⟨t, _, Or.inr rfl, by rw [ht, List.append_assoc]⟩
  | silent q =>
    obtain ⟨pre, w, post, rest, -, -, hd⟩ := emitAll_silent he
    exact absurd (by rw [hd]; simp) h

/-- A run of writes whose first `pre.length` are acknowledged in full and whose next is answered `a`, none withheld after it,
ends with that answer on that write. -/
theorem emitAll_answered (pre : List (Seq × List Byte)) (w : Seq × List Byte) (post : List (Seq × List Byte)) (s : State)
    (a : Answer) (rest : List (Option Answer)) (hd : s.draws = ackAll pre ++ some a :: rest) (hr : none ∉ rest) :
    ∃ t, (emitAll (pre ++ w :: post) s = .done t ∨ emitAll (pre ++ w :: post) s = .failed t) ∧
      t.tr[s.tr.length + pre.length]? = some (entryOf s w.2 a) := by
  induction pre generalizing s with
  | nil =>
    obtain ⟨q, bytes⟩ := w
    simp only [List.nil_append, emitAll]
    rw [busWrite_draw bytes { s with seq := q } a rest hd]
    by_cases hack : acked bytes a = true
    · obtain ⟨t, es, he, ht⟩ := emitAll_ends post
        { s with seq := q, tr := s.tr ++ [entryOf { s with seq := q } bytes a], draws := rest } hr
      exact ⟨t, by simpa [hack] using he, by rw [ht]; simp [entryOf]⟩
    · refine ⟨{ s with seq := q, tr := s.tr ++ [entryOf { s with seq := q } bytes a], draws := rest }, Or.inr ?_, ?_⟩
      · simp [hack]
      · simp [entryOf]
  | cons v pre ih =>
    obtain ⟨q, bytes⟩ := v
    simp only [List.cons_append, emitAll]
    rw [busWrite_draw bytes { s with seq := q } (.ack bytes.length) (ackAll pre ++ some a :: rest) (by simpa [ackAll] using hd)]
    obtain ⟨t, he, ht⟩ := ih { s with
      seq := q, tr := s.tr ++ [entryOf { s with seq := q } bytes (.ack bytes.length)],
      draws := ackAll pre ++ some a :: rest } rfl
    refine ⟨t, by simpa [acked] using he, ?_⟩
    have hl : s.tr.length + ((q, bytes) :: pre).length =
        (s.tr ++ [entryOf { s with seq := q } bytes (.ack bytes.length)]).length + pre.length := by
      simp
      omega
    rw [hl]
    exact ht

end Sys2Proof.Machine
end

