-- ==== Sys2Proof/Laws/PerInstr.lean ====
section
/-! SUPPORT. Lemmas said once per instruction. The family `TableRow` says that an instruction's code has the length, the fixed
bits and the reserved zeros of its row of spec/opcode_table.json, for every value of its operands. -/

namespace Sys2Proof.Laws.TableRow

/-- A row of the opcode table: `mask` and `match` of the first unit (a word of a host operation, a byte of a controller
command), `w1_mask` of the second word, and the number of units. -/
structure Row where
  mask : Word
  bits : Word
  mask1 : Word
  units : Nat
  deriving DecidableEq, Repr

/-- The row of an instruction, as spec/opcode_table.json gives it. -/
def row : Instr → Row
  | .geom _ _ _ => ⟨0xFFFF8000000000FF, 0x0000000000000001, 0, 1⟩
  | .release => ⟨0xFFFFFFFFFFFFFFFF, 0x0000000000000002, 0, 1⟩
  | .init _ _ => ⟨0xFFFFFFFFFFFC00FF, 0x0000000000000003, 0xFF00000000000000, 2⟩
  | .clear => ⟨0xFFFFFFFFFFFFFFFF, 0x0000000000000004, 0, 1⟩
  | .setArea _ _ _ _ => ⟨0xFFFFFF00000000FF, 0x0000000000000005, 0, 1⟩
  | .blit _ _ _ _ _ _ _ => ⟨0xFFFFFC00000000FF, 0x0000000000000006, 0, 2⟩
  | .showFrame => ⟨0xFFFFFFFFFFFFFFFF, 0x0000000000000007, 0, 1⟩
  | .displayOff => ⟨0xFF, 0xAE, 0, 1⟩
  | .displayOn => ⟨0xFF, 0xAF, 0, 1⟩
  | .setComScan _ => ⟨0xF7, 0xC0, 0, 1⟩
  | .setMux _ => ⟨0xFF, 0xA8, 0, 2⟩
  | .setClkDiv _ _ => ⟨0xFF, 0xD5, 0, 2⟩
  | .setNormalInverse _ => ⟨0xFE, 0xA6, 0, 1⟩
  | .entireDisplayResume => ⟨0xFF, 0xA4, 0, 1⟩
  | .setStartLine _ => ⟨0xC0, 0x40, 0, 1⟩
  | .setContrast _ => ⟨0xFF, 0x81, 0, 2⟩
  | .setFade _ _ => ⟨0xFF, 0x23, 0, 2⟩
  | .setZoom _ => ⟨0xFF, 0xD6, 0, 2⟩
  | .setDisplayOffset _ => ⟨0xFF, 0xD3, 0, 2⟩
  | .setAddrMode _ => ⟨0xFF, 0x20, 0, 2⟩
  | .setPrecharge _ _ => ⟨0xFF, 0xD9, 0, 2⟩
  | .setVcomh _ => ⟨0xFF, 0xDB, 0, 2⟩
  | .setComPins _ => ⟨0xFF, 0xDA, 0, 2⟩
  | .setSegRemap _ => ⟨0xFE, 0xA0, 0, 1⟩
  | .setChargePump _ => ⟨0xFF, 0x8D, 0, 2⟩
  | .setColRange _ _ => ⟨0xFF, 0x21, 0, 3⟩
  | .setPageRange _ _ => ⟨0xFF, 0x22, 0, 3⟩
  | .setPageStart _ => ⟨0xF8, 0xB0, 0, 1⟩
  | .setColLow _ => ⟨0xF0, 0x00, 0, 1⟩
  | .setColHigh _ => ⟨0xF0, 0x10, 0, 1⟩

/-- The units of a code, each as a 64-bit value. -/
def units : Encoded → List Word
  | .operation ws => ws
  | .command bs => bs.map (BitVec.setWidth 64)

/-- The code of `i` agrees with its row of the opcode table. -/
def Statement (i : Instr) : Prop :=
  (units (encode i)).length = (row i).units ∧
  (units (encode i)).headD 0 &&& (row i).mask = (row i).bits ∧
  (i.isOperation = true → (units (encode i)).getD 1 0 &&& (row i).mask1 = 0)

/-- A word under a table mask: the opcode byte stays, and the reserved bits from `lo` on are 0. -/
theorem masked_eq (w mask bits : Word) (op : Byte) (lo : Nat)
    (hm : ∀ i < 64, mask.getLsbD i = decide (i < 8 ∨ lo ≤ i)) (hb : bits = op.setWidth 64)
    (hop : ∀ i < 8, w.getLsbD i = op.getLsbD i) (hres : ∀ i, lo ≤ i → w.getLsbD i = false) :
    w &&& mask = bits := by
  subst hb
  apply BitVec.eq_of_getLsbD_eq
  intro i hi
  simp only [BitVec.getLsbD_and, hm i hi, BitVec.getLsbD_setWidth, hi, decide_true, Bool.true_and]
  by_cases h8 : i < 8
  · simp [h8, hop i h8]
  · by_cases hl : lo ≤ i
    · simp [hl, hres i hl, BitVec.getLsbD_of_ge op i (by omega)]
    · simp [h8, hl, BitVec.getLsbD_of_ge op i (by omega)]

/-- GEOM (R80). -/
theorem geom (gw gh : BitVec 16) (ga : BitVec 7) : Statement (.geom gw gh ga) := by
  refine ⟨rfl, masked_eq _ 0xFFFF8000000000FF 0x01 0x01 47 (by decide) (by decide) ?_ ?_, fun _ => BitVec.and_zero⟩
  · intro i hi
    simp only [units, encode, List.headD_cons, BitVec.getLsbD_append]
    rw [if_pos hi]
    rfl
  · intro i hi
    simp only [units, encode, List.headD_cons, BitVec.getLsbD_append]
    repeat' split
    all_goals first | omega | simp

/-- RELEASE (R81). -/
theorem release : Statement .release := by
  exact ⟨rfl, by decide, fun _ => rfl⟩

/-- INIT (R90). -/
theorem init (p : BitVec 1) (c : InitConfig) : Statement (.init p c) := by
  refine ⟨rfl, masked_eq _ 0xFFFFFFFFFFFC00FF 0x03 0x03 18 (by decide) (by decide) ?_ ?_, fun _ => ?_⟩
  · intro i hi
    simp only [units, encode, initWord0, List.headD_cons, BitVec.getLsbD_append]
    rw [if_pos hi]
    rfl
  · intro i hi
    simp only [units, encode, initWord0, List.headD_cons, BitVec.getLsbD_append]
    repeat' split
    all_goals first | omega | simp
  · apply BitVec.eq_of_getLsbD_eq
    intro i hi
    have hm : ∀ i < 64, (0xFF00000000000000 : Word).getLsbD i = decide (56 ≤ i) := by decide
    simp only [units, encode, row, initWord1, List.getD_cons_succ, List.getD_cons_zero, BitVec.getLsbD_and, hm i hi,
      BitVec.getLsbD_append]
    repeat' split
    all_goals first | (simp; omega) | simp

/-- CLEAR (R130). -/
theorem clear : Statement .clear := by
  exact ⟨rfl, by decide, fun _ => rfl⟩

/-- SETAREA (R131). -/
theorem setArea (sp ep sc ec : BitVec 8) : Statement (.setArea sp ep sc ec) := by
  refine ⟨rfl, masked_eq _ 0xFFFFFF00000000FF 0x05 0x05 40 (by decide) (by decide) ?_ ?_, fun _ => BitVec.and_zero⟩
  · intro i hi
    simp only [units, encode, List.headD_cons, BitVec.getLsbD_append]
    rw [if_pos hi]
    rfl
  · intro i hi
    simp only [units, encode, List.headD_cons, BitVec.getLsbD_append]
    repeat' split
    all_goals first | omega | simp

/-- BLIT (R140). -/
theorem blit (x y : BitVec 16) (bp dp : BitVec 1) (bw bh : BitVec 16) (base : BitVec 32) : Statement (.blit x y bp dp bw bh base) := by
  refine ⟨rfl, masked_eq _ 0xFFFFFC00000000FF 0x06 0x06 42 (by decide) (by decide) ?_ ?_, fun _ => BitVec.and_zero⟩
  · intro i hi
    simp only [units, encode, List.headD_cons, BitVec.getLsbD_append]
    rw [if_pos hi]
    rfl
  · intro i hi
    simp only [units, encode, List.headD_cons, BitVec.getLsbD_append]
    repeat' split
    all_goals first | omega | simp

/-- SHOW (R150). -/
theorem showFrame : Statement .showFrame := by
  exact ⟨rfl, by decide, fun _ => rfl⟩

/-- DISPLAY_OFF (R100). -/
theorem displayOff : Statement .displayOff := by
  exact ⟨rfl, rfl, fun h => (by cases h)⟩

/-- DISPLAY_ON (R101). -/
theorem displayOn : Statement .displayOn := by
  exact ⟨rfl, rfl, fun h => (by cases h)⟩

/-- SET_COM_SCAN (R102). -/
theorem setComScan (d : BitVec 1) : Statement (.setComScan d) := by
  refine ⟨rfl, ?_, fun h => (by cases h)⟩
  revert d
  decide

/-- SET_MUX (R103). -/
theorem setMux (m : BitVec 8) : Statement (.setMux m) := by
  exact ⟨rfl, (by decide : BitVec.setWidth 64 0xA8#8 &&& 0xFF = 0xA8), fun h => (by cases h)⟩

/-- SET_CLKDIV (R104). -/
theorem setClkDiv (f d : BitVec 4) : Statement (.setClkDiv f d) := by
  exact ⟨rfl, (by decide : BitVec.setWidth 64 0xD5#8 &&& 0xFF = 0xD5), fun h => (by cases h)⟩

/-- SET_NORMAL_INVERSE (R105). -/
theorem setNormalInverse (i : BitVec 1) : Statement (.setNormalInverse i) := by
  refine ⟨rfl, ?_, fun h => (by cases h)⟩
  revert i
  decide

/-- ENTIRE_DISPLAY_RESUME (R106). -/
theorem entireDisplayResume : Statement .entireDisplayResume := by
  exact ⟨rfl, rfl, fun h => (by cases h)⟩

/-- SET_START_LINE (R107). -/
theorem setStartLine (l : BitVec 6) : Statement (.setStartLine l) := by
  refine ⟨rfl, ?_, fun h => (by cases h)⟩
  revert l
  decide

/-- SET_CONTRAST (R108). -/
theorem setContrast (c : BitVec 8) : Statement (.setContrast c) := by
  exact ⟨rfl, (by decide : BitVec.setWidth 64 0x81#8 &&& 0xFF = 0x81), fun h => (by cases h)⟩

/-- SET_FADE (R109). -/
theorem setFade (m t : BitVec 4) : Statement (.setFade m t) := by
  exact ⟨rfl, (by decide : BitVec.setWidth 64 0x23#8 &&& 0xFF = 0x23), fun h => (by cases h)⟩

/-- SET_ZOOM (R110). -/
theorem setZoom (z : BitVec 8) : Statement (.setZoom z) := by
  exact ⟨rfl, (by decide : BitVec.setWidth 64 0xD6#8 &&& 0xFF = 0xD6), fun h => (by cases h)⟩

/-- SET_DISPLAY_OFFSET (R111). -/
theorem setDisplayOffset (o : BitVec 8) : Statement (.setDisplayOffset o) := by
  exact ⟨rfl, (by decide : BitVec.setWidth 64 0xD3#8 &&& 0xFF = 0xD3), fun h => (by cases h)⟩

/-- SET_ADDR_MODE (R112). -/
theorem setAddrMode (a : BitVec 8) : Statement (.setAddrMode a) := by
  exact ⟨rfl, (by decide : BitVec.setWidth 64 0x20#8 &&& 0xFF = 0x20), fun h => (by cases h)⟩

/-- SET_PRECHARGE (R113). -/
theorem setPrecharge (p2 p1 : BitVec 4) : Statement (.setPrecharge p2 p1) := by
  exact ⟨rfl, (by decide : BitVec.setWidth 64 0xD9#8 &&& 0xFF = 0xD9), fun h => (by cases h)⟩

/-- SET_VCOMH (R114). -/
theorem setVcomh (v : BitVec 8) : Statement (.setVcomh v) := by
  exact ⟨rfl, (by decide : BitVec.setWidth 64 0xDB#8 &&& 0xFF = 0xDB), fun h => (by cases h)⟩

/-- SET_COM_PINS (R115). -/
theorem setComPins (b : BitVec 8) : Statement (.setComPins b) := by
  exact ⟨rfl, (by decide : BitVec.setWidth 64 0xDA#8 &&& 0xFF = 0xDA), fun h => (by cases h)⟩

/-- SET_SEG_REMAP (R116). -/
theorem setSegRemap (s : BitVec 1) : Statement (.setSegRemap s) := by
  refine ⟨rfl, ?_, fun h => (by cases h)⟩
  revert s
  decide

/-- SET_CHARGE_PUMP (R117). -/
theorem setChargePump (e : BitVec 8) : Statement (.setChargePump e) := by
  exact ⟨rfl, (by decide : BitVec.setWidth 64 0x8D#8 &&& 0xFF = 0x8D), fun h => (by cases h)⟩

/-- SET_COL_RANGE (R118). -/
theorem setColRange (sc ec : BitVec 8) : Statement (.setColRange sc ec) := by
  exact ⟨rfl, (by decide : BitVec.setWidth 64 0x21#8 &&& 0xFF = 0x21), fun h => (by cases h)⟩

/-- SET_PAGE_RANGE (R119). -/
theorem setPageRange (sp ep : BitVec 8) : Statement (.setPageRange sp ep) := by
  exact ⟨rfl, (by decide : BitVec.setWidth 64 0x22#8 &&& 0xFF = 0x22), fun h => (by cases h)⟩

/-- SET_PAGE_START (R120). -/
theorem setPageStart (p : BitVec 3) : Statement (.setPageStart p) := by
  refine ⟨rfl, ?_, fun h => (by cases h)⟩
  revert p
  decide

/-- SET_COL_LOW (R121). -/
theorem setColLow (n : BitVec 4) : Statement (.setColLow n) := by
  refine ⟨rfl, ?_, fun h => (by cases h)⟩
  revert n
  decide

/-- SET_COL_HIGH (R122). -/
theorem setColHigh (n : BitVec 4) : Statement (.setColHigh n) := by
  refine ⟨rfl, ?_, fun h => (by cases h)⟩
  revert n
  decide

end Sys2Proof.Laws.TableRow
end

