-- ==== Sys2Proof/Tests/Slice0.lean ====
section
/-! SUPPORT. Tests. Expected results are the spec's own: the vectors of spec/95_test_vectors.md and the encodings of the rules
named. The theorems named witness_… show states and operands that meet the hypotheses of the statements in
Certificates/Slice0/Obligations.lean, clause by clause. -/

namespace Sys2Proof.Tests

open Sys2Proof.Machine

/-! ### Helpers -/

/-- A ready 128×64 block with a clear buffer and the given answers to come (after G1 of spec/95). -/
def ready64 (ds : List (Option Answer)) : State :=
  { State.reset with geomW := 128, geomH := 64, ready := true, devAddr := 0x3C, fb := [(0, 0x40)], draws := ds }

/-- A ready 128×32 block with a clear buffer (after G2 of spec/95). -/
def ready32 (ds : List (Option Answer)) : State := { ready64 ds with geomH := 32, devAddr := 0x3D }

/-- A ready 128×64 block to which the host has admitted `src`. -/
def withSrc (src : Memory) : State := { ready64 [] with src := src }

/-- A block whose operation stream is `ws`. -/
def withOps (ws : List Word) : State := { ready64 [] with ops := ws }

/-- The next state of an outcome. -/
def after : Host.Outcome State Fault Refusal → Option State
  | .next t => some t
  | .fault _ => none
  | .refused _ => none

/-- The fault of an outcome. -/
def faultOf : Host.Outcome State Fault Refusal → Option Fault
  | .next _ => none
  | .fault f => some f
  | .refused _ => none

/-- The configuration of vector I13, and the default preset of R96 with contrast 100 (I1). -/
def cfgI13 : InitConfig := ⟨1, 2, 0, 0, 3, 1, 0, 0xFF, 15, 15, 15, 1, 5, 0x30⟩
/-- See `cfgI13`. -/
def cfgI1 : InitConfig := ⟨0, 0, 1, 1, 0, 0, 1, 100, 0, 8, 1, 15, 0, 0x20⟩
/-- I1 with pre-charge phase 2 = 16 (I4). -/
def cfgI4 : InitConfig := { cfgI1 with pc2 := 16 }

/-! ### Decoding: words and bytes written out from the spec -/

/-- spec/95 G1. -/
theorem test_decode_geom_G1 : decodeOp 0x00003C0040008001 none = .instr (.geom 128 64 0x3C) 1 := by decide

/-- spec/95 G10. -/
theorem test_decode_release : decodeOp 0x0000000000000002 none = .instr .release 1 := by decide

/-- spec/95 I13. -/
theorem test_decode_init_I13 : decodeOp 0x000000000001CB03 (some 0x003005010F0F0FFF) = .instr (.init 1 ⟨1, 2, 0, 0, 3, 1, 0, 0xFF, 15, 15, 15, 1, 5, 0x30⟩) 2 := by decide

/-- spec/95 K1. -/
theorem test_decode_clear : decodeOp 0x0000000000000004 none = .instr .clear 1 := by decide

/-- spec/95 A4. -/
theorem test_decode_setArea_A4 : decodeOp 0x0000000505030305 none = .instr (.setArea 3 3 5 5) 1 := by decide

/-- spec/95 B5. -/
theorem test_decode_blit_B5 : decodeOp 0x0000030000007C06 (some 0x000006000002000A) = .instr (.blit 124 0 1 1 10 2 0x600) 2 := by decide

/-- spec/95 B15. -/
theorem test_decode_blit_B15 : decodeOp 0x0000010000000006 (some 0x0000000000080008) = .instr (.blit 0 0 1 0 8 8 0) 2 := by decide

/-- spec/95 W1. -/
theorem test_decode_show : decodeOp 0x0000000000000007 none = .instr .showFrame 1 := by decide

/-- R100. -/
theorem test_decode_displayOff : decodeCommand [0b10101110] = .instr .displayOff 1 := by decide

/-- R101. -/
theorem test_decode_displayOn : decodeCommand [0b10101111] = .instr .displayOn 1 := by decide

/-- R102. -/
theorem test_decode_setComScan : decodeCommand [0b11001000] = .instr (.setComScan 1) 1 := by decide

/-- R103. -/
theorem test_decode_setMux : decodeCommand [0xA8, 63] = .instr (.setMux 63) 2 := by decide

/-- R104. -/
theorem test_decode_setClkDiv : decodeCommand [0xD5, 0x83] = .instr (.setClkDiv 8 3) 2 := by decide

/-- R105. -/
theorem test_decode_setNormalInverse : decodeCommand [0b10100111] = .instr (.setNormalInverse 1) 1 := by decide

/-- R106. -/
theorem test_decode_entireDisplayResume : decodeCommand [0b10100100] = .instr .entireDisplayResume 1 := by decide

/-- R107. -/
theorem test_decode_setStartLine : decodeCommand [0b01110001] = .instr (.setStartLine 0b110001) 1 := by decide

/-- R108. -/
theorem test_decode_setContrast : decodeCommand [0x81, 0x64] = .instr (.setContrast 100) 2 := by decide

/-- R109. -/
theorem test_decode_setFade : decodeCommand [0x23, 0b00110101] = .instr (.setFade 3 5) 2 := by decide

/-- R110. -/
theorem test_decode_setZoom : decodeCommand [0xD6, 1] = .instr (.setZoom 1) 2 := by decide

/-- R111. -/
theorem test_decode_setDisplayOffset : decodeCommand [0xD3, 9] = .instr (.setDisplayOffset 9) 2 := by decide

/-- R112. -/
theorem test_decode_setAddrMode : decodeCommand [0x20, 0x02] = .instr (.setAddrMode 2) 2 := by decide

/-- R113. -/
theorem test_decode_setPrecharge : decodeCommand [0xD9, 0xF1] = .instr (.setPrecharge 15 1) 2 := by decide

/-- R114. -/
theorem test_decode_setVcomh : decodeCommand [0xDB, 0x20] = .instr (.setVcomh 0x20) 2 := by decide

/-- R115. -/
theorem test_decode_setComPins : decodeCommand [0xDA, 0x12] = .instr (.setComPins 0x12) 2 := by decide

/-- R116. -/
theorem test_decode_setSegRemap : decodeCommand [0b10100001] = .instr (.setSegRemap 1) 1 := by decide

/-- R117. -/
theorem test_decode_setChargePump : decodeCommand [0x8D, 0x14] = .instr (.setChargePump 0x14) 2 := by decide

/-- R118. -/
theorem test_decode_setColRange : decodeCommand [0x21, 0x05, 0x7F] = .instr (.setColRange 5 127) 3 := by decide

/-- R119. -/
theorem test_decode_setPageRange : decodeCommand [0x22, 0x01, 0x07] = .instr (.setPageRange 1 7) 3 := by decide

/-- R120. -/
theorem test_decode_setPageStart : decodeCommand [0b10110110] = .instr (.setPageStart 6) 1 := by decide

/-- R121. -/
theorem test_decode_setColLow : decodeCommand [0b00001001] = .instr (.setColLow 9) 1 := by decide

/-- R122. -/
theorem test_decode_setColHigh : decodeCommand [0b00010111] = .instr (.setColHigh 7) 1 := by decide

/-- R69: the neighbours of the opcodes are illegal (spec/95 E1 to E3). -/
theorem test_decode_illegal : decodeOp 0 none = .illegal .illegalOpcode 1 ∧ decodeOp 8 none = .illegal .illegalOpcode 1 ∧
    decodeOp 0xFF none = .illegal .illegalOpcode 1 := by decide

/-- R69: reserved bits (spec/95 E4, E6, E7, E8, E10). -/
theorem test_decode_reserved : decodeOp 0x0000000000000104 none = .illegal .reservedBits 1 ∧
    decodeOp 0x0000BC0040008001 none = .illegal .reservedBits 1 ∧
    decodeOp 0x0000070000000006 (some 0x0000000000010001) = .illegal .reservedBits 2 ∧
    decodeOp 0x0000000000023103 (some 0x0120000F010800FF) = .illegal .reservedBits 2 ∧
    decodeOp 0x0000010000000005 none = .illegal .reservedBits 1 := by decide

/-- R70: the second word is waited for, a reserved bit of the first notwithstanding. -/
theorem test_decode_incomplete : decodeOp 0x0000070000000006 none = .incomplete ∧ decodeOp 3 none = .incomplete := by decide

/-- R72: bytes that begin none of the 23 commands; R106: 0xA5 is never emitted. -/
theorem test_decode_unknown_command : decodeCommand [0xA5] = .illegal .unknownCommand 1 ∧
    decodeCommand [0xB8] = .illegal .unknownCommand 1 ∧ decodeCommand [0x24] = .illegal .unknownCommand 1 := by decide

/-- The table's numbering: one word of a row of each format. -/
theorem test_decodeTableWord : decodeTableWord 64 0x00003C0040008001 = some (.geom 128 64 0x3C) ∧
    decodeTableWord 8 0xAE = some .displayOff ∧ decodeTableWord 8 0x22 = some (.setPageRange 0 0) := by decide

/-! ### Well-formedness: an ill-formed term for each check -/

theorem test_wf_fade : ¬ Instr.WellFormed (.setFade 4 0) ∧ Instr.WellFormed (.setFade 3 15) := by decide
theorem test_wf_zoom : ¬ Instr.WellFormed (.setZoom 2) ∧ Instr.WellFormed (.setZoom 1) := by decide
theorem test_wf_com_pins : ¬ Instr.WellFormed (.setComPins 0x10) ∧ ¬ Instr.WellFormed (.setComPins 0x42) ∧
    Instr.WellFormed (.setComPins 0x32) := by decide
theorem test_wf_charge_pump : ¬ Instr.WellFormed (.setChargePump 0x15) ∧ Instr.WellFormed (.setChargePump 0x10) := by decide

/-! ### One step of each instruction -/

/-- G1. -/
theorem test_geom_G1 : after (step (State.reset.withFetchWord 64 0x00003C0040008001)) =
    some { ready64 [] with opc := 1, ops := [0x00003C0040008001] } := by decide

/-- G8: a failing GEOM on a ready block changes nothing. -/
theorem test_geom_G8 : after (exec (.geom 64 64 0x3D) (ready64 [])) =
    some { ready64 [] with opc := 1, status := .invalidGeometry } := by decide

/-- G10. -/
theorem test_release_G10 : after (exec .release (ready32 [])) = some { ready32 [] with opc := 1, ready := false, fb := [] } := by
  decide

/-- G12. -/
theorem test_release_G12 : after (exec .release State.reset) = some { State.reset with opc := 1 } := by decide

/-- I13: every field at a bound or flipped from the preset. -/
theorem test_init_I13 : (after (exec (.init 1 cfgI13) (ready64 [some (.ack 30)]))).map (fun t => (t.status, t.tr.map BusEntry.bytes)) =
    some (.ok, [[0x00, 0xAE, 0xC0, 0xA8, 0x3F, 0xD5, 0xFF, 0xA7, 0xA4, 0x40, 0x81, 0xFF, 0x23, 0x35, 0xD6, 0x01, 0xD3, 0x00, 0x20,
      0x02, 0xD9, 0x1F, 0xDB, 0x30, 0xDA, 0x12, 0xA0, 0x8D, 0x10, 0xAF]]) := by decide

/-- I2 with the answer of I15: the multiplex and COM-pins bytes of 128×32, and a short acknowledgement fails. -/
theorem test_init_I2_I15 : (after (exec (.init 1 cfgI1) (ready32 [some (.ack 29)]))).map (fun t => (t.status, t.tr.map BusEntry.bytes)) =
    some (.transportFailure, [[0x00, 0xAE, 0xC8, 0xA8, 0x1F, 0xD5, 0x80, 0xA6, 0xA4, 0x40, 0x81, 0x64, 0x23, 0x00, 0xD6, 0x00, 0xD3,
      0x00, 0x20, 0x00, 0xD9, 0xF1, 0xDB, 0x20, 0xDA, 0x02, 0xA1, 0x8D, 0x14, 0xAF]]) := by decide

/-- K1: the marker stays. -/
theorem test_clear_K1 : (after (exec .clear { ready32 [] with fb := [(0, 0x40), (6, 0x01), (13, 0x01)] })).map State.fb =
    some [(0, 0x40)] := by decide

/-- A1. -/
theorem test_setArea_A1 : (after (exec (.setArea 0 7 0 127) (ready64 [some (.ack 4), some (.ack 4)]))).map
    (fun t => (t.status, t.tr.map BusEntry.bytes)) = some (.ok, [[0x00, 0x22, 0x00, 0x07], [0x00, 0x21, 0x00, 0x7F]]) := by decide

/-- A10: the column range is not sent after a failed page range. -/
theorem test_setArea_A10 : (after (exec (.setArea 0 7 0 127) (ready64 [some .err, some (.ack 4)]))).map
    (fun t => (t.status, t.tr.map BusEntry.bytes)) = some (.transportFailure, [[0x00, 0x22, 0x00, 0x07]]) := by decide

/-- B5: clipped at the right edge, stride 2, bytes 0x601 and 0x603 not read (they are not admitted here). -/
theorem test_blit_B5 : (after (exec (.blit 124 0 1 1 10 2 0x600) (withSrc [(0x600, 0xA5), (0x602, 0xFF)]))).map State.fb =
    some [(0, 0x40), (125, 0x03), (126, 0x02), (127, 0x03), (128, 0x02)] := by decide

/-- B7's second BLIT: an off source bit clears exactly its own bit. -/
theorem test_blit_B7 : (after (exec (.blit 0 3 1 1 1 1 0x700)
    { withSrc [(0x700, 0x00)] with fb := [(0, 0x40), (1, 0xFF)] })).map State.fb = some [(0, 0x40), (1, 0xF7)] := by decide

/-- W9: page 1's data write holds byte 04 at column 5. -/
theorem test_show_W9 : (after (exec .showFrame { ready64 (fullAcks (showBytesOfRule (ready64 []))) with
    fb := [(0, 0x40), (134, 0x04)] })).map (fun t => (t.status, t.tr.length, t.tr[8]?.map BusEntry.bytes)) =
    some (.ok, 33, some ([0x40, 0, 0, 0, 0, 0, 0x04] ++ List.replicate 122 0)) := by decide +kernel

/-- W4: the failure of write 2. -/
theorem test_show_W4 : (after (exec .showFrame (ready64 [some (.ack 3), some (.ack 1)]))).map
    (fun t => (t.status, t.tr.map BusEntry.bytes)) = some (.transportFailure, [[0x00, 0x20, 0x02], [0x00, 0xB0]]) := by decide

/-- E7: an illegal two-word operation moves `opc` past both words. -/
theorem test_illegal_E7 : after (step (withOps [0x0000070000000006, 0x0000000000010001])) =
    some { withOps [0x0000070000000006, 0x0000000000010001] with opc := 2, status := .illegalOperation } := by decide

/-- R120, R71: a staged page select is one command write, and the next staged command follows. -/
theorem test_setPageStart : (after (step { ready64 [some (.ack 2)] with seq := .command [0xB3, 0x00] })).map
    (fun t => (t.tr.map BusEntry.bytes, t.seq, t.opc, t.status)) = some ([[0x00, 0xB3]], .command [0x00], 0, .ok) := by decide

/-- R118: a failed write ends the staged sequence. -/
theorem test_setColRange : (after (step { ready64 [some .err] with seq := .command [0x21, 0x05, 0x7F, 0xAF] })).map
    (fun t => (t.tr.map BusEntry.bytes, t.seq)) = some ([[0x00, 0x21, 0x05, 0x7F]], .idle) := by decide

/-- 20_memory.md R50, 60_exceptions.md R176: an unanswered write is stuck where R152 says; the transport lifts it, here SHOW's
second write, and R57: meanwhile the host's moves are refused. -/
theorem test_unanswered : faultOf (exec .showFrame (ready64 [some (.ack 3), none])) = some (.awaitAnswer (.showAt 0 .pageSel)) ∧
    (transportAnswersNow .err { withOps [0x07] with draws := [some (.ack 3), none] }).draws = [some (.ack 3), some .err] ∧
    (after (step (transportAnswersNow .err { withOps [0x07] with draws := [some (.ack 3), none] }))).map State.status =
      some .transportFailure ∧
    (after (hostSupply [2] { withOps [0x07] with draws := [some (.ack 3), none] })).isSome = false := by decide

/-- R27, R22, R25, R26. -/
theorem test_window : (readWindow 0 { ready64 [] with status := .invalidArea }).toOption = some 7 ∧
    (readWindow 3 (ready64 [])).toOption = some 1 ∧ (readWindow 4 (ready64 [])).toOption = some 0x3C ∧
    (readWindow 5 (ready64 [])).toOption = some 0 := by decide

/-- R42 and R10 through the observation port, and no read while SHOW's first write awaits its answer. -/
theorem test_observe : (observeFb 0 (ready64 [])).toOption = some 0x40 ∧ (observeFb 1025 (ready64 [])).toOption = none ∧
    (observeFb 0 State.reset).toOption = none ∧ (observeFb 0 { withOps [0x07] with draws := [none] }).toOption = none ∧
    (readWindow 3 { withOps [0x07] with draws := [none] }).toOption = none := by decide

/-- R43: the host admits a byte; the canonical form keeps its order. -/
theorem test_admit : (after (hostAdmit 5 0 (withSrc [(2, 1), (9, 1)]))).map State.src = some [(2, 1), (5, 0), (9, 1)] := by decide

/-- R73, R74, R96: INIT default with fademode 1 (I12); a number that does not fit is refused. -/
theorem test_assemble : assemble (.initDefault [(.fademode, 1)]) = some [0x0000000000027103, 0x0020000F010800FF] ∧
    assemble (.blitNoData 0 0 8 8) = some [0x0000010000000006, 0x0000000000080008] ∧
    assemble (.setArea 0 256 0 0) = none ∧ disassemble 0xAA none = .word 0xAA := by decide

/-! ### Witnesses of the statements' hypotheses -/

theorem ready64_inv (ds : List (Option Answer)) : (ready64 ds).Inv :=
  ⟨fun _ => rfl, rfl, fun c hc => by rw [List.mem_singleton.mp hc]; exact Nat.succ_pos _, fun h => by (cases h), fun _ => rfl, rfl, fun h => (by cases h), Or.inl rfl⟩

theorem ready32_inv (ds : List (Option Answer)) : (ready32 ds).Inv :=
  ⟨fun _ => rfl, rfl, fun c hc => by rw [List.mem_singleton.mp hc]; exact Nat.succ_pos _, fun h => by (cases h), fun _ => rfl, rfl, fun h => (by cases h), Or.inl rfl⟩

theorem withSrc_inv (a : Nat) (v : Byte) : (withSrc [(a, v)]).Inv :=
  ⟨fun _ => rfl, rfl, fun c hc => by rw [List.mem_singleton.mp hc]; exact Nat.succ_pos _, fun h => by (cases h), fun _ => rfl, rfl, fun h => (by cases h), Or.inl rfl⟩

theorem witness_AcceptedCodeIsTheEncoding :
    decodeOp 0x0000000000000007 none = .instr .showFrame 1 ∧
    decodeOp 0x000003000A000506 (some 0x0000100000010001) = .instr (.blit 5 10 1 1 1 1 0x1000) 2 ∧
    decodeCommand [0xAF, 0x00] = .instr .displayOn 1 := by decide

theorem witness_CommandWriteReadsBack : ∀ c ∈ [Instr.displayOff, .setMux 63, .setColRange 0 127], c.isOperation = false := by decide

theorem witness_StepRunsTheDecodedInstruction :
    ((withOps [0x04]).seq = .idle ∧ (withOps [0x04]).ops[(withOps [0x04]).opc]? = some 0x04 ∧
      decodeOp 0x04 (withOps [0x04]).ops[(withOps [0x04]).opc + 1]? = .instr .clear 1) ∧
    (({ ready64 [] with seq := .command [0xAE] } : State).seq = .command [0xAE] ∧ decodeCommand [0xAE] = .instr .displayOff 1) := by decide

/-- One word (or pair) at a boundary of each clause: opcodes 0 and 8, the lowest reserved bit of each format. -/
theorem witness_IllegalWordsReportIllegalOperation :
    (withOps [0x08]).ops[(withOps [0x08]).opc]? = some 0x08 ∧ 8 ≤ (0x08 : Word).toNat % 256 ∧ (0x00 : Word).toNat % 256 = 0 ∧
    (0x107 : Word).toNat % 256 = 7 ∧ 256 ≤ (0x107 : Word).toNat ∧
    (0x800000000001 : Word).toNat % 256 = 1 ∧ 2 ^ 47 ≤ (0x800000000001 : Word).toNat ∧
    (0x10000000005 : Word).toNat % 256 = 5 ∧ 2 ^ 40 ≤ (0x10000000005 : Word).toNat ∧
    (withOps [0x03, 0x0100000000000000]).ops[(withOps [0x03, 0x0100000000000000]).opc + 1]? = some 0x0100000000000000 ∧
    (0x40003 : Word).toNat % 256 = 3 ∧ 2 ^ 18 ≤ (0x40003 : Word).toNat ∧ 2 ^ 56 ≤ (0x0100000000000000 : Word).toNat ∧
    (0x40000000006 : Word).toNat % 256 = 6 ∧ 2 ^ 42 ≤ (0x40000000006 : Word).toNat := by decide

theorem witness_MissingWordsAreStuck :
    ((withOps [0x03]).seq = .idle ∧ (withOps [0x03]).ops[(withOps [0x03]).opc]? = some 0x03 ∧
      (withOps [0x03]).ops[(withOps [0x03]).opc + 1]? = none ∧ (0x03 : Word).toNat % 256 = 3) ∧
    (State.reset.seq = .idle ∧ State.reset.ops[State.reset.opc]? = none) := by decide

theorem witness_ResetState : decodeOp 0x02 ([] : List Word).head? = .instr .release 1 := by decide

/-- For `EveryStepKeepsTheInvariant`, and for `ReadyGeometryIsSupported`, `StatusNumbers`, `TranscriptOnlyGrows`,
`OnlyTheirWritersWriteThem` (first clause) and `OpcAdvancesByLength` (second clause). -/
theorem witness_EveryStepKeepsTheInvariant :
    State.reset.Inv ∧ ∃ t, step (State.reset.withFetchWord 64 0x00003C0040008001) = .next t ∧ t.ready = true ∧
      (State.reset.withFetchWord 64 0x00003C0040008001).Inv := by
  refine ⟨⟨fun h => (by cases h), rfl, fun c hc => (by cases hc), fun _ => rfl, fun h => (by cases h), rfl,
    fun h => (by cases h), Or.inl rfl⟩, _, rfl, rfl, ⟨fun h => (by cases h), rfl, fun c hc => (by cases hc), fun _ => rfl,
    fun h => (by cases h), rfl, fun h => (by cases h), Or.inl rfl⟩⟩

theorem witness_ReadyGeometryIsSupported : (ready32 []).Inv ∧ (ready32 []).ready = true := ⟨ready32_inv [], rfl⟩

theorem witness_GeomConstructsOrChangesNothing :
    ((128 : BitVec 16) = 128 ∧ (32 : BitVec 16) = 32) ∧
    ¬ (((64 : BitVec 16) = 128 ∧ (128 : BitVec 16) = 64) ∨ ((64 : BitVec 16) = 128 ∧ (128 : BitVec 16) = 32)) := by decide

theorem witness_BufferSizeProperty : (ready64 []).Inv ∧ (ready64 []).ready = true ∧ (ready64 []).height = 64 ∧
    (ready32 []).Inv ∧ (ready32 []).height = 32 ∧
    ∃ t, exec (.geom 128 32 0) (ready64 []) = .next t ∧ t.status = .ok :=
  ⟨ready64_inv [], rfl, rfl, ready32_inv [], rfl, _, rfl, rfl⟩

theorem witness_ReleaseDropsTheBuffer : ((ready64 []).ready = true ∧ State.reset.ready = false) ∧
    (∃ t, exec .release (ready64 []) = .next t) ∧ Instr.isOperation .clear = true ∧ Instr.clear ≠ .release :=
  ⟨by decide, ⟨_, rfl⟩, rfl, fun h => (by cases h)⟩

theorem witness_NothingSurvivesRelease : (∃ t, exec .release (ready64 []) = .next t) ∧ State.reset.ready = false ∧
    Instr.isOperation .showFrame = true ∧ (∀ gw gh ga, Instr.showFrame ≠ .geom gw gh ga) ∧ Instr.showFrame ≠ .release :=
  ⟨⟨_, rfl⟩, rfl, rfl, fun _ _ _ h => (by cases h), fun h => (by cases h)⟩

theorem witness_NotReadyComesFirst : State.reset.ready = false := rfl

theorem witness_InitSendsTheSequence : (ready64 [some (.ack 30)]).ready = true ∧
    InitRangesOfRule cfgI13 (ready64 [some (.ack 30)]).height ∧ (ready64 [some (.ack 30)]).draws = some (.ack 30) :: [] :=
  ⟨rfl, by unfold InitRangesOfRule; decide, rfl⟩

theorem witness_InitValidatesItsRanges : (ready64 []).ready = true ∧ ¬ InitRangesOfRule cfgI4 (ready64 []).height ∧
    InitRangesOfRule cfgI13 (ready64 []).height ∧ (∃ t, exec (.init 1 cfgI13) (ready64 [some .err]) = .next t) ∧
    (ready32 []).Inv ∧ (ready32 []).ready = true :=
  ⟨rfl, by unfold InitRangesOfRule; decide, by unfold InitRangesOfRule; decide, ⟨_, rfl⟩, ready32_inv [], rfl⟩

theorem witness_InitRejectsAnAbsentConfiguration : (ready64 []).ready = true := rfl

theorem witness_InitIsOneWriteOrNone : (∃ t, exec (.init 1 cfgI1) (ready64 [some (.ack 30)]) = .next t ∧ t.status = .ok) ∧
    (∃ t, exec (.init 0 cfgI1) (ready64 []) = .next t ∧ t.tr = []) := ⟨⟨_, rfl, rfl⟩, ⟨_, rfl, rfl⟩⟩

/-- I10. -/
theorem witness_ContrastZeroIsSent : InitRangesOfRule { cfgI1 with con := 0 } (ready64 [some (.ack 30)]).height ∧
    ({ cfgI1 with con := 0 } : InitConfig).con = 0 ∧ (ready64 [some (.ack 30)]).draws = some (.ack 30) :: [] :=
  ⟨by unfold InitRangesOfRule; decide, rfl, rfl⟩

theorem witness_InitReportsTransportFailure : (ready64 [some (.ack 29)]).ready = true ∧
    InitRangesOfRule cfgI1 (ready64 [some (.ack 29)]).height ∧ Answer.ack 29 ≠ .ack 30 :=
  ⟨rfl, by unfold InitRangesOfRule; decide, by decide⟩

theorem witness_InitKeepsTheBlock : ∃ t, exec (.init 1 cfgI1) (ready64 [some .err]) = .next t := ⟨_, rfl⟩

theorem witness_ClearZeroesThePixels : (ready64 []).ready = true ∧ State.reset.ready = false := by decide

theorem witness_SetAreaSendsBothRanges :
    AreaOfRule (ready64 [some (.ack 4), some (.ack 4)]).width (ready64 [some (.ack 4), some (.ack 4)]).height 7 7 127 127 ∧
    AreaOfRule (ready32 []).width (ready32 []).height 0 3 0 127 := by unfold AreaOfRule; decide

theorem witness_SetAreaStopsAtTheFirstFailure : (ready64 [some .err]).ready = true ∧ Answer.err ≠ .ack 4 ∧
    (ready64 [some (.ack 4), some (.ack 3)]).draws = some (.ack 4) :: some (.ack 3) :: [] ∧ Answer.ack 3 ≠ .ack 4 ∧
    AreaOfRule (ready64 [some .err]).width (ready64 [some .err]).height 0 7 0 127 :=
  ⟨rfl, by decide, rfl, by decide, by unfold AreaOfRule; decide⟩

/-- A2, A5, A6, A8: just outside each bound. -/
theorem witness_SetAreaChecksItsWindow : ¬ AreaOfRule (ready32 []).width (ready32 []).height 0 4 0 127 ∧
    AreaOfRule (ready32 []).width (ready32 []).height 0 3 0 127 ∧
    ¬ AreaOfRule (ready64 []).width (ready64 []).height 4 3 0 127 ∧ ¬ AreaOfRule (ready64 []).width (ready64 []).height 0 7 10 9 ∧
    ¬ AreaOfRule (ready64 []).width (ready64 []).height 0 7 0 128 := by unfold AreaOfRule; decide

/-- B8: the last pixel of the panel. -/
theorem witness_BlitComposites : (withSrc [(0, 1)]).Inv ∧ (withSrc [(0, 1)]).ready = true ∧ (1 : BitVec 16) ≠ 0 ∧
    (127 : BitVec 16).toNat < (withSrc [(0, 1)]).width ∧ (63 : BitVec 16).toNat < (withSrc [(0, 1)]).height ∧
    SourceAdmitted (withSrc [(0, 1)]) 127 63 1 1 0 :=
  ⟨withSrc_inv 0 1, rfl, by decide, by decide, by decide, by unfold SourceAdmitted; decide⟩

theorem witness_BlitReadsBack : ((127 : BitVec 16).toNat + (1 : BitVec 16).toNat ≤ (withSrc [(0, 1)]).width ∧
      (63 : BitVec 16).toNat + (1 : BitVec 16).toNat ≤ (withSrc [(0, 1)]).height ∧
      ∃ t, exec (.blit 127 63 1 1 1 1 0) (withSrc [(0, 1)]) = .next t ∧ t.status = .ok) ∧
    (∀ i < min (1 : BitVec 16).toNat ((withSrc [(0, 1)]).height - (63 : BitVec 16).toNat),
      ∀ b < (min (1 : BitVec 16).toNat ((withSrc [(0, 1)]).width - (127 : BitVec 16).toNat) + 7) / 8,
      (memRead [(0, 0xFF), (7, 9)] ((0 : BitVec 32).toNat + i * (((1 : BitVec 16).toNat + 7) / 8) + b)).isSome = true ∧
      ∀ k < 8, 8 * b + k < min (1 : BitVec 16).toNat ((withSrc [(0, 1)]).width - (127 : BitVec 16).toNat) →
        ((memRead [(0, 0xFF), (7, 9)] ((0 : BitVec 32).toNat + i * (((1 : BitVec 16).toNat + 7) / 8) + b)).getD 0).getLsbD k =
          ((memRead (withSrc [(0, 1)]).src ((0 : BitVec 32).toNat + i * (((1 : BitVec 16).toNat + 7) / 8) + b)).getD 0).getLsbD k) ∧
    ((withSrc []).width ≤ (128 : BitVec 16).toNat) ∧
    ¬ ((127 ≤ 126 ∧ 126 < 127 + 1) ∧ (63 ≤ 63 ∧ 63 < 63 + 1)) :=
  ⟨⟨by decide, by decide, _, rfl, rfl⟩, by decide, by decide, by decide⟩

/-- B21. -/
theorem witness_BlitFaultsOnUnadmittedSource : (withSrc [(0, 1)]).Inv ∧ ¬ SourceAdmitted (withSrc [(0, 1)]) 5 10 1 1 0x1000 :=
  ⟨withSrc_inv 0 1, by unfold SourceAdmitted; decide⟩

/-- B19: a zero width off the panel. -/
theorem witness_BlitRejectsInvalidBitmaps : (ready64 []).ready = true ∧ ((1 : BitVec 1) = 0 ∨ (1 : BitVec 1) = 0 ∨
    (0 : BitVec 16) = 0 ∨ (8 : BitVec 16) = 0) := by decide

theorem witness_BlitIsIdempotent : ∃ t u, exec (.blit 127 63 1 1 1 1 0) (withSrc [(0, 1)]) = .next t ∧
    exec (.blit 127 63 1 1 1 1 0) t = .next u := ⟨_, _, rfl, rfl⟩

theorem witness_ShowSendsEveryPage : (ready32 (fullAcks (showBytesOfRule (ready32 [])))).Inv ∧
    (ready32 (fullAcks (showBytesOfRule (ready32 [])))).draws =
      fullAcks (showBytesOfRule (ready32 (fullAcks (showBytesOfRule (ready32 []))))) ++ [] :=
  ⟨ready32_inv _, (List.append_nil _).symm⟩

/-- The first and the last page of 128×32 (W2). -/
theorem witness_PageFrames : (ready32 (fullAcks (showBytesOfRule (ready32 [])))).Inv ∧ 0 < (ready32 []).pages ∧ 3 < (ready32 []).pages :=
  ⟨ready32_inv _, by decide, by decide⟩

theorem witness_ShowCounts : (after (exec .showFrame (ready32 (fullAcks (showBytesOfRule (ready32 [])))))).map State.status = some .ok := by
  decide +kernel

/-- The first write and the last one (W3, W7). -/
theorem witness_ShowAbortsAtTheFirstFailure :
    ((showBytesOfRule (ready64 [some .err]))[0]? = some [0x00, 0x20, 0x02] ∧ Answer.err ≠ .ack 3 ∧
      (ready64 [some .err]).draws = fullAcks ((showBytesOfRule (ready64 [some .err])).take 0) ++ some .err :: []) ∧
    ((showBytesOfRule (ready64 []))[32]?.isSome = true ∧ Answer.ack 128 ≠ .ack 129) := by decide

/-- The mode write, and the last write of the last page. -/
theorem witness_ShowWaitsAtItsPageAndPhase :
    (1 ≤ 1 ∧ (ready64 [none]).draws = fullAcks ((showBytesOfRule (ready64 [none])).take (1 - 1)) ++ none :: []) ∧
    (33 ≤ (showBytesOfRule (ready64 [])).length ∧ (33 - 2) / 4 = 7 ∧ phaseOfRule ((33 - 2) % 4) = .data) := by decide

theorem witness_ShowKeepsTheBlock : (after (exec .showFrame (ready64 [some (.ack 3), some .err]))).map
    (fun t => t.tr[(ready64 []).tr.length]?.map BusEntry.answer) = some (some (.ack 3)) := by decide

theorem witness_OneByteCommandsAreSent : (ready64 [some (.ack 2)]).draws = some (.ack 2) :: [] := rfl

theorem witness_OperandCommandsAreSent : (ready64 [some .err]).draws = some .err :: [] := rfl

theorem witness_CommandsWaitOnlyForTheTransport : Instr.isOperation (.setContrast 1) = false ∧ (ready64 []).draws = [] ∧
    (ready64 [none]).draws = none :: [] := by decide

theorem witness_InitTellsTheController : (after (exec (.init 1 cfgI1) (ready64 [some (.ack 30)]))).map State.status = some .ok := by
  decide

theorem witness_OperationsFrameTheirWrites : Instr.isOperation .showFrame = true ∧
    ((after (exec .showFrame (ready64 [some (.ack 3), some .err]))).map fun t => t.tr.length) = some 2 ∧
    (after (exec .clear (ready64 []))).isSome = true := by decide

theorem witness_OpcAdvancesByLength : (after (exec .clear (ready64 []))).isSome = true ∧ Instr.isOperation .clear = true ∧
    (after (step (withOps [0x00]))).isSome = true ∧ (withOps [0x00]).seq = .idle ∧ (withOps [0x00]).ops[0]? = some 0 ∧
    (after (step (withOps [0x0000000000000003, 0]))).isSome = true := by decide

theorem witness_StatusesByOperation : (after (exec (.geom 0 64 0x3C) State.reset)).isSome = true ∧
    (after (exec .release State.reset)).isSome = true ∧ (after (exec (.init 0 cfgI1) (ready64 []))).isSome = true ∧
    (after (exec .clear (ready64 []))).isSome = true ∧ (after (exec (.setArea 1 0 0 0) (ready64 []))).isSome = true ∧
    (after (exec (.blit 0 0 0 0 0 0 0) (ready64 []))).isSome = true ∧
    (after (exec .showFrame (ready64 [some .err]))).isSome = true := by decide

theorem witness_FailingOperationsChangeNothingElse : Instr.isOperation .showFrame = true ∧
    (after (exec .showFrame (ready64 [some .err]))).map State.status = some .transportFailure ∧
    (after (exec (.setArea 1 0 0 0) (ready64 []))).map State.status = some .invalidArea ∧
    (after (step (withOps [0x00]))).map State.status = some .illegalOperation := by decide

theorem witness_AnswersDecideTheStatus : (after (exec .showFrame (ready64 [some (.ack 3), some .err]))).map State.status =
    some .transportFailure ∧ (after (exec .clear (ready64 []))).map State.status = some .ok := by decide

theorem witness_TranscriptOnlyGrows : (after (step { withOps [0x07] with draws := [some .err] })).map (fun t => t.tr.length) = some 1 := by
  decide

theorem witness_OnlyTheirWritersWriteThem : (after (exec .showFrame (ready64 [some .err]))).isSome = true ∧
    Instr.showFrame ≠ .release ∧ Instr.showFrame ≠ .clear ∧ (after (step (withOps [0x04]))).isSome = true := by decide

theorem witness_StatusIsNeverRead : Instr.isOperation .clear = true ∧ (withOps [0x04]).seq = .idle := by decide

theorem witness_EveryOperationEnds : (withSrc [(0, 1)]).Inv ∧ none ∉ (withSrc [(0, 1)]).draws ∧
    SourceAdmitted (withSrc [(0, 1)]) 127 63 1 1 0 :=
  ⟨withSrc_inv 0 1, by decide, by unfold SourceAdmitted; decide⟩

theorem witness_StepsAreSafe : (ready64 []).Inv := ready64_inv []

theorem witness_RegisterWindow : ((ready64 []).seq = .idle ∧ faultOf (step (ready64 [])) = some .awaitOperation) ∧
    (after (hostSupply [4] (ready64 []))).isSome = true ∧
    (after (hostAdmit 5 0 (ready64 []))).isSome = true ∧ (after (hostWithdraw 5 (withSrc [(5, 0)]))).isSome = true ∧
    (after (step (withOps [0x04]))).isSome = true := by decide

theorem witness_StatusNumbers : (ready64 []).Inv ∧ ∃ t, step { withOps [0x00] with draws := [] } = .next t :=
  ⟨ready64_inv [], _, rfl⟩

theorem witness_ObservationPort : ((ready64 []).seq = .idle ∧ faultOf (step (ready64 [])) = some .awaitOperation ∧
      State.reset.seq = .idle ∧ faultOf (step State.reset) = some .awaitOperation) ∧
    faultOf (step { withOps [0x07] with draws := [none] }) = some (.awaitAnswer (.showAt 0 .mode)) ∧
    (ready64 []).ready = true ∧ 1024 < (ready64 []).fbSize ∧ (ready64 []).fbSize ≤ 1025 ∧
    State.reset.ready = false := by decide

theorem witness_AssemblerAgreesWithDecoder : assembleOp (.blitAbsent 3 4) = some (.blit 3 4 0 0 0 0 0) := by decide

theorem witness_AssemblyFormsGiveTheirWords : 8 ≤ 8 ∧ 1 ≤ 1 ∧ assemble (.setAreaFull 1 8) = some [0x05] := by decide

/-- SETAREA's second write waits; a block between operations; INIT without its second word. -/
theorem witness_HostMovesOnlyBetweenOperations :
    faultOf (step { withOps [0x0000007F00070005] with draws := [some (.ack 4), none] }) = some (.awaitAnswer (.areaAt .colRange)) ∧
    ((withSrc [(0, 1)]).Inv ∧ (withSrc [(0, 1)]).seq = .idle ∧ step (withSrc [(0, 1)]) = .fault .awaitOperation) ∧
    faultOf (step (withOps [0x03])) = some .awaitSecondWord :=
  ⟨by decide, ⟨withSrc_inv 0 1, rfl, rfl⟩, by decide⟩

/-- SHOW's last write waits, with no further answer withheld. -/
theorem witness_AnAnswerLiftsTheWait :
    faultOf (step { withOps [0x07] with draws := fullAcks ((showBytesOfRule (withOps [0x07])).take 32) ++ [none] }) =
      some (.awaitAnswer (.showAt 7 .data)) := by decide +kernel

end Sys2Proof.Tests
end

section
/-! The shared ground of the proofs: what a step and each operation can do, said once. -/

namespace Sys2Proof.Machine

/-! ### Fetching -/

/-- A step that answers a next state ran the fetched instruction, or passed over an illegal word. -/
theorem step_next {s t : State} (h : step s = .next t) :
    (∃ i, fetch s = .instr i ∧ exec i s = .next t) ∨
      ∃ len, fetch s = .illegal len ∧ t = raiseStatus .illegalOperation len s := by
  unfold step at h
  split at h
  · rename_i i hf
    exact .inl ⟨i, hf, h⟩
  · rename_i len hf
    exact .inr ⟨len, hf, (Host.Outcome.next.inj h).symm⟩
  · cases h
  · cases h

theorem step_of_fetch {s : State} {i : Instr} (h : fetch s = .instr i) : step s = exec i s := by
  simp [step, h]

/-- Between operations the block fetches the operation decoded at `opc` (30_encoding.md R70). -/
theorem fetch_operation {s : State} {w0 : Word} {i : Instr} {n : Nat} (hs : s.seq = .idle)
    (hw : s.ops[s.opc]? = some w0) (hd : decodeOp w0 s.ops[s.opc + 1]? = .instr i n) : fetch s = .instr i := by
  simp [fetch, hs, fetchOperation, hw, hd]

/-- With command bytes staged the block fetches the first command among them (log entry 3). -/
theorem fetch_command {s : State} {bs : List Byte} {i : Instr} {n : Nat} (hs : s.seq = .command bs)
    (hd : decodeCommand bs = .instr i n) : fetch s = .instr i := by
  simp [fetch, hs, fetchCommand, hd]

/-! ### What an instruction can do -/

/-- The readiness check fails whatever would follow it (60_exceptions.md R165). -/
theorem whenReady_notReady {s : State} (h : s.ready = false) (len : Nat) (k : Host.Outcome State Fault Refusal) :
    whenReady len s k = .next (raiseStatus .notReady len s) := by
  simp [whenReady, h]

theorem whenReady_next {len : Nat} {s t : State} {k : Host.Outcome State Fault Refusal}
    (h : whenReady len s k = .next t) :
    (s.ready = false ∧ t = raiseStatus .notReady len s) ∨ (s.ready = true ∧ k = .next t) := by
  cases hr : s.ready with
  | false => exact .inl ⟨rfl, (Host.Outcome.next.inj ((whenReady_notReady hr len k).symm.trans h)).symm⟩
  | true => exact .inr ⟨rfl, by simpa [whenReady, hr] using h⟩

theorem execGeom_next {gw gh : BitVec 16} {ga : BitVec 7} {s t : State} (h : execGeom gw gh ga s = .next t) :
    (supportedGeometry gw gh = true ∧ t = raiseStatus .ok 1 (s.construct gw gh ga)) ∨
      (supportedGeometry gw gh = false ∧ t = raiseStatus .invalidGeometry 1 s) := by
  unfold execGeom at h
  split at h
  · rename_i hg
    exact .inl ⟨hg, (Host.Outcome.next.inj h).symm⟩
  · rename_i hg
    exact .inr ⟨by simpa using hg, (Host.Outcome.next.inj h).symm⟩

theorem execRelease_next {s t : State} (h : execRelease s = .next t) :
    (s.ready = true ∧ t = raiseStatus .ok 1 { s with ready := false, fb := [] }) ∨
      (s.ready = false ∧ t = raiseStatus .ok 1 s) := by
  unfold execRelease at h
  split at h
  · rename_i hr
    exact .inl ⟨hr, (Host.Outcome.next.inj h).symm⟩
  · rename_i hr
    exact .inr ⟨by simpa using hr, (Host.Outcome.next.inj h).symm⟩

theorem execInit_next {p : BitVec 1} {c : InitConfig} {s t : State} (h : execInit p c s = .next t) :
    (s.ready = false ∧ t = raiseStatus .notReady 2 s) ∨
      (s.ready = true ∧ (p = 0 ∨ validConfig c s.height = false) ∧ t = raiseStatus .invalidConfig 2 s) ∨
      (s.ready = true ∧ p ≠ 0 ∧ validConfig c s.height = true ∧
        finishEmitted 2 (emitAll (initWrites c s.height) s) = .next t) := by
  obtain hn | ⟨hr, h⟩ := whenReady_next h
  · exact .inl hn
  · split at h
    · rename_i hp
      exact .inr (.inl ⟨hr, .inl hp, (Host.Outcome.next.inj h).symm⟩)
    · rename_i hp
      split at h
      · rename_i hv
        exact .inr (.inr ⟨hr, hp, hv, h⟩)
      · rename_i hv
        exact .inr (.inl ⟨hr, .inr (by simpa using hv), (Host.Outcome.next.inj h).symm⟩)

theorem execClear_next {s t : State} (h : execClear s = .next t) :
    (s.ready = false ∧ t = raiseStatus .notReady 1 s) ∨
      (s.ready = true ∧ t = raiseStatus .ok 1 s.clearPix) := by
  obtain hn | ⟨hr, h⟩ := whenReady_next h
  · exact .inl hn
  · exact .inr ⟨hr, (Host.Outcome.next.inj h).symm⟩

theorem execSetArea_next {sp ep sc ec : BitVec 8} {s t : State} (h : execSetArea sp ep sc ec s = .next t) :
    (s.ready = false ∧ t = raiseStatus .notReady 1 s) ∨
      (s.ready = true ∧ areaOk s.width s.height sp ep sc ec = false ∧ t = raiseStatus .invalidArea 1 s) ∨
      (s.ready = true ∧ areaOk s.width s.height sp ep sc ec = true ∧
        finishEmitted 1 (emitAll (areaWrites sp ep sc ec) s) = .next t) := by
  obtain hn | ⟨hr, h⟩ := whenReady_next h
  · exact .inl hn
  · split at h
    · rename_i ha
      exact .inr (.inr ⟨hr, ha, h⟩)
    · rename_i ha
      exact .inr (.inl ⟨hr, by simpa using ha, (Host.Outcome.next.inj h).symm⟩)

theorem execBlit_next {x y : BitVec 16} {bp dp : BitVec 1} {bw bh : BitVec 16} {base : BitVec 32} {s t : State}
    (h : execBlit x y bp dp bw bh base s = .next t) :
    (s.ready = false ∧ t = raiseStatus .notReady 2 s) ∨
      (s.ready = true ∧ bitmapOk bp dp bw bh = false ∧ t = raiseStatus .invalidBitmap 2 s) ∨
      (s.ready = true ∧ bitmapOk bp dp bw bh = true ∧ offScreen s.width s.height x y = true ∧
        t = raiseStatus .ok 2 s) ∨
      (s.ready = true ∧ bitmapOk bp dp bw bh = true ∧ offScreen s.width s.height x y = false ∧
        runBlit (blitJob s.width s.height x y bw bh base) s = .next t) := by
  obtain hn | ⟨hr, h⟩ := whenReady_next h
  · exact .inl hn
  · split at h
    · rename_i hb
      split at h
      · rename_i ho
        exact .inr (.inr (.inl ⟨hr, hb, ho, (Host.Outcome.next.inj h).symm⟩))
      · rename_i ho
        exact .inr (.inr (.inr ⟨hr, hb, by simpa using ho, h⟩))
    · rename_i hb
      exact .inr (.inl ⟨hr, by simpa using hb, (Host.Outcome.next.inj h).symm⟩)

theorem execShow_next {s t : State} (h : execShow s = .next t) :
    (s.ready = false ∧ t = raiseStatus .notReady 1 s) ∨
      (s.ready = true ∧ finishEmitted 1 (emitAll (showWrites s) s) = .next t) :=
  whenReady_next h

/-- Each of the twenty-three controller commands is one command write (30_encoding.md R71, R72). -/
theorem exec_command {i : Instr} (h : i.isOperation = false) (s : State) : exec i s = sendCommand i s := by
  cases i <;> cases h <;> rfl

end Sys2Proof.Machine
end

section
/-! The invariant: what keeps it, operation by operation. -/

namespace Sys2Proof.Machine

/-- The invariant reads only the geometry, `READY`, the two memories, the status and the transient state. -/
theorem State.Inv.transfer {s t : State} (h : s.Inv) (hw : t.geomW = s.geomW) (hh : t.geomH = s.geomH)
    (hr : t.ready = s.ready) (hfb : t.fb = s.fb) (hsrc : t.src = s.src) (hst : t.status ≠ .invalidFont)
    (hq : t.seq = .idle ∨ ∃ staged, t.seq = .command staged) : t.Inv where
  geometry := by simpa only [hw, hh, hr] using h.geometry
  fbCanonical := hfb ▸ h.fbCanonical
  fbBounded := by
    have hsize : t.fbSize = s.fbSize := by simp only [State.fbSize, State.npix, State.width, State.height, hw, hh]
    simpa only [hfb, hsize] using h.fbBounded
  fbReleased := by simpa only [hr, hfb] using h.fbReleased
  markerKept := by simpa only [hr, State.fbByte, hfb] using h.markerKept
  srcCanonical := hsrc ▸ h.srcCanonical
  statusProduced := hst
  quiescent := hq

/-- Ending with any status the block produces keeps the invariant. -/
theorem raiseStatus_inv {s : State} (h : s.Inv) {c : StatusCode} (hc : c ≠ .invalidFont) (len : Nat) :
    (raiseStatus c len s).Inv :=
  h.transfer rfl rfl rfl rfl rfl hc (.inl rfl)

/-- Bus writes, whatever their answers, keep the invariant. -/
theorem finishEmitted_inv {len : Nat} {ws : List (Seq × List Byte)} {s t : State} (h : s.Inv)
    (ht : finishEmitted len (emitAll ws s) = .next t) : t.Inv := by
  obtain ⟨-, hw, hh, hr, -, hfb, -, hsrc, hq, hend⟩ := finishEmitted_next ht
  have hst : t.status ≠ .invalidFont := by
    obtain ⟨hok, -⟩ | ⟨hfail, -⟩ := hend
    · simp [hok]
    · simp [hfail]
  exact h.transfer hw hh hr hfb hsrc hst (.inl hq)

theorem sendCommand_inv {i : Instr} {s t : State} (h : s.Inv) (ht : sendCommand i s = .next t) : t.Inv := by
  obtain ⟨b, a, -, hq, -⟩ := sendCommand_next ht
  exact h.transfer b.geomW b.geomH b.ready b.fb b.src (b.status ▸ h.statusProduced)
    (hq ▸ afterWrite_quiescent _ _ _)

/-- While `READY` is 1, a canonical store with no index at or above `FBSIZE` and the marker byte of the old one keeps the
invariant. -/
theorem withFb_inv {s : State} (h : s.Inv) (hr : s.ready = true) {fb : Memory} (hc : Memory.wf (some 0) fb = true)
    (hb : ∀ c ∈ fb, c.1 < s.fbSize) (hm : byteAt fb 0 = byteAt s.fb 0) : ({ s with fb := fb } : State).Inv where
  geometry := h.geometry
  fbCanonical := hc
  fbBounded := hb
  fbReleased hn := absurd (hr.symm.trans hn) (by decide)
  markerKept _ := hm.trans (h.markerKept hr)
  srcCanonical := h.srcCanonical
  statusProduced := h.statusProduced
  quiescent := h.quiescent

/-- A supported GEOM makes a legal store, whatever the block held before (40_lifecycle.md R80). -/
theorem construct_inv {s : State} (h : s.Inv) {gw gh : BitVec 16} (hg : supportedGeometry gw gh = true)
    (ga : BitVec 7) : (s.construct gw gh ga).Inv where
  geometry _ := hg
  fbCanonical := wf_freshFb _
  fbBounded c hc := by
    rw [mem_freshFb hc]
    exact Nat.succ_pos _
  fbReleased hn := by cases hn
  markerKept _ := by
    rw [State.fbByte, construct_fb, byteAt, read_freshFb]
    rfl
  srcCanonical := h.srcCanonical
  statusProduced := h.statusProduced
  quiescent := h.quiescent

theorem released_inv {s : State} (h : s.Inv) : ({ s with ready := false, fb := [] } : State).Inv where
  geometry hn := by cases hn
  fbCanonical := rfl
  fbBounded _ hc := by cases hc
  fbReleased _ := rfl
  markerKept hn := by cases hn
  srcCanonical := h.srcCanonical
  statusProduced := h.statusProduced
  quiescent := h.quiescent

/-- CLEAR drops cells from index 1 on, so the marker stays (42_fbmgr.md R130). -/
theorem clearPix_inv {s : State} (h : s.Inv) (hr : s.ready = true) : s.clearPix.Inv := by
  refine withFb_inv h hr (Memory.wf_forget _ _ _ _ h.fbCanonical) (fun c hc => h.fbBounded c (Memory.mem_forget hc)) ?_
  simp [byteAt, Memory.read_forget]

/-- A job's rows start at pixel indices that do not fall from one row to the next. -/
theorem BlitJob.dst_mono (j : BlitJob) {i k : Nat} (h : i ≤ k) : j.dst i ≤ j.dst k := by
  have hpage : (j.y + i) / Config.pageRows ≤ (j.y + k) / Config.pageRows := Nat.div_le_div_right (by omega)
  exact Nat.add_le_add_right (Nat.mul_le_mul_right j.w hpage) j.x

/-- No index that a drawn row touches lies above the job's highest index. -/
theorem BlitJob.le_lastIndex (j : BlitJob) {i n : Nat} (hi : i < j.dh) (hn : n < 1 + j.dst i + j.dw)
    (hlo : 1 + j.dst i ≤ n) : n ≤ j.lastIndex := by
  have hmono : j.dst i ≤ j.dst (j.dh - 1) := j.dst_mono (by omega)
  simp only [BlitJob.lastIndex]
  omega

/-- The composite checks its highest index first, so it lists none at or above `FBSIZE` (20_memory.md R41), and its rows lie
above the marker (43_compositor.md R140). -/
theorem runBlit_inv {j : BlitJob} {s t : State} (h : s.Inv) (ht : runBlit j s = .next t) : t.Inv := by
  obtain ⟨hlast, fb, hrows, rfl⟩ := runBlit_next ht
  obtain ⟨hr, hlast⟩ : s.ready = true ∧ j.lastIndex < s.fbSize := by simpa [State.fbHolds] using hlast
  have drawn := blitRows_ok hrows
  have hbound : ∀ c ∈ fb, c.1 < s.fbSize := by
    intro c hc
    obtain hold | ⟨i, hi, hlo, hhi⟩ := drawn.cells c hc
    · exact h.fbBounded c hold
    · exact (j.le_lastIndex hi hhi hlo).trans_lt hlast
  exact raiseStatus_inv (withFb_inv h hr (drawn.canonical h.fbCanonical) hbound drawn.marker) (by decide) 2

theorem execGeom_inv {gw gh : BitVec 16} {ga : BitVec 7} {s t : State} (h : s.Inv)
    (ht : execGeom gw gh ga s = .next t) : t.Inv := by
  obtain ⟨hg, rfl⟩ | ⟨-, rfl⟩ := execGeom_next ht
  · exact raiseStatus_inv (construct_inv h hg ga) (by decide) 1
  · exact raiseStatus_inv h (by decide) 1

theorem execRelease_inv {s t : State} (h : s.Inv) (ht : execRelease s = .next t) : t.Inv := by
  obtain ⟨-, rfl⟩ | ⟨-, rfl⟩ := execRelease_next ht
  · exact raiseStatus_inv (released_inv h) (by decide) 1
  · exact raiseStatus_inv h (by decide) 1

theorem execInit_inv {p : BitVec 1} {c : InitConfig} {s t : State} (h : s.Inv) (ht : execInit p c s = .next t) :
    t.Inv := by
  obtain ⟨-, rfl⟩ | ⟨-, -, rfl⟩ | ⟨-, -, -, ht⟩ := execInit_next ht
  · exact raiseStatus_inv h (by decide) 2
  · exact raiseStatus_inv h (by decide) 2
  · exact finishEmitted_inv h ht

theorem execClear_inv {s t : State} (h : s.Inv) (ht : execClear s = .next t) : t.Inv := by
  obtain ⟨-, rfl⟩ | ⟨hr, rfl⟩ := execClear_next ht
  · exact raiseStatus_inv h (by decide) 1
  · exact raiseStatus_inv (clearPix_inv h hr) (by decide) 1

theorem execSetArea_inv {sp ep sc ec : BitVec 8} {s t : State} (h : s.Inv)
    (ht : execSetArea sp ep sc ec s = .next t) : t.Inv := by
  obtain ⟨-, rfl⟩ | ⟨-, -, rfl⟩ | ⟨-, -, ht⟩ := execSetArea_next ht
  · exact raiseStatus_inv h (by decide) 1
  · exact raiseStatus_inv h (by decide) 1
  · exact finishEmitted_inv h ht

theorem execBlit_inv {x y : BitVec 16} {bp dp : BitVec 1} {bw bh : BitVec 16} {base : BitVec 32} {s t : State}
    (h : s.Inv) (ht : execBlit x y bp dp bw bh base s = .next t) : t.Inv := by
  obtain ⟨-, rfl⟩ | ⟨-, -, rfl⟩ | ⟨-, -, -, rfl⟩ | ⟨-, -, -, ht⟩ := execBlit_next ht
  · exact raiseStatus_inv h (by decide) 2
  · exact raiseStatus_inv h (by decide) 2
  · exact raiseStatus_inv h (by decide) 2
  · exact runBlit_inv h ht

theorem execShow_inv {s t : State} (h : s.Inv) (ht : execShow s = .next t) : t.Inv := by
  obtain ⟨-, rfl⟩ | ⟨-, ht⟩ := execShow_next ht
  · exact raiseStatus_inv h (by decide) 1
  · exact finishEmitted_inv h ht

/-- Every instruction keeps the invariant: each of the seven operations by its own lemma, a controller command as one bus
write. -/
theorem exec_inv {i : Instr} {s t : State} (h : s.Inv) (ht : exec i s = .next t) : t.Inv := by
  cases hop : i.isOperation with
  | false => exact sendCommand_inv h ((exec_command hop s).symm.trans ht)
  | true =>
    cases i with
    | geom gw gh ga => exact execGeom_inv h ht
    | release => exact execRelease_inv h ht
    | init p c => exact execInit_inv h ht
    | clear => exact execClear_inv h ht
    | setArea sp ep sc ec => exact execSetArea_inv h ht
    | blit x y bp dp bw bh base => exact execBlit_inv h ht
    | showFrame => exact execShow_inv h ht
    | _ => cases hop

theorem step_inv {s t : State} (h : s.Inv) (ht : step s = .next t) : t.Inv := by
  obtain ⟨i, -, ht⟩ | ⟨len, -, rfl⟩ := step_next ht
  · exact exec_inv h ht
  · exact raiseStatus_inv h (by decide) len

/-- Settles O10, by the cases of what a step can do. -/
theorem everyStepKeepsTheInvariant : Obligations.EveryStepKeepsTheInvariant :=
  fun _ _ h ht => step_inv h ht

end Sys2Proof.Machine
end

section
/-! The other statements on the scope: fetching, readiness, the observation port. -/

namespace Sys2Proof.Machine

/-- Settles O5: `step` on a fetched instruction is its `exec`. -/
theorem stepRunsTheDecodedInstruction : Obligations.StepRunsTheDecodedInstruction :=
  ⟨fun _ _ _ _ hs hw hd => step_of_fetch (fetch_operation hs hw hd),
    fun _ _ _ _ hs hd => step_of_fetch (fetch_command hs hd)⟩

/-- Settles O16: each of the five is guarded by the readiness check, which ends it before its own checks. -/
theorem notReadyComesFirst : Obligations.NotReadyComesFirst := by
  intro s hr
  refine ⟨fun p c => ?init, ?clear, fun sp ep sc ec => ?setArea, fun x y bp dp bw bh base => ?blit, ?showFrame⟩
  case init => exact whenReady_notReady hr 2 _
  case clear => exact whenReady_notReady hr 1 _
  case setArea => exact whenReady_notReady hr 1 _
  case blit => exact whenReady_notReady hr 2 _
  case showFrame => exact whenReady_notReady hr 1 _

/-- An index of `FB` holds a byte exactly while `READY` is 1 and the index is below `FBSIZE` (00_scope.md R10). -/
theorem State.fbHolds_iff (s : State) (j : Nat) : s.fbHolds j = true ↔ s.ready = true ∧ j < s.fbSize := by
  simp [State.fbHolds]

section
variable {s : State} (hs : s.seq = .idle) (ha : ∀ q, step s ≠ .fault (.awaitAnswer q))
include hs ha

/-- Between operations a read of an index that holds a byte gives it. -/
theorem observeFb_of_holds {j : Nat} (hj : s.fbHolds j = true) : observeFb j s = .ok (s.fbByte j) := by
  rw [observeFb, readBetweenOperations_idle _ hs ha, if_pos hj]

/-- Between operations a read of an index that holds no byte is `NoValue`. -/
theorem observeFb_of_not_holds {j : Nat} (hj : ¬ s.fbHolds j = true) :
    observeFb j s = .error (.fault (.noValue j)) := by
  rw [observeFb, readBetweenOperations_idle _ hs ha, if_neg hj]

end

/-- Settles O55: between operations a read is answered by what the register or the byte holds; while a write waits it is
refused. -/
theorem observationPort : Obligations.ObservationPort := by
  refine ⟨fun s j hs ha => ⟨readBetweenOperations_idle _ hs ha, fun hr hj => ?byte, fun _ hj => ?above,
    fun hr => ?released⟩, fun s q j h => ⟨readBetweenOperations_awaits _ h, readBetweenOperations_awaits _ h⟩⟩
  case byte => exact observeFb_of_holds hs ha ((s.fbHolds_iff j).mpr ⟨hr, hj⟩)
  case above => exact observeFb_of_not_holds hs ha fun hh => Nat.not_lt.mpr hj ((s.fbHolds_iff j).mp hh).2
  case released => exact observeFb_of_not_holds hs ha fun hh => by simp [State.fbHolds_iff, hr] at hh

end Sys2Proof.Machine
end

section
/-! The length of what is decoded. -/

namespace Sys2Proof

/-- An opcode selects an operation of the length that the opcode alone gives (30_encoding.md R61). -/
theorem selectOp_some {op : Byte} {w0 w1 : Word} {i : Instr} (h : selectOp op w0 w1 = some i) :
    i.isOperation = true ∧ encodedLength (encode i) = lenOf op := by
  unfold selectOp at h
  split_ifs at h <;> obtain rfl := Option.some.inj h <;> subst op <;> exact ⟨rfl, rfl⟩

/-- An illegal opcode is one word long (30_encoding.md R69). -/
theorem selectOp_none {op : Byte} {w0 w1 : Word} (h : selectOp op w0 w1 = none) : lenOf op = 1 := by
  unfold selectOp at h
  split_ifs at h with h1 h2 h3 h4 h5 h6
  exact if_neg (not_or.mpr ⟨h3, h6⟩)

/-- What is decoded has the length its opcode gives, legal or not. -/
def Decoded.HasLength (n : Nat) : Decoded → Prop
  | .instr i _ => i.isOperation = true ∧ encodedLength (encode i) = n
  | .illegal _ len => len = n
  | .incomplete => True

theorem decodeChecked_hasLength (op : Byte) (w0 w1 : Word) : (decodeChecked op w0 w1).HasLength (lenOf op) := by
  unfold decodeChecked
  split
  · rename_i hsel
    exact (selectOp_none hsel).symm
  · rename_i i hsel
    split
    · rfl
    · exact selectOp_some hsel

/-- Every word is as long as its opcode says (30_encoding.md R60, R61, R69). -/
theorem decodeOp_hasLength (w0 : Word) (w1 : Option Word) : (decodeOp w0 w1).HasLength (lenOf (field w0 0 8)) := by
  unfold decodeOp
  split
  · split
    · trivial
    · exact decodeChecked_hasLength _ _ _
  · exact decodeChecked_hasLength _ _ _

/-- The opcodes of two words are INIT's and BLIT's (30_encoding.md R61). -/
theorem lenOf_opcode (w0 : Word) :
    lenOf (field w0 0 8) = if w0.toNat % 256 = 3 ∨ w0.toNat % 256 = 6 then 2 else 1 := by
  have hop : (field w0 0 8).toNat = w0.toNat % 256 := by simp [field, BitVec.extractLsb'_toNat]
  simp only [lenOf, ← hop, ← BitVec.toNat_inj]
  rfl

end Sys2Proof
end

section
/-! Everything an operation can do, said once: what is fetched between operations, the cases of an operation's end, what a run
of bus writes adds to the transcript and reads of the state. -/

namespace Sys2Proof.Machine

/-! ### Fetching between operations -/

/-- Between operations the fetched instruction is the operation decoded at `opc`. -/
theorem decodeOp_of_fetch_instr {s : State} {i : Instr} (hs : s.seq = .idle) (h : fetch s = .instr i) :
    ∃ w0 n, s.ops[s.opc]? = some w0 ∧ decodeOp w0 s.ops[s.opc + 1]? = .instr i n := by
  simp only [fetch, hs, fetchOperation] at h
  split at h
  · cases h
  · rename_i w0 hw
    split at h
    · rename_i j n hd
      obtain rfl := Fetched.instr.inj h
      exact ⟨w0, n, hw, hd⟩
    · cases h
    · cases h

/-- Between operations an illegal word stands at `opc`. -/
theorem decodeOp_of_fetch_illegal {s : State} {len : Nat} (hs : s.seq = .idle) (h : fetch s = .illegal len) :
    ∃ w0 why, s.ops[s.opc]? = some w0 ∧ decodeOp w0 s.ops[s.opc + 1]? = .illegal why len := by
  simp only [fetch, hs, fetchOperation] at h
  split at h
  · cases h
  · rename_i w0 hw
    split at h
    · cases h
    · rename_i why n hd
      obtain rfl := Fetched.illegal.inj h
      exact ⟨w0, why, hw, hd⟩
    · cases h

/-- Between operations only a host operation is fetched, no controller command. -/
theorem isOperation_of_fetch {s : State} {i : Instr} (hs : s.seq = .idle) (h : fetch s = .instr i) :
    i.isOperation = true := by
  obtain ⟨w0, n, -, hd⟩ := decodeOp_of_fetch_instr hs h
  have hlen := decodeOp_hasLength w0 s.ops[s.opc + 1]?
  rw [hd] at hlen
  exact hlen.1

/-! ### How an operation ends -/

/-- Everything a host operation can end in, started in `s`: a status alone, or one of the four writers' effects, or a run of
bus writes. -/
inductive OperationEnd (s : State) : Instr → State → Prop
  /-- Nothing but `STATUS`, `opc` and the transient state (60_exceptions.md R166). -/
  | ended (i : Instr) (code : StatusCode) : OperationEnd s i (raiseStatus code (encodedLength (encode i)) s)
  /-- GEOM on a supported pair (40_lifecycle.md R80). -/
  | constructed (gw gh : BitVec 16) (ga : BitVec 7) :
      OperationEnd s (.geom gw gh ga) (raiseStatus .ok 1 (s.construct gw gh ga))
  /-- RELEASE of a ready block (40_lifecycle.md R81). -/
  | released : OperationEnd s .release (raiseStatus .ok 1 { s with ready := false, fb := [] })
  /-- CLEAR of a ready block (42_fbmgr.md R130). -/
  | cleared : OperationEnd s .clear (raiseStatus .ok 1 s.clearPix)
  /-- BLIT of a bitmap with a part on the panel (43_compositor.md R140). -/
  | drawn {x y : BitVec 16} {bp dp : BitVec 1} {bw bh : BitVec 16} {base : BitVec 32} {j : BlitJob} {fb : Memory}
      (rows : DrawnRows s.src j j.dh s.fb fb) :
      OperationEnd s (.blit x y bp dp bw bh base) (raiseStatus .ok 2 { s with fb := fb })
  /-- INIT, SETAREA or SHOW past its checks. -/
  | emitted {i : Instr} {ws : List (Seq × List Byte)} {t : State}
      (writes : finishEmitted (encodedLength (encode i)) (emitAll ws s) = .next t) : OperationEnd s i t

theorem exec_operationEnd {i : Instr} {s t : State} (hop : i.isOperation = true) (h : exec i s = .next t) :
    OperationEnd s i t := by
  cases i with
  | geom gw gh ga =>
    obtain ⟨-, rfl⟩ | ⟨-, rfl⟩ := execGeom_next h
    · exact .constructed gw gh ga
    · exact .ended (.geom gw gh ga) _
  | release =>
    obtain ⟨-, rfl⟩ | ⟨-, rfl⟩ := execRelease_next h
    · exact .released
    · exact .ended .release _
  | init p c =>
    obtain ⟨-, rfl⟩ | ⟨-, -, rfl⟩ | ⟨-, -, -, h⟩ := execInit_next h
    · exact .ended (.init p c) _
    · exact .ended (.init p c) _
    · exact .emitted h
  | clear =>
    obtain ⟨-, rfl⟩ | ⟨-, rfl⟩ := execClear_next h
    · exact .ended .clear _
    · exact .cleared
  | setArea sp ep sc ec =>
    obtain ⟨-, rfl⟩ | ⟨-, -, rfl⟩ | ⟨-, -, h⟩ := execSetArea_next h
    · exact .ended (.setArea sp ep sc ec) _
    · exact .ended (.setArea sp ep sc ec) _
    · exact .emitted h
  | blit x y bp dp bw bh base =>
    obtain ⟨-, rfl⟩ | ⟨-, -, rfl⟩ | ⟨-, -, -, rfl⟩ | ⟨-, -, -, h⟩ := execBlit_next h
    · exact .ended (.blit x y bp dp bw bh base) _
    · exact .ended (.blit x y bp dp bw bh base) _
    · exact .ended (.blit x y bp dp bw bh base) _
    · obtain ⟨-, fb, hrows, rfl⟩ := runBlit_next h
      exact .drawn (blitRows_ok hrows)
  | showFrame =>
    obtain ⟨-, rfl⟩ | ⟨-, h⟩ := execShow_next h
    · exact .ended .showFrame _
    · exact .emitted h
  | _ => cases hop

/-! ### The transcript, the store and the status -/

/-- The entries a run of bus writes adds are some of its writes, each with an answer (20_memory.md R50). -/
theorem finishEmitted_entries {len : Nat} {ws : List (Seq × List Byte)} {s t : State}
    (h : finishEmitted len (emitAll ws s) = .next t) :
    ∃ es, t.tr = s.tr ++ es ∧ ∀ e ∈ es, ∃ w ∈ ws, ∃ a, e = entryOf s w.2 a := by
  obtain ⟨-, -, -, -, -, -, -, -, -, ⟨-, htr⟩ | ⟨-, pre, w, post, a, rfl, -, htr⟩⟩ := finishEmitted_next h
  · refine ⟨_, htr, fun e he => ?_⟩
    obtain ⟨v, hv, rfl⟩ := List.mem_map.mp he
    exact ⟨v, hv, _, rfl⟩
  · refine ⟨_, htr.trans (List.append_assoc _ _ _), fun e he => ?_⟩
    obtain he | he := List.mem_append.mp he
    · obtain ⟨v, hv, rfl⟩ := List.mem_map.mp he
      exact ⟨v, List.mem_append_left _ hv, _, rfl⟩
    · exact ⟨w, by simp, a, List.mem_singleton.mp he⟩

/-- `FB[j]` reads the store alone. -/
theorem State.fbByte_congr {s t : State} (h : t.fb = s.fb) (j : Nat) : t.fbByte j = s.fbByte j := by
  rw [State.fbByte, State.fbByte, h]

/-- CLEAR forgets indices from 1 on (42_fbmgr.md R130). -/
theorem clearPix_marker (s : State) : s.clearPix.fbByte 0 = s.fbByte 0 := by
  simp [State.fbByte, byteAt, Memory.read_forget]

theorem busWrite_withStatus (bytes : List Byte) (s : State) (c : StatusCode) :
    busWrite bytes { s with status := c } = (busWrite bytes s).map fun r => (r.1, { r.2 with status := c }) := by
  rcases s with ⟨_, _, _, _, _, _, _, _, _, _, _, _ | ⟨_ | a, ds⟩⟩ <;> rfl

/-- A run of bus writes ends with the very same state whatever `STATUS` held before it. -/
theorem finishEmitted_withStatus (len : Nat) (ws : List (Seq × List Byte)) (s : State) (c : StatusCode) :
    finishEmitted len (emitAll ws { s with status := c }) = finishEmitted len (emitAll ws s) := by
  induction ws generalizing s with
  | nil => rfl
  | cons w ws ih =>
    obtain ⟨q, bytes⟩ := w
    simp only [emitAll]
    rw [show ({ s with status := c, seq := q } : State) = { ({ s with seq := q } : State) with status := c } from rfl,
      busWrite_withStatus]
    cases busWrite bytes { s with seq := q } with
    | none => rfl
    | some r =>
      cases hack : acked bytes r.1 with
      | true => simpa [hack] using ih r.2
      | false => simp [hack, finishEmitted, raiseStatus]

/-- The geometry of a legal ready block is one of the two pairs of `GEOMS` (10_state.md R32). -/
theorem State.Inv.geometry_cases {s : State} (h : s.Inv) (hr : s.ready = true) :
    s.width = 128 ∧ (s.height = 64 ∨ s.height = 32) := by
  have hg := h.geometry hr
  simp only [supportedGeometry, Config.geoms, decide_eq_true_eq, List.mem_cons, Prod.mk.injEq, List.not_mem_nil,
    or_false] at hg
  simp only [State.width, State.height]
  omega

/-- The register window beyond its five registers (10_state.md R27). -/
theorem windowValue_of_five_le {k : Nat} (h : 5 ≤ k) (s : State) : windowValue k s = 0 := by
  obtain ⟨n, rfl⟩ := Nat.exists_eq_add_of_le' h
  rfl

/-- The largest number of R161 is IllegalOperation's. -/
theorem StatusCode.number_le (c : StatusCode) : c.number.toNat ≤ 8 := by
  cases c <;> decide

end Sys2Proof.Machine
end

section
/-! The statements on the state: reset, geometry, `opc`, transcript, writers, STATUS, the register window. -/

namespace Sys2Proof.Machine

/-- Settles O9: nothing is listed and nothing is ready after reset. -/
theorem resetMeetsTheInvariant : Obligations.ResetMeetsTheInvariant where
  geometry h := by cases h
  fbCanonical := reset_memories_wf.1
  fbBounded _ h := by cases h
  fbReleased _ := rfl
  markerKept h := by cases h
  srcCanonical := reset_memories_wf.2
  statusProduced h := by cases h
  quiescent := .inl rfl

/-- After reset no operation is supplied, so the block is idle and waits for no answer (log entry 4). -/
theorem step_reset (q : Seq) : step State.reset ≠ .fault (.awaitAnswer q) := by
  rw [show step State.reset = .fault .awaitOperation from rfl]
  simp

theorem windowValue_reset (k : Nat) : windowValue k State.reset = 0 := by
  obtain hk | hk := Nat.lt_or_ge k 5
  · interval_cases k <;> rfl
  · exact windowValue_of_five_le hk _

/-- Settles O8: the values of R36 stand in the definition; the host reads them between operations. -/
theorem resetState : Obligations.ResetState := by
  refine ⟨rfl, rfl, rfl, rfl, rfl, rfl, rfl, rfl, fun j => ?byte, fun j => ?window, fun w0 ws i n hd => ?operation⟩
  case byte => exact observeFb_of_not_holds rfl step_reset (by simp [State.fbHolds_iff, State.reset])
  case window => rw [readWindow, readBetweenOperations_idle _ rfl step_reset, windowValue_reset]
  case operation => exact step_of_fetch (fetch_operation (w0 := w0) rfl rfl (List.head?_eq_getElem? ▸ hd))

/-- Settles O11: the invariant gives the pair, and every step keeps the invariant. -/
theorem readyGeometryIsSupported : Obligations.ReadyGeometryIsSupported := by
  refine ⟨fun s h hr => ?_, fun s t h ht hr => ?_⟩
  · obtain ⟨hw, hh | hh⟩ := h.geometry_cases hr <;> simp [State.pages, Config.pageRows, hw, hh]
  · obtain ⟨hw, hh | hh⟩ := (step_inv h ht).geometry_cases hr <;> simp [hw, hh]

/-- Whatever its status, an operation moves `opc` past its own words (10_state.md R21). -/
theorem OperationEnd.opc {i : Instr} {s t : State} (h : OperationEnd s i t) :
    t.opc = s.opc + encodedLength (encode i) := by
  cases h with
  | ended _ code => rfl
  | constructed gw gh ga => rfl
  | released => rfl
  | cleared => rfl
  | drawn rows => rfl
  | emitted writes => exact (finishEmitted_next writes).1

/-- Settles O44: every way an operation ends adds its length, and so does an illegal word. -/
theorem opcAdvancesByLength : Obligations.OpcAdvancesByLength := by
  refine ⟨fun i s t hop h => (exec_operationEnd hop h).opc, fun s t w0 hs hw h => ?step, rfl⟩
  case step =>
    rw [← lenOf_opcode]
    have hlen := decodeOp_hasLength w0 s.ops[s.opc + 1]?
    obtain ⟨i, hf, h⟩ | ⟨len, hf, rfl⟩ := step_next h
    · obtain ⟨w, n, hw', hd⟩ := decodeOp_of_fetch_instr hs hf
      obtain rfl := Option.some.inj (hw.symm.trans hw')
      rw [hd] at hlen
      obtain ⟨hop, hlen⟩ := hlen
      rw [(exec_operationEnd hop h).opc, hlen]
    · obtain ⟨w, why, hw', hd⟩ := decodeOp_of_fetch_illegal hs hf
      obtain rfl := Option.some.inj (hw.symm.trans hw')
      rw [hd] at hlen
      exact congrArg (s.opc + ·) hlen

/-- An operation adds entries to the transcript, each addressed to DEVADDR. -/
theorem OperationEnd.entries {i : Instr} {s t : State} (h : OperationEnd s i t) :
    ∃ es, t.tr = s.tr ++ es ∧ ∀ e ∈ es, e.addr = s.devAddr := by
  have none_added : ∃ es, s.tr = s.tr ++ es ∧ ∀ e ∈ es, e.addr = s.devAddr := ⟨[], by simp⟩
  cases h with
  | ended _ code => exact none_added
  | constructed gw gh ga => exact none_added
  | released => exact none_added
  | cleared => exact none_added
  | drawn rows => exact none_added
  | emitted writes =>
    obtain ⟨es, htr, hes⟩ := finishEmitted_entries writes
    refine ⟨es, htr, fun e he => ?_⟩
    obtain ⟨w, -, a, rfl⟩ := hes e he
    rfl

/-- Settles O48: an operation's end, a command's one write and an illegal word each only add entries. -/
theorem transcriptOnlyGrows : Obligations.TranscriptOnlyGrows := by
  intro s t h
  obtain ⟨i, -, h⟩ | ⟨len, -, rfl⟩ := step_next h
  · cases hop : i.isOperation with
    | true => exact (exec_operationEnd hop h).entries
    | false =>
      obtain ⟨-, a, htr, -, -⟩ := sendCommand_next ((exec_command hop s).symm.trans h)
      exact ⟨_, htr, by simp [entryOf]⟩
  · exact ⟨[], by simp⟩

/-- No operation writes the operation stream or the source memory (20_memory.md R43, R58). -/
theorem OperationEnd.inputs {i : Instr} {s t : State} (h : OperationEnd s i t) : t.ops = s.ops ∧ t.src = s.src := by
  cases h with
  | ended _ code => exact ⟨rfl, rfl⟩
  | constructed gw gh ga => exact ⟨rfl, rfl⟩
  | released => exact ⟨rfl, rfl⟩
  | cleared => exact ⟨rfl, rfl⟩
  | drawn rows => exact ⟨rfl, rfl⟩
  | emitted writes =>
    obtain ⟨-, -, -, -, -, -, hops, hsrc, -, -⟩ := finishEmitted_next writes
    exact ⟨hops, hsrc⟩

/-- What `i` may have written of the registers and the store, going from `s` to `t`. -/
def WritersOnly (i : Instr) (s t : State) : Prop :=
  (∀ gw gh ga, i ≠ .geom gw gh ga) →
    t.geomW = s.geomW ∧ t.geomH = s.geomH ∧ t.devAddr = s.devAddr ∧
    (i ≠ .release → t.ready = s.ready ∧ t.fbByte 0 = s.fbByte 0 ∧
      (i ≠ .clear → (∀ x y bp dp bw bh base, i ≠ .blit x y bp dp bw bh base) →
        t.fb = s.fb ∧ ∀ j, t.fbByte j = s.fbByte j))

/-- An instruction that writes neither registers nor store. -/
theorem WritersOnly.of_kept {i : Instr} {s t : State} (hw : t.geomW = s.geomW) (hh : t.geomH = s.geomH)
    (ha : t.devAddr = s.devAddr) (hr : t.ready = s.ready) (hfb : t.fb = s.fb) : WritersOnly i s t :=
  fun _ => ⟨hw, hh, ha, fun _ => ⟨hr, State.fbByte_congr hfb 0, fun _ _ => ⟨hfb, State.fbByte_congr hfb⟩⟩⟩

theorem OperationEnd.writersOnly {i : Instr} {s t : State} (h : OperationEnd s i t) : WritersOnly i s t := by
  cases h with
  | ended _ code => exact .of_kept rfl rfl rfl rfl rfl
  | constructed gw gh ga => exact fun hg => absurd rfl (hg gw gh ga)
  | released => exact fun _ => ⟨rfl, rfl, rfl, fun hr => absurd rfl hr⟩
  | cleared => exact fun _ => ⟨rfl, rfl, rfl, fun _ => ⟨rfl, clearPix_marker s, fun hc => absurd rfl hc⟩⟩
  | drawn rows => exact fun _ => ⟨rfl, rfl, rfl, fun _ => ⟨rfl, rows.marker, fun _ hb => absurd rfl (hb _ _ _ _ _ _ _)⟩⟩
  | emitted writes =>
    obtain ⟨-, hw, hh, hr, ha, hfb, -, -, -, -⟩ := finishEmitted_next writes
    exact .of_kept hw hh ha hr hfb

/-- Settles O49: by the ways an operation ends; a command writes the bus alone. -/
theorem onlyTheirWritersWriteThem : Obligations.OnlyTheirWritersWriteThem := by
  refine ⟨fun s t h => ?inputs, fun i s t h => ?writers⟩
  case inputs =>
    obtain ⟨i, -, h⟩ | ⟨len, -, rfl⟩ := step_next h
    · cases hop : i.isOperation with
      | true => exact (exec_operationEnd hop h).inputs
      | false =>
        obtain ⟨b, -⟩ := sendCommand_next ((exec_command hop s).symm.trans h)
        exact ⟨b.ops, b.src⟩
    · exact ⟨rfl, rfl⟩
  case writers =>
    cases hop : i.isOperation with
    | true => exact (exec_operationEnd hop h).writersOnly
    | false =>
      obtain ⟨b, -⟩ := sendCommand_next ((exec_command hop s).symm.trans h)
      exact WritersOnly.of_kept b.geomW b.geomH b.devAddr b.ready b.fb

/-- Every end of an operation overwrites `STATUS`, and nothing before it reads it (10_state.md R28). -/
theorem exec_withStatus {i : Instr} (hop : i.isOperation = true) (s : State) (c : StatusCode) :
    exec i { s with status := c } = exec i s := by
  cases i with
  | geom gw gh ga => rfl
  | release => rfl
  | init p cfg =>
    have writes := finishEmitted_withStatus 2 (initWrites cfg s.height) s c
    exact congrArg (fun k => whenReady 2 s (if p = 0 then _ else if validConfig cfg s.height then k else _)) writes
  | clear => rfl
  | setArea sp ep sc ec =>
    have writes := finishEmitted_withStatus 1 (areaWrites sp ep sc ec) s c
    exact congrArg (fun k => whenReady 1 s (if areaOk s.width s.height sp ep sc ec then k else _)) writes
  | blit x y bp dp bw bh base => rfl
  | showFrame => exact congrArg (whenReady 1 s) (finishEmitted_withStatus 1 (showWrites s) s c)
  | _ => cases hop

/-- Settles O50: between operations only host operations are fetched, and fetching reads no `STATUS` either. -/
theorem statusIsNeverRead : Obligations.StatusIsNeverRead := by
  refine ⟨fun i s c hop => exec_withStatus hop s c, fun s c hs => ?_⟩
  have hfetch : fetch { s with status := c } = fetch s := rfl
  unfold step
  rw [hfetch]
  cases hf : fetch s with
  | instr i => exact exec_withStatus (isOperation_of_fetch hs hf) s c
  | illegal len => rfl
  | stuck f => rfl
  | refuse r => rfl

/-- The host's moves change nothing that the register window shows. -/
theorem windowValue_hostMove {s t : State} (k : Nat)
    (h : (∃ ws, hostSupply ws s = .next t) ∨ (∃ addr v, hostAdmit addr v s = .next t) ∨
      (∃ addr, hostWithdraw addr s = .next t)) : windowValue k t = windowValue k s := by
  obtain ⟨ws, h⟩ | ⟨addr, v, h⟩ | ⟨addr, h⟩ := h <;>
  · obtain ⟨-, rfl⟩ := betweenOperations_next h
    rfl

/-- Reserved bits above a field read 0 and so add nothing to its number. -/
theorem toNat_reserved_append (n : Nat) {m : Nat} (v : BitVec m) : (0#n ++ v).toNat = v.toNat := by
  simp [BitVec.toNat_append]

theorem windowValue_status (s : State) : (windowValue 0 s).toNat = s.status.number.toNat := by
  have hreg : (statusReg s).toNat = s.status.number.toNat := toNat_reserved_append 4 s.status.number
  simp only [windowValue, BitVec.toNat_setWidth]
  omega

theorem windowValue_ctrl (s : State) : (windowValue 3 s).toNat = if s.ready then 1 else 0 := by
  cases hr : s.ready <;> simp [windowValue, ctrlReg, hr]

theorem windowValue_devAddr (s : State) : (windowValue 4 s).toNat = s.devAddr.toNat := by
  have hreg : (devAddrReg s).toNat = s.devAddr.toNat := toNat_reserved_append 1 s.devAddr
  simp only [windowValue, BitVec.toNat_setWidth]
  omega

/-- Every code that the block produces has a number other than InvalidFont's. -/
theorem StatusCode.number_ne_five {c : StatusCode} (h : c ≠ .invalidFont) : c.number.toNat ≠ 5 := by
  cases c with
  | invalidFont => exact absurd rfl h
  | _ => decide

/-- A legal block shows legal values in its register window. -/
theorem State.Inv.window_legal {s : State} (h : s.Inv) :
    (windowValue 0 s).toNat ≤ 8 ∧ (windowValue 0 s).toNat ≠ 5 ∧
      (windowValue 3 s = 1 → windowValue 1 s = 128 ∧ (windowValue 2 s = 64 ∨ windowValue 2 s = 32)) := by
  rw [windowValue_status]
  refine ⟨s.status.number_le, StatusCode.number_ne_five h.statusProduced, fun hc => ?_⟩
  have hr : s.ready = true := by
    have := windowValue_ctrl s
    rw [hc] at this
    by_contra hn
    simp [hn] at this
  obtain ⟨hw, hh⟩ := h.geometry_cases hr
  exact ⟨BitVec.eq_of_toNat_eq hw, hh.imp (fun e => BitVec.eq_of_toNat_eq e) fun e => BitVec.eq_of_toNat_eq e⟩

/-- Settles O53: the layouts are the registers' own, a read between operations is answered, and what steps leave there is
what the invariant allows. -/
theorem registerWindow : Obligations.RegisterWindow := by
  refine ⟨fun s => ⟨windowValue_status s, rfl, rfl, windowValue_ctrl s, windowValue_devAddr s, fun k hk => ?above⟩,
    fun s k hs ha => ?read, fun s t k h => windowValue_hostMove k h, fun s t h ht => (step_inv h ht).window_legal⟩
  case above => exact windowValue_of_five_le hk s
  case read => exact readBetweenOperations_idle _ hs ha

/-- Settles O54: the numbers are the definition's, and a step keeps the invariant, which shuts InvalidFont out. -/
theorem statusNumbers : Obligations.StatusNumbers :=
  ⟨rfl, rfl, rfl, rfl, rfl, rfl, rfl, rfl, rfl, fun _ t h ht => ⟨(step_inv h ht).statusProduced, t.status.number_le⟩⟩

end Sys2Proof.Machine
end

section
/-! BLIT on a legal block: where its rectangle lies, and the composite, pixel by pixel. -/

namespace Sys2Proof.Machine

theorem whenReady_ready {s : State} (h : s.ready = true) (len : Nat) (k : Host.Outcome State Fault Refusal) :
    whenReady len s k = k := by
  simp [whenReady, h]

/-- An address that a memory does not list reads as the default. -/
theorem Memory.read_of_unlisted (d : Option Byte) (m : Memory) (a : Nat) (h : ∀ c ∈ m, c.1 ≠ a) :
    Memory.read d m a = d := by
  induction m with
  | nil => rfl
  | cons e m ih =>
    obtain ⟨b, v⟩ := e
    rw [Memory.read_cons, if_neg (Ne.symm (h (b, v) (by simp))), ih fun c hc => h c (List.mem_cons_of_mem _ hc)]

/-- A legal store lists nothing at or above `FBSIZE`. -/
theorem State.Inv.fbByte_above {s : State} (h : s.Inv) {j : Nat} (hj : s.fbSize ≤ j) : s.fbByte j = 0 := by
  rw [State.fbByte, byteAt, Memory.read_of_unlisted _ _ _ fun c hc => ((h.fbBounded c hc).trans_le hj).ne]
  rfl

/-- A composite whose indices exist and whose rows are drawn ends OK with the drawn store. -/
theorem runBlit_of_rows {j : BlitJob} {s : State} {fb : Memory} (hlast : s.fbHolds j.lastIndex = true)
    (hrows : blitRows s.src j j.dh s.fb = .ok fb) : runBlit j s = .next (raiseStatus .ok 2 { s with fb := fb }) := by
  rw [runBlit, if_pos hlast, hrows]

section
variable {s : State} {x y : BitVec 16} (bw bh : BitVec 16) (base : BitVec 32)

/-- The clipped rectangle lies within the panel's columns (43_compositor.md R141). -/
theorem blitJob_columns (hx : x.toNat < s.width) :
    (blitJob s.width s.height x y bw bh base).x + (blitJob s.width s.height x y bw bh base).dw ≤
      (blitJob s.width s.height x y bw bh base).w := by
  simp only [blitJob, clipped]
  omega

/-- On a legal ready block every index that a clipped BLIT touches exists (20_memory.md R41). -/
theorem blitJob_fbHolds (h : s.Inv) (hr : s.ready = true) (hx : x.toNat < s.width) (hy : y.toNat < s.height) :
    s.fbHolds (blitJob s.width s.height x y bw bh base).lastIndex = true := by
  refine (s.fbHolds_iff _).mpr ⟨hr, ?_⟩
  obtain ⟨hw, hh | hh⟩ := h.geometry_cases hr <;>
  · rw [hw] at hx
    rw [hh] at hy
    simp only [BlitJob.lastIndex, BlitJob.dst, blitJob, clipped, Config.pageRows, State.fbSize, State.npix, hw, hh]
    omega

/-- A BLIT of a valid bitmap with its corner on the panel runs its job. -/
theorem execBlit_onScreen (hr : s.ready = true) (hbw : bw ≠ 0) (hbh : bh ≠ 0) (hx : x.toNat < s.width)
    (hy : y.toNat < s.height) :
    execBlit x y 1 1 bw bh base s = runBlit (blitJob s.width s.height x y bw bh base) s := by
  have hw : bw.toNat ≠ 0 := fun h0 => hbw (BitVec.eq_of_toNat_eq h0)
  have hh : bh.toNat ≠ 0 := fun h0 => hbh (BitVec.eq_of_toNat_eq h0)
  have hok : bitmapOk 1 1 bw bh = true := by simp [bitmapOk, hw, hh]
  have hon : offScreen s.width s.height x y = false := by simp [offScreen, hx, hy]
  rw [execBlit, whenReady_ready hr, if_pos hok, if_neg (by simp [hon])]

/-- With its source bytes admitted, such a BLIT draws its rows and ends OK (43_compositor.md R140, R144). -/
theorem execBlit_admitted (h : s.Inv) (hr : s.ready = true) (hbw : bw ≠ 0) (hbh : bh ≠ 0) (hx : x.toNat < s.width)
    (hy : y.toNat < s.height) (hsrc : SourceAdmitted s x y bw bh base) :
    ∃ fb, execBlit x y 1 1 bw bh base s = .next (raiseStatus .ok 2 { s with fb := fb }) ∧
      DrawnRows s.src (blitJob s.width s.height x y bw bh base) (clipped bh.toNat s.height y.toNat) s.fb fb := by
  obtain ⟨fb, hrows⟩ := blitRows_admitted (j := blitJob s.width s.height x y bw bh base) s.fb hsrc
  refine ⟨fb, ?_, blitRows_ok hrows⟩
  rw [execBlit_onScreen bw bh base hr hbw hbh hx hy]
  exact runBlit_of_rows (blitJob_fbHolds bw bh base h hr hx hy) hrows

end

/-- Settles O28: the drawn rows are the rectangle's pixels, and both stores are legal, so neither lists an index at or above
`FBSIZE`. -/
theorem blitComposites : Obligations.BlitComposites := by
  intro s x y bw bh base h hr hbw hbh hx hy hsrc
  obtain ⟨fb, hexec, rows⟩ := execBlit_admitted bw bh base h hr hbw hbh hx hy hsrc
  have hinv := execBlit_inv h hexec
  refine ⟨_, hexec, rfl, rfl, fun c r hc => ?pixels, rows.marker, fun j hj => ?above, rfl, rfl, rfl, rfl, rfl, rfl, rfl,
    rfl, rfl⟩
  case pixels => exact (rows.pixels (blitJob_columns bw bh base hx) c r hc).trans (if_congr and_comm rfl rfl)
  case above => exact (hinv.fbByte_above hj).trans (h.fbByte_above hj).symm

end Sys2Proof.Machine
end

section
/-! SHOW: its writes one by one, where it waits, and what the controller was told. -/

namespace Sys2Proof.Machine

/-! ### Its writes -/

/-- The elements of a concatenation of four-element lists. -/
theorem getElem?_flatMap_four {α : Type} {f : Nat → List α} (hf : ∀ p, (f p).length = 4) {n k : Nat} (hk : k < 4 * n) :
    ((List.range n).flatMap f)[k]? = (f (k / 4))[k % 4]? := by
  induction n with
  | zero => omega
  | succ n ih =>
    have hlen : ((List.range n).flatMap f).length = 4 * n := by
      simp [List.length_flatMap, hf, Nat.mul_comm]
    rw [List.range_succ, List.flatMap_append, List.flatMap_singleton]
    obtain hlt | hge := Nat.lt_or_ge k (4 * n)
    · rw [List.getElem?_append_left (hlen.symm ▸ hlt), ih hlt]
    · rw [List.getElem?_append_right (hlen.symm ▸ hge), hlen]
      congr 2
      · omega
      · omega

/-- After the mode write, four writes to a page (44_sequencer.md R150). -/
theorem showWrites_getElem? (s : State) {k : Nat} (hk : k < 4 * s.pages) :
    (showWrites s)[k + 1]? = (pageWrites s (k / 4))[k % 4]? :=
  getElem?_flatMap_four (fun _ => rfl) hk

theorem length_showWrites (s : State) : (showWrites s).length = 1 + 4 * s.pages := by
  simp [showWrites, List.length_flatMap, pageWrites]
  omega

/-- The four writes of a page are made in the four phases in order (44_sequencer.md R152). -/
theorem pageWrites_phase (s : State) (p : Nat) {q : Nat} (hq : q < 4) :
    ∃ bytes, (pageWrites s p)[q]? = some (.showAt p (phaseOfRule q), bytes) := by
  interval_cases q <;> exact ⟨_, rfl⟩

/-- The page-select command's byte for each of the controller's pages (41_encoder.md R120). -/
theorem commandWrite_setPageStart {p : Nat} (hp : p < 8) :
    commandWrite [.setPageStart (BitVec.ofNat 3 p)] = [0x00, 0xB0 ||| BitVec.ofNat 8 p] := by
  interval_cases p <;> rfl

/-- SHOW's writes carry the bytes of R150 and R151. -/
theorem showWrites_bytes {s : State} (hp : s.pages ≤ 8) : (showWrites s).map Prod.snd = showBytesOfRule s := by
  simp only [showWrites, showBytesOfRule, List.map_cons, List.map_flatMap]
  refine congrArg₂ _ rfl (List.flatMap_congr fun p hmem => ?_)
  rw [← commandWrite_setPageStart ((List.mem_range.mp hmem).trans_le hp)]
  rfl

/-- A legal ready block has at most the controller's eight pages (10_state.md R32). -/
theorem State.Inv.pages_le {s : State} (h : s.Inv) (hr : s.ready = true) : s.pages ≤ 8 := by
  obtain ⟨-, hh | hh⟩ := h.geometry_cases hr <;> simp [State.pages, Config.pageRows, hh]

/-! ### Where it waits -/

theorem ackAll_eq_fullAcks (ws : List (Seq × List Byte)) : ackAll ws = fullAcks (ws.map Prod.snd) := by
  simp [ackAll, fullAcks]

/-- A run of writes waits at the first write whose answer is withheld, every earlier one acknowledged in full. -/
theorem emitAll_silent_at {ws : List (Seq × List Byte)} {w : Seq × List Byte} {k : Nat} (hw : ws[k]? = some w)
    {s : State} {rest : List (Option Answer)} (hd : s.draws = ackAll (ws.take k) ++ none :: rest) :
    emitAll ws s = .silent w.1 := by
  induction ws generalizing k s with
  | nil => cases hw
  | cons v ws ih =>
    obtain ⟨q, bytes⟩ := v
    cases k with
    | zero =>
      obtain rfl := Option.some.inj hw
      rw [emitAll, (busWrite_none bytes { s with seq := q }).mpr ⟨rest, hd⟩]
    | succ k =>
      rw [emitAll, busWrite_draw bytes { s with seq := q } (.ack bytes.length) (ackAll (ws.take k) ++ none :: rest) hd]
      simpa [acked] using ih hw rfl

/-- Settles O37: the write that is not answered is the one of that number, and carries its page and phase. -/
theorem showWaitsAtItsPageAndPhase : Obligations.ShowWaitsAtItsPageAndPhase := by
  intro s m rest h hr hlo hhi hd
  have hbytes := showWrites_bytes (h.pages_le hr)
  have hdraws : s.draws = ackAll ((showWrites s).take (m - 1)) ++ none :: rest := by
    rw [hd, ackAll_eq_fullAcks, List.map_take, hbytes]
  have waits : ∀ {w}, (showWrites s)[m - 1]? = some w → exec .showFrame s = .fault (.awaitAnswer w.1) := by
    intro w hw
    rw [exec, execShow, whenReady_ready hr, emitAll_silent_at hw hdraws]
    rfl
  obtain rfl | hm := eq_or_ne m 1
  · exact waits rfl
  · obtain ⟨k, rfl⟩ := Nat.exists_eq_add_of_le' (show 2 ≤ m by omega)
    have hk : k < 4 * s.pages := by
      rw [← hbytes, List.length_map, length_showWrites] at hhi
      omega
    obtain ⟨bytes, hw⟩ := pageWrites_phase s (k / 4) (Nat.mod_lt k (by decide : 0 < 4))
    rw [if_neg hm]
    exact waits ((showWrites_getElem? s hk).trans hw)

/-! ### What the controller was told -/

/-- A bus write that carries no SET_ADDR_MODE. -/
def KeepsAddrMode (bytes : List Byte) : Prop := ∀ i ∈ commandsOf bytes, ∀ a, i ≠ .setAddrMode a

theorem KeepsAddrMode.of_command {bytes : List Byte} {i : Instr} (h : commandsOf bytes = [i])
    (hi : ∀ a, i ≠ .setAddrMode a) : KeepsAddrMode bytes := by
  intro j hj
  rw [h] at hj
  exact List.mem_singleton.mp hj ▸ hi

/-- Of the commands only SET_ADDR_MODE sets the addressing mode (41_encoder.md R112). -/
theorem Controller.receive_addrMode {i : Instr} (h : ∀ a, i ≠ .setAddrMode a) (known : Bool) (c : Controller) :
    (c.receive known i).addrMode = c.addrMode := by
  cases i with
  | setAddrMode a => exact absurd rfl (h a)
  | _ => rfl

theorem Controller.afterEntry_addrMode {e : BusEntry} (h : KeepsAddrMode e.bytes) (c : Controller) :
    (c.afterEntry e).addrMode = c.addrMode :=
  List.foldlRecOn (motive := fun d : Controller => d.addrMode = c.addrMode) _ _ rfl fun _ hd i hi =>
    (Controller.receive_addrMode (h i hi) _ _).trans hd

theorem Controller.afterEntries_addrMode {es : List BusEntry} (h : ∀ e ∈ es, KeepsAddrMode e.bytes) (c : Controller) :
    (es.foldl Controller.afterEntry c).addrMode = c.addrMode :=
  List.foldlRecOn (motive := fun d : Controller => d.addrMode = c.addrMode) _ _ rfl fun _ hd e he =>
    (Controller.afterEntry_addrMode (h e he) _).trans hd

/-- SHOW's first write, acknowledged, sets page addressing mode (44_sequencer.md R150). -/
theorem Controller.afterEntry_pageMode {e : BusEntry} (hb : e.bytes = commandWrite [.setAddrMode 2])
    (ha : e.answer = .ack 3) (c : Controller) : (c.afterEntry e).addrMode = some 2 := by
  rw [Controller.afterEntry, hb, ha]
  rfl

/-- The writes of a page select the page and the column and send its bytes (44_sequencer.md R150). -/
theorem pageWrites_keepAddrMode {s : State} {p : Nat} {w : Seq × List Byte} (hw : w ∈ pageWrites s p) :
    KeepsAddrMode w.2 := by
  have hpage : ∀ q : BitVec 3, commandsOf (commandWrite [.setPageStart q]) = [.setPageStart q] := by decide
  simp only [pageWrites, List.mem_cons, List.not_mem_nil, or_false] at hw
  obtain rfl | rfl | rfl | rfl := hw
  · exact .of_command (hpage _) nofun
  · exact .of_command (i := .setColLow 0) rfl nofun
  · exact .of_command (i := .setColHigh 0) rfl nofun
  · exact List.forall_mem_nil _

/-- A run of writes that ends has made its first write; what it adds after that are later writes of the run. -/
theorem finishEmitted_first {len : Nat} {w : Seq × List Byte} {ws : List (Seq × List Byte)} {s t : State}
    (h : finishEmitted len (emitAll (w :: ws) s) = .next t) :
    ∃ a es, t.tr = s.tr ++ entryOf s w.2 a :: es ∧ ∀ e ∈ es, ∃ v ∈ ws, e.bytes = v.2 := by
  obtain ⟨q, bytes⟩ := w
  rw [emitAll] at h
  cases hw : busWrite bytes { s with seq := q } with
  | none =>
    rw [hw] at h
    cases h
  | some r =>
    obtain ⟨a, u⟩ := r
    obtain ⟨-, -, htr, -⟩ := busWrite_some hw
    rw [hw] at h
    cases hack : acked bytes a with
    | true =>
      obtain ⟨es, hes, hmem⟩ := finishEmitted_entries (by simpa [hack] using h)
      refine ⟨a, es, by simp [hes, htr, entryOf], fun e he => ?_⟩
      obtain ⟨v, hv, b, rfl⟩ := hmem e he
      exact ⟨v, hv, rfl⟩
    | false =>
      obtain rfl : raiseStatus .transportFailure len u = t := by simpa [hack, finishEmitted] using h
      exact ⟨a, [], by simp [htr, entryOf], by simp⟩

/-- What a SHOW that passed its readiness check added, its first write acknowledged, leaves page addressing mode. -/
theorem showWrites_pageMode {s t : State} (h : finishEmitted 1 (emitAll (showWrites s) s) = .next t) {e : BusEntry}
    (he : t.tr[s.tr.length]? = some e) (ha : e.answer = .ack 3) : (controllerView t.tr).addrMode = some 2 := by
  obtain ⟨a, es, htr, hes⟩ := finishEmitted_first h
  obtain rfl : entryOf s (commandWrite [.setAddrMode 2]) a = e := by simpa [htr] using he
  have hkeep : ∀ e ∈ es, KeepsAddrMode e.bytes := by
    intro e hmem
    obtain ⟨v, hv, hb⟩ := hes e hmem
    obtain ⟨p, -, hp⟩ := List.mem_flatMap.mp hv
    exact hb ▸ pageWrites_keepAddrMode hp
  rw [controllerView, htr, List.foldl_append, List.foldl_cons, Controller.afterEntries_addrMode hkeep,
    Controller.afterEntry_pageMode rfl ha]

/-- Settles O38: without readiness nothing is written; otherwise SHOW is a run of bus writes that begins with the mode
write. -/
theorem showKeepsTheBlock : Obligations.ShowKeepsTheBlock := by
  intro s t h
  obtain ⟨-, rfl⟩ | ⟨-, h⟩ := execShow_next h
  · exact ⟨rfl, fun _ => rfl, rfl, rfl, rfl, rfl, rfl, rfl, rfl, rfl, by simp⟩
  · obtain ⟨hopc, hw, hh, hr, ha, hfb, hops, hsrc, hq, -⟩ := finishEmitted_next h
    exact ⟨hfb, State.fbByte_congr hfb, hw, hh, hr, ha, hops, hsrc, hopc, hq, fun e => showWrites_pageMode h⟩

end Sys2Proof.Machine
end

section
/-! The course of every instruction, said once for all its outcomes, and the statements that follow from it: which answers decide
the status, when an operation ends, and where a step can stop. -/

namespace Sys2Proof.Machine

/-! ### The course of an instruction -/

/-- How a host operation runs from `s`, whatever its outcome: it ends without a bus write, or makes a fixed run of bus writes
whatever answers are scheduled, or composites a bitmap whose corner is on the panel. -/
inductive OperationCourse (s : State) : Instr → Prop
  | ends {i : Instr} {t : State} (run : exec i s = .next t) (silent : t.tr = s.tr)
      (status : t.status ≠ .transportFailure) : OperationCourse s i
  | emits {i : Instr} (ws : List (Seq × List Byte))
      (run : ∀ ds, exec i { s with draws := ds } =
        finishEmitted (encodedLength (encode i)) (emitAll ws { s with draws := ds })) : OperationCourse s i
  | composites {x y : BitVec 16} {bp dp : BitVec 1} {bw bh : BitVec 16} {base : BitVec 32} (ready : s.ready = true)
      (column : x.toNat < s.width) (row : y.toNat < s.height)
      (run : exec (.blit x y bp dp bw bh base) s = runBlit (blitJob s.width s.height x y bw bh base) s) :
      OperationCourse s (.blit x y bp dp bw bh base)

/-- An operation that ends with a status alone. -/
theorem OperationCourse.of_status {s : State} {i : Instr} {c : StatusCode} {len : Nat}
    (run : exec i s = .next (raiseStatus c len s)) (hc : c ≠ .transportFailure) : OperationCourse s i :=
  .ends run rfl hc

/-- INIT's two checks stand before its one write (41_encoder.md R90). -/
theorem init_course (p : BitVec 1) (c : InitConfig) {s : State} (hr : s.ready = true) :
    OperationCourse s (.init p c) := by
  by_cases hp : p = 0
  · exact .of_status (c := .invalidConfig) (len := 2) (by simp [exec, execInit, whenReady_ready hr, hp]) nofun
  · by_cases hv : validConfig c s.height = true
    · refine .emits (initWrites c s.height) fun ds => ?_
      exact (whenReady_ready (s := { s with draws := ds }) hr 2 _).trans ((if_neg hp).trans (if_pos hv))
    · exact .of_status (c := .invalidConfig) (len := 2) (by simp [exec, execInit, whenReady_ready hr, hv]) nofun

/-- SETAREA's window check stands before its two writes (42_fbmgr.md R131). -/
theorem setArea_course (sp ep sc ec : BitVec 8) {s : State} (hr : s.ready = true) :
    OperationCourse s (.setArea sp ep sc ec) := by
  by_cases ha : areaOk s.width s.height sp ep sc ec = true
  · refine .emits (areaWrites sp ep sc ec) fun ds => ?_
    exact (whenReady_ready (s := { s with draws := ds }) hr 1 _).trans (if_pos ha)
  · exact .of_status (c := .invalidArea) (len := 1) (by simp [exec, execSetArea, whenReady_ready hr, ha]) nofun

/-- BLIT's bitmap check and its off-screen test stand before the composite (43_compositor.md R140, R141). -/
theorem blit_course (x y : BitVec 16) (bp dp : BitVec 1) (bw bh : BitVec 16) (base : BitVec 32) {s : State}
    (hr : s.ready = true) : OperationCourse s (.blit x y bp dp bw bh base) := by
  by_cases hb : bitmapOk bp dp bw bh = true
  · by_cases ho : offScreen s.width s.height x y = true
    · exact .of_status (c := .ok) (len := 2) (by simp [exec, execBlit, whenReady_ready hr, hb, ho]) nofun
    · obtain ⟨hx, hy⟩ : x.toNat < s.width ∧ y.toNat < s.height := by simpa [offScreen] using ho
      exact .composites hr hx hy (by simp [exec, execBlit, whenReady_ready hr, hb, ho])
  · exact .of_status (c := .invalidBitmap) (len := 2) (by simp [exec, execBlit, whenReady_ready hr, hb]) nofun

theorem geom_course (gw gh : BitVec 16) (ga : BitVec 7) (s : State) : OperationCourse s (.geom gw gh ga) := by
  by_cases hg : supportedGeometry gw gh = true
  · exact .ends (if_pos hg) rfl nofun
  · exact .ends (if_neg hg) rfl nofun

theorem release_course (s : State) : OperationCourse s .release := by
  by_cases hr : s.ready = true
  · exact .ends (if_pos hr) rfl nofun
  · exact .ends (if_neg hr) rfl nofun

/-- The readiness check ends an operation with NotReady, or lets it go on (60_exceptions.md R165). -/
theorem OperationCourse.of_whenReady {s : State} {i : Instr} {len : Nat} {k : Host.Outcome State Fault Refusal}
    (run : exec i s = whenReady len s k) (ready : s.ready = true → OperationCourse s i) : OperationCourse s i := by
  cases hr : s.ready with
  | false => exact .of_status (run.trans (whenReady_notReady hr len k)) nofun
  | true => exact ready hr

theorem exec_course {i : Instr} (hop : i.isOperation = true) (s : State) : OperationCourse s i := by
  cases i with
  | geom gw gh ga => exact geom_course gw gh ga s
  | release => exact release_course s
  | init p c => exact .of_whenReady rfl (init_course p c)
  | clear => exact .of_whenReady rfl fun hr => .ends (whenReady_ready hr 1 _) rfl nofun
  | setArea sp ep sc ec => exact .of_whenReady rfl (setArea_course sp ep sc ec)
  | blit x y bp dp bw bh base => exact .of_whenReady rfl (blit_course x y bp dp bw bh base)
  | showFrame =>
    refine .of_whenReady rfl fun hr => .emits (showWrites s) fun ds => ?_
    exact whenReady_ready (s := { s with draws := ds }) hr 1 _
  | _ => cases hop

/-- A controller command waits exactly when the next answer is withheld (20_memory.md R50). -/
theorem sendCommand_of_withheld (i : Instr) {s : State} {ds : List (Option Answer)} (h : s.draws = none :: ds) :
    sendCommand i s = .fault (.awaitAnswer s.seq) := by
  rw [sendCommand, (busWrite_none _ s).mpr ⟨ds, h⟩]

/-- With its answer not withheld a controller command ends. -/
theorem sendCommand_ends (i : Instr) {s : State} (h : ∀ ds, s.draws ≠ none :: ds) : ∃ t, sendCommand i s = .next t := by
  unfold sendCommand
  split
  · rename_i hw
    obtain ⟨ds, hd⟩ := (busWrite_none _ s).mp hw
    exact absurd hd (h ds)
  · exact ⟨_, rfl⟩

/-- A controller command ends, or waits for a withheld answer. -/
theorem sendCommand_cases (i : Instr) (s : State) :
    (∃ t, sendCommand i s = .next t) ∨
      ∃ ds, s.draws = none :: ds ∧ sendCommand i s = .fault (.awaitAnswer s.seq) := by
  by_cases h : ∃ ds, s.draws = none :: ds
  · obtain ⟨ds, hd⟩ := h
    exact .inr ⟨ds, hd, sendCommand_of_withheld i hd⟩
  · exact .inl (sendCommand_ends i (not_exists.mp h))

/-! ### Answers and status -/

/-- Settles O41: a command is one bus write, which takes any answer that is not withheld. -/
theorem commandsWaitOnlyForTheTransport : Obligations.CommandsWaitOnlyForTheTransport := by
  intro i s hop
  rw [exec_command hop]
  refine ⟨fun hd => ?_, fun ds hd => sendCommand_of_withheld i hd⟩
  obtain ⟨t, ht⟩ := sendCommand_ends i (s := s) (by simp [hd])
  obtain ⟨-, a, htr, -, ⟨-, rfl, -⟩ | hdraw⟩ := sendCommand_next ht
  · exact ⟨t, ht, htr⟩
  · simp [hd] at hdraw

theorem ackedEntry_answer (s : State) (bytes : List Byte) :
    (ackedEntry s bytes).answer = .ack (ackedEntry s bytes).bytes.length := rfl

/-- Settles O47: an operation that makes no write reports no TransportFailure, and a run of writes stops at the first that is
not answered in full. -/
theorem answersDecideTheStatus : Obligations.AnswersDecideTheStatus := by
  intro i s t hop h
  have acked_in_full : ∀ ws : List (Seq × List Byte), ∀ d ∈ ws.map (fun w => ackedEntry s w.2),
      d.answer = .ack d.bytes.length := by
    intro ws d hd
    obtain ⟨w, -, rfl⟩ := List.mem_map.mp hd
    exact ackedEntry_answer s w.2
  cases exec_course hop s with
  | ends run silent status =>
    obtain rfl := Host.Outcome.next.inj (run.symm.trans h)
    exact ⟨fun hst => absurd hst status, fun _ => ⟨[], by simp [silent], by simp⟩⟩
  | emits ws run =>
    obtain ⟨-, -, -, -, -, -, -, -, -, ⟨hok, htr⟩ | ⟨hfail, pre, w, post, a, -, hnak, htr⟩⟩ :=
      finishEmitted_next ((run s.draws).symm.trans h)
    · exact ⟨by simp [hok], fun _ => ⟨_, htr, acked_in_full ws⟩⟩
    · refine ⟨fun _ => ⟨_, _, htr, fun ha => ?_, acked_in_full pre⟩, fun hst => absurd hfail hst⟩
      exact absurd ((acked_iff w.2 a).mpr ha) (by simp [hnak])
  | composites ready column row run =>
    obtain ⟨-, fb, -, rfl⟩ := runBlit_next (run.symm.trans h)
    exact ⟨nofun, fun _ => ⟨[], by simp, by simp⟩⟩

/-! ### Where a step ends or stops -/

/-- Settles O51: by the course of the instruction; the rows of a composite are drawn when their bytes are admitted. -/
theorem everyOperationEnds : Obligations.EveryOperationEnds := by
  intro i s hinv hdraws hsrc
  cases hop : i.isOperation with
  | false =>
    rw [exec_command hop]
    exact sendCommand_ends i fun ds hd => hdraws (by simp [hd])
  | true =>
    cases exec_course hop s with
    | ends run _ _ => exact ⟨_, run⟩
    | emits ws run =>
      obtain ⟨t, -, hdone | hfailed, -⟩ := emitAll_ends ws s hdraws
      · exact ⟨_, (run s.draws).trans (by rw [hdone]; rfl)⟩
      · exact ⟨_, (run s.draws).trans (by rw [hfailed]; rfl)⟩
    | @composites x y bp dp bw bh base ready column row run =>
      obtain ⟨fb, hrows⟩ := blitRows_admitted (j := blitJob s.width s.height x y bw bh base) s.fb
        (hsrc x y bp dp bw bh base rfl)
      exact ⟨_, run.trans (runBlit_of_rows (blitJob_fbHolds bw bh base hinv ready column row) hrows)⟩

/-- A composite whose indices exist stops where its loop over the rows does. -/
theorem runBlit_of_error {j : BlitJob} {s : State} {e : Fault} (hlast : s.fbHolds j.lastIndex = true)
    (hrows : blitRows s.src j j.dh s.fb = .error e) : runBlit j s = .fault e := by
  rw [runBlit, if_pos hlast, hrows]

/-- A composite ends, or stops at an unadmitted source byte or at an index of `FB` that holds no value. -/
theorem runBlit_cases (j : BlitJob) (s : State) :
    (∃ t, runBlit j s = .next t) ∨
      (∃ addr q, runBlit j s = .fault (.srcFault addr q) ∧ memRead s.src addr = none) ∨
      (s.fbHolds j.lastIndex = false ∧ runBlit j s = .fault (.noValue j.lastIndex)) := by
  by_cases hlast : s.fbHolds j.lastIndex = true
  · cases hrows : blitRows s.src j j.dh s.fb with
    | ok fb => exact .inl ⟨_, runBlit_of_rows hlast hrows⟩
    | error e =>
      obtain ⟨i, -, b, -, hnone, rfl⟩ := blitRows_error hrows
      exact .inr (.inl ⟨_, _, runBlit_of_error hlast hrows, hnone⟩)
  · exact .inr (.inr ⟨by simpa using hlast, if_neg hlast⟩)

theorem finishEmitted_cases (len : Nat) (e : Emitted) :
    (∃ t, finishEmitted len e = .next t) ∨ ∃ q, finishEmitted len e = .fault (.awaitAnswer q) := by
  cases e with
  | done s => exact .inl ⟨_, rfl⟩
  | failed s => exact .inl ⟨_, rfl⟩
  | silent q => exact .inr ⟨q, rfl⟩

/-- Every outcome of an instruction in any state. -/
theorem exec_cases (i : Instr) (s : State) :
    (∃ t, exec i s = .next t) ∨ (∃ q, exec i s = .fault (.awaitAnswer q)) ∨
      (∃ addr q, exec i s = .fault (.srcFault addr q) ∧ memRead s.src addr = none) ∨
      (¬ s.Inv ∧ ∃ j, exec i s = .fault (.noValue j)) := by
  cases hop : i.isOperation with
  | false =>
    rw [exec_command hop]
    obtain hnext | ⟨-, -, hwait⟩ := sendCommand_cases i s
    · exact .inl hnext
    · exact .inr (.inl ⟨_, hwait⟩)
  | true =>
    cases exec_course hop s with
    | ends run _ _ => exact .inl ⟨_, run⟩
    | emits ws run =>
      rw [show exec i s = _ from run s.draws]
      exact (finishEmitted_cases _ _).imp_right .inl
    | @composites x y bp dp bw bh base ready column row run =>
      rw [run]
      obtain hnext | hsrc | ⟨hlast, hno⟩ := runBlit_cases (blitJob s.width s.height x y bw bh base) s
      · exact .inl hnext
      · exact .inr (.inr (.inl hsrc))
      · refine .inr (.inr (.inr ⟨fun hinv => ?_, _, hno⟩))
        exact absurd (blitJob_fbHolds bw bh base hinv ready column row) (by simp [hlast])

/-- Fetching between operations stops only where a word is missing: the first (60_exceptions.md R174) or the second
(30_encoding.md R70). -/
theorem fetchOperation_cases (s : State) :
    (∃ i, fetchOperation s = .instr i) ∨ (∃ len, fetchOperation s = .illegal len) ∨
      fetchOperation s = .stuck .awaitOperation ∨
      (fetchOperation s = .stuck .awaitSecondWord ∧
        ∃ w0, s.ops[s.opc]? = some w0 ∧ decodeOp w0 s.ops[s.opc + 1]? = .incomplete) := by
  unfold fetchOperation
  split
  · exact .inr (.inr (.inl rfl))
  · rename_i w0 hw
    split
    · exact .inl ⟨_, rfl⟩
    · exact .inr (.inl ⟨_, rfl⟩)
    · rename_i hd
      exact .inr (.inr (.inr ⟨rfl, w0, hw, hd⟩))

/-- Staged bytes that are no command are refused (log entry 3). -/
theorem fetchCommand_cases (staged : List Byte) :
    (∃ i, fetchCommand staged = .instr i) ∨ fetchCommand staged = .refuse .unknownCommand ∨
      fetchCommand staged = .refuse .incompleteCommand := by
  unfold fetchCommand
  split
  · exact .inl ⟨_, rfl⟩
  · exact .inr (.inl rfl)
  · exact .inr (.inr rfl)

/-- An instruction of a legal state is safe, or stops at a source byte that is not admitted. -/
theorem exec_safe {s : State} (h : s.Inv) (i : Instr) :
    SafeOutcome (exec i s) ∨ ∃ addr q, exec i s = .fault (.srcFault addr q) ∧ memRead s.src addr = none := by
  obtain ⟨t, ht⟩ | ⟨q, hq⟩ | hsrc | ⟨hn, -⟩ := exec_cases i s
  · exact .inl (ht ▸ trivial)
  · exact .inl (hq ▸ rfl)
  · exact .inr hsrc
  · exact absurd h hn

/-- Settles O52: by what is fetched; a legal state is between operations or has command bytes staged. -/
theorem stepsAreSafe : Obligations.StepsAreSafe := by
  intro s h
  have run : ∀ {i}, fetch s = .instr i → SafeOutcome (step s) ∨
      (∃ addr q, step s = .fault (.srcFault addr q) ∧ memRead s.src addr = none) ∨
      step s = .refused .unknownCommand ∨ step s = .refused .incompleteCommand := by
    intro i hf
    rw [step_of_fetch hf]
    exact (exec_safe h i).imp_right .inl
  obtain hs | ⟨staged, hs⟩ := h.quiescent
  · have hfetch : fetch s = fetchOperation s := by rw [fetch, hs]
    obtain ⟨i, hf⟩ | ⟨len, hf⟩ | hf | ⟨hf, -⟩ := fetchOperation_cases s <;> rw [← hfetch] at hf
    · exact run hf
    · exact .inl (by rw [step, hf]; trivial)
    · exact .inl (by rw [step, hf]; rfl)
    · exact .inl (by rw [step, hf]; rfl)
  · have hfetch : fetch s = fetchCommand staged := by rw [fetch, hs]
    obtain ⟨i, hf⟩ | hf | hf := fetchCommand_cases staged <;> rw [← hfetch] at hf
    · exact run hf
    · exact .inr (.inr (.inl (by rw [step, hf])))
    · exact .inr (.inr (.inr (by rw [step, hf])))

end Sys2Proof.Machine
end

section
/-! INIT, SETAREA and BLIT at a failed write or an unadmitted source byte. -/

namespace Sys2Proof.Machine

/-- A run of writes that stops at a write not answered in full, every earlier one acknowledged in full: the whole next state. -/
theorem finishEmitted_failedAt (len : Nat) (pre : List (Seq × List Byte)) (w : Seq × List Byte)
    (post : List (Seq × List Byte)) {s : State} {a : Answer} {rest : List (Option Answer)}
    (hd : s.draws = ackAll pre ++ some a :: rest) (ha : a ≠ .ack w.2.length) :
    finishEmitted len (emitAll (pre ++ w :: post) s) = .next (raiseStatus .transportFailure len
      { s with tr := s.tr ++ pre.map (fun v => ackedEntry s v.2) ++ [entryOf s w.2 a], draws := rest }) := by
  induction pre generalizing s with
  | nil =>
    obtain ⟨q, bytes⟩ := w
    have hnak : acked bytes a = false := by simpa [acked] using ha
    rw [List.nil_append, emitAll, busWrite_draw bytes { s with seq := q } a rest hd]
    simp [hnak, finishEmitted, raiseStatus, entryOf]
  | cons v pre ih =>
    obtain ⟨q, bytes⟩ := v
    rw [List.cons_append, emitAll,
      busWrite_draw bytes { s with seq := q } (.ack bytes.length) (ackAll pre ++ some a :: rest) hd]
    simp only [acked, decide_true, if_true]
    rw [ih rfl]
    simp [raiseStatus, entryOf, ackedEntry]

/-! ### INIT -/

/-- Two nibbles joined are the byte that the rule writes with a shift, the low one being in range (41_encoder.md R94). -/
theorem nibbles_eq (hi lo : Byte) (h : lo.toNat ≤ 15) : hi.setWidth 4 ++ lo.setWidth 4 = (hi <<< 4) ||| lo := by
  have hlo : ∀ k, 4 ≤ k → lo.getLsbD k = false := fun k hk =>
    Nat.testBit_lt_two_pow ((Nat.lt_succ_of_le h).trans_le (Nat.pow_le_pow_right (n := 2) (by decide) hk))
  apply BitVec.eq_of_getLsbD_eq
  intro k hk
  simp only [BitVec.getLsbD_append, BitVec.getLsbD_setWidth, BitVec.getLsbD_or, BitVec.getLsbD_shiftLeft]
  by_cases h4 : k < 4
  · simp [h4]
  · have hhi : k - 4 < 4 := by omega
    rw [hlo k (by omega)]
    simp [h4, hk, hhi]

/-- The ranges of R93 are the checks INIT makes. -/
theorem validConfig_iff (c : InitConfig) (h : Nat) : validConfig c h = true ↔ InitRangesOfRule c h := by
  simp [validConfig, InitRangesOfRule, muxOf, Config.muxMin, Config.muxMax, Config.clkdivMax, Config.oscMax,
    Config.fadeintMax, Config.prechgMin, Config.prechgMax, and_assoc]

/-- INIT's one write carries the bytes of R94. -/
theorem commandWrite_initCommands {c : InitConfig} {h : Nat} (hc : InitRangesOfRule c h) :
    commandWrite (initCommands c h) = initBytesOfRule c h := by
  obtain ⟨-, hckd, -, hfi, ⟨-, hpc1⟩, -⟩ := hc
  have hcom : ∀ d : BitVec 1, (0b1100#4 ++ d ++ 0b000#3 : Byte) = 0xC0 ||| (d.setWidth 8 <<< 3) := by decide
  have hinv : ∀ d : BitVec 1, (0b1010011#7 ++ d : Byte) = 0xA6 ||| d.setWidth 8 := by decide
  have hseg : ∀ d : BitVec 1, (0b1010000#7 ++ d : Byte) = 0xA0 ||| d.setWidth 8 := by decide
  have hfm : c.fm.setWidth 4 ++ c.fi.setWidth 4 = (c.fm.setWidth 8 <<< 4) ||| c.fi := by
    rw [← nibbles_eq _ _ hfi, BitVec.setWidth_setWidth_of_le _ (by decide)]
  have hpins : comPinsByte (altOf h) Config.comLrRemap = 0x02 ||| (if h > 32 then 0x10 else 0x00) := by
    unfold altOf
    split <;> rfl
  simp only [commandWrite, initCommands, initBytesOfRule, List.flatMap_cons, List.flatMap_nil, encodeCommand, hcom, hinv, hseg,
    hfm, hpins, nibbles_eq _ _ hckd, nibbles_eq _ _ hpc1, chargePumpByte]
  rfl

/-- Settles O22: INIT's one write is the first to fail. -/
theorem initReportsTransportFailure : Obligations.InitReportsTransportFailure := by
  intro s c a rest hr hc hd ha
  have hbytes := commandWrite_initCommands hc
  have hrun : exec (.init 1 c) s = finishEmitted 2 (emitAll (initWrites c s.height) s) :=
    (whenReady_ready hr 2 _).trans ((if_neg (by decide)).trans (if_pos ((validConfig_iff c s.height).mpr hc)))
  rw [hrun, initWrites, hbytes]
  refine (finishEmitted_failedAt 2 [] (.initSeq (initSeq c s.height), initBytesOfRule c s.height) [] hd ha).trans ?_
  simp [raiseStatus, entryOf]

/-! ### SETAREA -/

/-- The windows of R132 are those SETAREA checks for. -/
theorem areaOk_iff (w h : Nat) (sp ep sc ec : BitVec 8) :
    areaOk w h sp ep sc ec = true ↔ AreaOfRule w h sp ep sc ec := by
  simp [areaOk, AreaOfRule, Config.pageRows, Config.absMaxPage, Config.absMaxCol, and_assoc]

theorem execSetArea_legal {s : State} {sp ep sc ec : BitVec 8} (hr : s.ready = true)
    (ha : AreaOfRule s.width s.height sp ep sc ec) :
    exec (.setArea sp ep sc ec) s = finishEmitted 1 (emitAll (areaWrites sp ep sc ec) s) :=
  (whenReady_ready hr 1 _).trans (if_pos ((areaOk_iff ..).mpr ha))

/-- Settles O26: the failing write is the page range's, or the column range's after it. -/
theorem setAreaStopsAtTheFirstFailure : Obligations.SetAreaStopsAtTheFirstFailure := by
  refine ⟨fun s sp ep sc ec a rest hr harea hd ha => ?pageRange, fun s sp ep sc ec a rest hr harea hd ha => ?colRange⟩
  case pageRange =>
    rw [execSetArea_legal hr harea]
    refine (finishEmitted_failedAt 1 [] (.areaAt .pageRange, commandWrite [.setPageRange sp ep])
      [(.areaAt .colRange, commandWrite [.setColRange sc ec])] hd ha).trans ?_
    simp [raiseStatus, entryOf, commandWrite, encodeCommand, Config.ctrlCmd]
  case colRange =>
    rw [execSetArea_legal hr harea]
    refine (finishEmitted_failedAt 1 [(.areaAt .pageRange, commandWrite [.setPageRange sp ep])]
      (.areaAt .colRange, commandWrite [.setColRange sc ec]) [] hd ha).trans ?_
    simp [raiseStatus, entryOf, ackedEntry, commandWrite, encodeCommand, Config.ctrlCmd]

/-! ### BLIT -/

/-- Settles O30: rows that were all drawn would have had every byte admitted, and the loop says where it stops. -/
theorem blitFaultsOnUnadmittedSource : Obligations.BlitFaultsOnUnadmittedSource := by
  intro s x y bw bh base h hr hbw hbh hx hy hsrc
  have hlast := blitJob_fbHolds bw bh base h hr hx hy
  cases hrows : blitRows s.src (blitJob s.width s.height x y bw bh base) (clipped bh.toNat s.height y.toNat) s.fb with
  | ok fb => exact absurd (blitRows_ok hrows).admitted hsrc
  | error e =>
    obtain ⟨i, hi, b, hb, hnone, rfl⟩ := blitRows_error hrows
    exact ⟨i, b, hi, hb, hnone,
      (execBlit_onScreen bw bh base hr hbw hbh hx hy).trans (runBlit_of_error hlast hrows)⟩

end Sys2Proof.Machine
end

section
/-! The host's moves and the transport's answer to a block that waits. -/

namespace Sys2Proof.Machine

/-! ### The host's moves -/

/-- Replacing the source memory by a canonical one keeps the invariant. -/
theorem State.Inv.withSource {s : State} (h : s.Inv) {src : Memory} (hsrc : Memory.wf none src = true) :
    ({ s with src := src } : State).Inv where
  geometry := h.geometry
  fbCanonical := h.fbCanonical
  fbBounded := h.fbBounded
  fbReleased := h.fbReleased
  markerKept := h.markerKept
  srcCanonical := hsrc
  statusProduced := h.statusProduced
  quiescent := h.quiescent

theorem betweenOperations_of_idle {s : State} (t : State) (hs : s.seq = .idle)
    (h : ∀ q, step s ≠ .fault (.awaitAnswer q)) : betweenOperations s t = .next t := by
  simp [betweenOperations, State.not_inFlight hs h]

theorem betweenOperations_of_awaits {s : State} (t : State) {q : Seq} (h : step s = .fault (.awaitAnswer q)) :
    betweenOperations s t = .refused .operationInFlight := by
  simp [betweenOperations, State.inFlight_of_awaits h]

/-- Every address the host can name lies below 2^32, and there a read is the memory's (20_memory.md R43). -/
theorem memRead_toNat (src : Memory) (addr : BitVec 32) : memRead src addr.toNat = Memory.read none src addr.toNat :=
  if_pos addr.isLt

theorem memRead_congr {src src' : Memory} {a : Nat} (h : Memory.read none src' a = Memory.read none src a) :
    memRead src' a = memRead src a := by
  rw [memRead, memRead, h]

/-- An instruction stops only for the transport, at a source byte, or at an index of `FB`. -/
theorem exec_not_awaitSecondWord (i : Instr) (s : State) : exec i s ≠ .fault .awaitSecondWord := by
  intro h
  obtain ⟨t, ht⟩ | ⟨q, hq⟩ | ⟨addr, q, hq, -⟩ | ⟨-, j, hj⟩ := exec_cases i s
  · cases h.symm.trans ht
  · cases h.symm.trans hq
  · cases h.symm.trans hq
  · cases h.symm.trans hj

/-- An operation is incomplete only for want of its second word (30_encoding.md R70). -/
theorem decodeOp_incomplete {w0 : Word} {w1 : Option Word} (h : decodeOp w0 w1 = .incomplete) : w1 = none := by
  have checked : ∀ v, decodeChecked (field w0 0 8) w0 v ≠ .incomplete := by
    intro v
    unfold decodeChecked
    split
    · nofun
    · split <;> nofun
  unfold decodeOp at h
  split at h
  · split at h
    · rfl
    · exact absurd h (checked _)
  · exact absurd h (checked _)

/-- A fetch that stops for a word stops between operations. -/
theorem fetch_stuck {s : State} {f : Fault} (h : fetch s = .stuck f) :
    s.seq = .idle ∧ (f = .awaitOperation ∨
      (f = .awaitSecondWord ∧ (s.ops[s.opc]?).isSome = true ∧ s.ops[s.opc + 1]? = none)) := by
  unfold fetch at h
  split at h
  · rename_i hs
    refine ⟨hs, ?_⟩
    obtain ⟨i, hf⟩ | ⟨len, hf⟩ | hf | ⟨hf, w0, hw, hd⟩ := fetchOperation_cases s
    · cases hf.symm.trans h
    · cases hf.symm.trans h
    · exact .inl (Fetched.stuck.inj (h.symm.trans hf))
    · exact .inr ⟨Fetched.stuck.inj (h.symm.trans hf), by simp [hw], decodeOp_incomplete hd⟩
  · rename_i staged _
    obtain ⟨i, hf⟩ | hf | hf := fetchCommand_cases staged <;> cases hf.symm.trans h
  all_goals cases h

/-- A step that stops was stopped by fetching, or by the instruction it runs. -/
theorem step_fault {s : State} {f : Fault} (h : step s = .fault f) :
    fetch s = .stuck f ∨ ∃ i, fetch s = .instr i ∧ exec i s = .fault f := by
  unfold step at h
  split at h
  · rename_i i hf
    exact .inr ⟨i, hf, h⟩
  · cases h
  · rename_i g hf
    obtain rfl := Host.Outcome.fault.inj h
    exact .inl hf
  · cases h

/-- A block stuck for a second word stands between operations, and its first word is the last one supplied. -/
theorem step_awaitSecondWord {s : State} (h : step s = .fault .awaitSecondWord) :
    s.seq = .idle ∧ s.ops.length = s.opc + 1 := by
  obtain hf | ⟨i, -, hi⟩ := step_fault h
  · obtain ⟨hs, hidle | ⟨-, hfirst, hsecond⟩⟩ := fetch_stuck hf
    · cases hidle
    · have hlt : s.opc < s.ops.length := by simpa using hfirst
      have hge : s.ops.length ≤ s.opc + 1 := by simpa using hsecond
      exact ⟨hs, by omega⟩
  · exact absurd hi (exec_not_awaitSecondWord i s)

/-- Settles O58: a waiting block is in flight and a block between operations is not, nor is one that lacks a second word. -/
theorem hostMovesOnlyBetweenOperations : Obligations.HostMovesOnlyBetweenOperations := by
  refine ⟨fun s q h => ?refused, fun s hinv hs ha => ⟨fun ws => ?supply, fun addr v => ?admitted, fun addr => ?withdraw⟩,
    fun s w1 h => ?secondWord⟩
  case refused =>
    exact ⟨fun _ => betweenOperations_of_awaits _ h, fun _ _ => betweenOperations_of_awaits _ h,
      fun _ => betweenOperations_of_awaits _ h⟩
  case supply =>
    exact ⟨_, betweenOperations_of_idle _ hs ha, rfl,
      hinv.transfer rfl rfl rfl rfl rfl hinv.statusProduced hinv.quiescent⟩
  case admitted =>
    exact ⟨_, betweenOperations_of_idle _ hs ha, rfl, hinv.withSource (Memory.wf_write _ _ _ _ hinv.srcCanonical),
      by rw [memRead_toNat, Memory.read_write_same],
      fun a hne => memRead_congr (Memory.read_write_other _ _ _ _ _ hne)⟩
  case withdraw =>
    exact ⟨_, betweenOperations_of_idle _ hs ha, rfl, hinv.withSource (Memory.wf_forget _ _ _ _ hinv.srcCanonical),
      by rw [memRead_toNat, Memory.read_forget, if_pos (by omega)],
      fun a hne => memRead_congr (by rw [Memory.read_forget, if_neg (by omega)])⟩
  case secondWord =>
    obtain ⟨hs, hlen⟩ := step_awaitSecondWord h
    refine ⟨_, betweenOperations_of_idle _ hs (by simp [h]), ?_, fun hstuck => ?_⟩
    · simp [← hlen]
    · have hlen' := (step_awaitSecondWord hstuck).2
      simp only [List.length_append, List.length_singleton] at hlen'
      omega

/-! ### The transport's answer -/

/-- A controller command whose answer is withheld ends once it is given, with that answer on its write. -/
theorem sendCommand_answered (i : Instr) {s : State} {a : Answer} {rest : List (Option Answer)}
    (h : s.draws = some a :: rest) :
    ∃ t, sendCommand i s = .next t ∧ t.tr[s.tr.length]? = some (entryOf s (commandWrite [i]) a) :=
  ⟨_, sendCommand_draw i s a rest h, by simp⟩

/-- A run of writes that waits ends once the withheld answer is given, with that answer on the write that waited. -/
theorem finishEmitted_answered (len : Nat) (pre : List (Seq × List Byte)) (w : Seq × List Byte)
    (post : List (Seq × List Byte)) {s : State} {a : Answer} {rest : List (Option Answer)}
    (hd : s.draws = ackAll pre ++ some a :: rest) (hrest : none ∉ rest) :
    ∃ t, finishEmitted len (emitAll (pre ++ w :: post) s) = .next t ∧
      t.tr[s.tr.length + pre.length]? = some (entryOf s w.2 a) := by
  obtain ⟨t, he | he, htr⟩ := emitAll_answered pre w post s a rest hd hrest
  · exact ⟨raiseStatus .ok len t, by rw [he]; rfl, htr⟩
  · exact ⟨raiseStatus .transportFailure len t, by rw [he]; rfl, htr⟩

/-- An instruction that waits: the answers before the withheld one go to its earlier writes, and with the withheld one given
and none withheld after it the instruction ends with that answer on that write. -/
theorem exec_answered {i : Instr} {s : State} {q : Seq} (h : exec i s = .fault (.awaitAnswer q)) (a : Answer) :
    ∃ pre rest, s.draws = pre ++ none :: rest ∧ none ∉ pre ∧
      (none ∉ rest → ∃ t bytes, exec i { s with draws := pre ++ some a :: rest } = .next t ∧
        t.tr[s.tr.length + pre.length]? = some (entryOf s bytes a)) := by
  cases hop : i.isOperation with
  | false =>
    rw [exec_command hop] at h
    obtain ⟨t, ht⟩ | ⟨rest, hd, -⟩ := sendCommand_cases i s
    · cases h.symm.trans ht
    · refine ⟨[], rest, hd, by simp, fun _ => ?_⟩
      obtain ⟨t, ht, htr⟩ := sendCommand_answered i (s := { s with draws := some a :: rest }) rfl
      exact ⟨t, _, (exec_command hop _).trans ht, htr⟩
  | true =>
    cases exec_course hop s with
    | ends run _ _ => cases h.symm.trans run
    | emits ws run =>
      obtain ⟨pre, w, post, rest, rfl, -, hd⟩ := finishEmitted_fault ((run s.draws).symm.trans h)
      refine ⟨ackAll pre, rest, hd, none_not_mem_ackAll pre, fun hrest => ?_⟩
      obtain ⟨t, ht, htr⟩ := finishEmitted_answered (encodedLength (encode i)) pre w post
        (s := { s with draws := ackAll pre ++ some a :: rest }) rfl hrest
      exact ⟨t, w.2, (run _).trans ht, by rw [ackAll, List.length_map]; exact htr⟩
    | @composites x y bp dp bw bh base _ _ _ run =>
      obtain ⟨t, ht⟩ | ⟨addr, p, hp, -⟩ | ⟨-, hj⟩ := runBlit_cases (blitJob s.width s.height x y bw bh base) s
      · cases h.symm.trans (run.trans ht)
      · cases h.symm.trans (run.trans hp)
      · cases h.symm.trans (run.trans hj)

/-- Settles O59: the fetched instruction waits, and fetching does not read the answers to come. -/
theorem anAnswerLiftsTheWait : Obligations.AnAnswerLiftsTheWait := by
  intro s q a h
  obtain hf | ⟨i, hf, hi⟩ := step_fault h
  · obtain ⟨-, hw | ⟨hw, -⟩⟩ := fetch_stuck hf <;> cases hw
  · obtain ⟨pre, rest, hd, hpre, hend⟩ := exec_answered hi a
    have hnow := transportAnswersNow_eq a pre rest h hd hpre
    refine ⟨pre, rest, hd, hpre, hnow, fun hrest => ?_⟩
    obtain ⟨t, bytes, ht, htr⟩ := hend hrest
    have hfetch : fetch { s with draws := pre ++ some a :: rest } = .instr i := hf
    exact ⟨t, _, (congrArg step hnow).trans ((step_of_fetch hfetch).trans ht), htr, rfl, rfl⟩

end Sys2Proof.Machine
end

section
/-! The code words and command bytes as numbers, and everything the decoder accepts, said once (30_encoding.md R62 to
R72). -/

namespace Sys2Proof

/-! ### Fields and masks as numbers -/

/-- Fields laid one above the other are a sum (00_scope.md R7). -/
theorem toNat_append_eq_add {m n : Nat} (x : BitVec m) (y : BitVec n) :
    (x ++ y).toNat = x.toNat * 2 ^ n + y.toNat := by
  rw [BitVec.toNat_append, ← Nat.shiftLeft_add_eq_or_of_lt y.isLt, Nat.shiftLeft_eq]

theorem toNat_extractLsb'_eq_div {k : Nat} (x : BitVec k) (lo n : Nat) :
    (x.extractLsb' lo n).toNat = x.toNat / 2 ^ lo % 2 ^ n := by
  rw [BitVec.extractLsb'_toNat, Nat.shiftRight_eq_div_pow]

theorem toNat_field (w : Word) (lo len : Nat) : (field w lo len).toNat = w.toNat / 2 ^ lo % 2 ^ len :=
  toNat_extractLsb'_eq_div w lo len

/-- The opcode byte of a word as a number (30_encoding.md R60). -/
theorem opcode_eq_iff (w : Word) (op : Byte) : field w 0 8 = op ↔ w.toNat % 256 = op.toNat := by
  rw [← BitVec.toNat_inj, toNat_field, Nat.pow_zero, Nat.div_one]
  rfl

/-- A word that is 0 under the mask of the bits from `lo` on is a number below `2 ^ lo` (30_encoding.md R70). -/
theorem and_mask_eq_zero_iff {w mask : Word} (lo : Nat) (hm : ∀ i < 64, mask.getLsbD i = decide (lo ≤ i)) :
    w &&& mask = 0 ↔ w.toNat < 2 ^ lo := by
  constructor
  · intro h
    refine Nat.lt_pow_two_of_testBit _ fun i hi => ?_
    obtain h64 | h64 := Nat.lt_or_ge i 64
    · have hbit := congrArg (BitVec.getLsbD · i) h
      simp only [BitVec.getLsbD_and, hm i h64, hi, decide_true, Bool.and_true] at hbit
      exact hbit.trans BitVec.getLsbD_zero
    · exact BitVec.getLsbD_of_ge w i h64
  · intro h
    apply BitVec.eq_of_getLsbD_eq
    intro i hi
    by_cases hlo : lo ≤ i
    · have hbit : w.getLsbD i = false :=
        Nat.testBit_lt_two_pow (h.trans_le (Nat.pow_le_pow_right (by decide) hlo))
      simp [hbit]
    · simp [hm i hi, hlo]

/-- The bits from `lo` on that a command's mask fixes hold the digits `k` (30_encoding.md R72). -/
theorem fixedBits_of_masked {op mask bits : Byte} (h : op &&& mask = bits) (lo n k : Nat)
    (hm : mask.extractLsb' lo n = BitVec.allOnes n) (hk : bits.toNat / 2 ^ lo % 2 ^ n = k) :
    op.toNat / 2 ^ lo % 2 ^ n = k := by
  rw [← hk, ← toNat_extractLsb'_eq_div, ← toNat_extractLsb'_eq_div, ← h, BitVec.extractLsb'_and, hm,
    BitVec.and_allOnes]

/-- A chain of tests answers by the first that holds. -/
theorem eq_some_of_ite {α : Type} {c : Prop} [Decidable c] {a b : α} {r : Option α}
    (h : (if c then some a else r) = some b) : (c ∧ a = b) ∨ r = some b := by
  split at h
  · exact .inl ⟨‹c›, Option.some.inj h⟩
  · exact .inr h

/-! ### The words of the operations with operands -/

/-- The word of GEOM (30_encoding.md R63). -/
theorem encode_geom (gw gh : BitVec 16) (ga : BitVec 7) :
    ∃ w0 : Word, encode (.geom gw gh ga) = .operation [w0] ∧
      w0.toNat = 0x01 + gw.toNat * 2 ^ 8 + gh.toNat * 2 ^ 24 + ga.toNat * 2 ^ 40 := by
  refine ⟨_, rfl, ?_⟩
  simp only [toNat_append_eq_add, BitVec.toNat_ofNat]
  omega

/-- The word of SETAREA (30_encoding.md R64). -/
theorem encode_setArea (sp ep sc ec : BitVec 8) :
    ∃ w0 : Word, encode (.setArea sp ep sc ec) = .operation [w0] ∧
      w0.toNat = 0x05 + sp.toNat * 2 ^ 8 + ep.toNat * 2 ^ 16 + sc.toNat * 2 ^ 24 + ec.toNat * 2 ^ 32 := by
  refine ⟨_, rfl, ?_⟩
  simp only [toNat_append_eq_add, BitVec.toNat_ofNat]
  omega

/-- The words of INIT (30_encoding.md R65, R66). -/
theorem encode_init (p : BitVec 1) (c : InitConfig) :
    ∃ w0 w1 : Word, encode (.init p c) = .operation [w0, w1] ∧
      w0.toNat = 0x03 + p.toNat * 2 ^ 8 + c.inv.toNat * 2 ^ 9 + c.am.toNat * 2 ^ 10 + c.seg.toNat * 2 ^ 12 +
        c.com.toNat * 2 ^ 13 + c.fm.toNat * 2 ^ 14 + c.zm.toNat * 2 ^ 16 + c.cp.toNat * 2 ^ 17 ∧
      w1.toNat = c.con.toNat + c.ckd.toNat * 2 ^ 8 + c.osc.toNat * 2 ^ 16 + c.pc1.toNat * 2 ^ 24 +
        c.pc2.toNat * 2 ^ 32 + c.fi.toNat * 2 ^ 40 + c.vch.toNat * 2 ^ 48 := by
  refine ⟨_, _, rfl, ?_⟩
  simp only [initWord0, initWord1, toNat_append_eq_add, BitVec.toNat_ofNat]
  omega

/-- The words of BLIT (30_encoding.md R67). -/
theorem encode_blit (x y : BitVec 16) (bp dp : BitVec 1) (bw bh : BitVec 16) (base : BitVec 32) :
    ∃ w0 w1 : Word, encode (.blit x y bp dp bw bh base) = .operation [w0, w1] ∧
      w0.toNat = 0x06 + x.toNat * 2 ^ 8 + y.toNat * 2 ^ 24 + bp.toNat * 2 ^ 40 + dp.toNat * 2 ^ 41 ∧
      w1.toNat = bw.toNat + bh.toNat * 2 ^ 16 + base.toNat * 2 ^ 32 := by
  refine ⟨_, _, rfl, ?_⟩
  simp only [toNat_append_eq_add, BitVec.toNat_ofNat]
  omega

/-! ### The operation words the decoder accepts -/

/-- The words that are an operation, with the operation and its length: each opcode of R61 with its reserved bits 0
(30_encoding.md R62 to R67, R69). -/
inductive OperationCode (w0 : Word) : Option Word → Instr → Nat → Prop
  | geom (w1 : Option Word) (hop : w0.toNat % 256 = 1) (h0 : w0.toNat < 2 ^ 47) : OperationCode w0 w1 (decodeGeom w0) 1
  | release (w1 : Option Word) (hop : w0.toNat % 256 = 2) (h0 : w0.toNat < 2 ^ 8) : OperationCode w0 w1 .release 1
  | init (v : Word) (hop : w0.toNat % 256 = 3) (h0 : w0.toNat < 2 ^ 18) (h1 : v.toNat < 2 ^ 56) :
      OperationCode w0 (some v) (decodeInit w0 v) 2
  | clear (w1 : Option Word) (hop : w0.toNat % 256 = 4) (h0 : w0.toNat < 2 ^ 8) : OperationCode w0 w1 .clear 1
  | setArea (w1 : Option Word) (hop : w0.toNat % 256 = 5) (h0 : w0.toNat < 2 ^ 40) :
      OperationCode w0 w1 (decodeSetArea w0) 1
  | blit (v : Word) (hop : w0.toNat % 256 = 6) (h0 : w0.toNat < 2 ^ 42) : OperationCode w0 (some v) (decodeBlit w0 v) 2
  | showFrame (w1 : Option Word) (hop : w0.toNat % 256 = 7) (h0 : w0.toNat < 2 ^ 8) : OperationCode w0 w1 .showFrame 1

theorem decodeChecked_eq_instr_iff {op : Byte} {w0 w1 : Word} {i : Instr} {n : Nat} :
    decodeChecked op w0 w1 = .instr i n ↔
      selectOp op w0 w1 = some i ∧ (w0 &&& resMask0 op = 0 ∧ w1 &&& resMask1 op = 0) ∧ lenOf op = n := by
  unfold decodeChecked
  cases hsel : selectOp op w0 w1 with
  | none => simp
  | some j =>
    by_cases hres : w0 &&& resMask0 op = 0 ∧ w1 &&& resMask1 op = 0
    · simp [hres]
    · have hbit : w0 &&& resMask0 op ≠ 0 ∨ w1 &&& resMask1 op ≠ 0 := not_and_or.mp hres
      simp only [if_pos hbit, hres, false_and, and_false, reduceCtorEq]

/-- An operation of one word is decoded from that word alone (30_encoding.md R70). -/
theorem decodeOp_one {w0 : Word} (h : lenOf (field w0 0 8) = 1) (w1 : Option Word) :
    decodeOp w0 w1 = decodeChecked (field w0 0 8) w0 0 := by
  unfold decodeOp
  rw [if_neg (by simp [h])]

theorem decodeOp_two {w0 : Word} (h : lenOf (field w0 0 8) = 2) (v : Word) :
    decodeOp w0 (some v) = decodeChecked (field w0 0 8) w0 v := by
  simp only [decodeOp, h, if_true]

theorem decodeOp_missing {w0 : Word} (h : lenOf (field w0 0 8) = 2) : decodeOp w0 none = .incomplete := by
  simp only [decodeOp, h, if_true]

theorem lenOf_eq_one_or_two (op : Byte) : lenOf op = 1 ∨ lenOf op = 2 := by
  unfold lenOf
  split
  · exact .inr rfl
  · exact .inl rfl

/-- What `decodeOp` decodes it has checked, with the word after the first if the opcode asks for one. -/
theorem decodeOp_checked {w0 : Word} {w1 : Option Word} {i : Instr} {n : Nat} (h : decodeOp w0 w1 = .instr i n) :
    ∃ v, decodeChecked (field w0 0 8) w0 v = .instr i n ∧ (lenOf (field w0 0 8) = 2 → w1 = some v) := by
  obtain hlen | hlen := lenOf_eq_one_or_two (field w0 0 8)
  · exact ⟨0, decodeOp_one hlen w1 ▸ h, by simp [hlen]⟩
  · cases w1 with
    | none => cases (decodeOp_missing hlen).symm.trans h
    | some v => exact ⟨v, decodeOp_two hlen v ▸ h, fun _ => rfl⟩

/-- Whatever the decoder accepts is one of the seven operations with its reserved bits 0. -/
theorem OperationCode.of_decodeOp {w0 : Word} {w1 : Option Word} {i : Instr} {n : Nat}
    (h : decodeOp w0 w1 = .instr i n) : OperationCode w0 w1 i n := by
  obtain ⟨v, hchecked, hw1⟩ := decodeOp_checked h
  obtain ⟨hsel, ⟨h0, h1⟩, rfl⟩ := decodeChecked_eq_instr_iff.mp hchecked
  unfold selectOp at hsel
  split_ifs at hsel with hop hop hop hop hop hop hop <;> obtain rfl := Option.some.inj hsel <;>
    rw [hop] at h0 h1 hw1 ⊢ <;> rw [opcode_eq_iff] at hop
  · exact .geom w1 hop ((and_mask_eq_zero_iff 47 (by decide)).mp h0)
  · exact .release w1 hop ((and_mask_eq_zero_iff 8 (by decide)).mp h0)
  · obtain rfl := hw1 rfl
    exact .init v hop ((and_mask_eq_zero_iff 18 (by decide)).mp h0) ((and_mask_eq_zero_iff 56 (by decide)).mp h1)
  · exact .clear w1 hop ((and_mask_eq_zero_iff 8 (by decide)).mp h0)
  · exact .setArea w1 hop ((and_mask_eq_zero_iff 40 (by decide)).mp h0)
  · obtain rfl := hw1 rfl
    exact .blit v hop ((and_mask_eq_zero_iff 42 (by decide)).mp h0)
  · exact .showFrame w1 hop ((and_mask_eq_zero_iff 8 (by decide)).mp h0)

section
variable {w0 : Word} {op : Byte} {i : Instr} (hop : w0.toNat % 256 = op.toNat) (h0 : w0 &&& resMask0 op = 0)
include hop h0

/-- An operation of one word is accepted with any second word. -/
theorem decodeOp_of_select_one (hlen : lenOf op = 1) (hsel : selectOp op w0 0 = some i) (w1 : Option Word) :
    decodeOp w0 w1 = .instr i 1 := by
  obtain rfl := (opcode_eq_iff w0 op).mpr hop
  rw [decodeOp_one hlen]
  exact decodeChecked_eq_instr_iff.mpr ⟨hsel, ⟨h0, BitVec.zero_and⟩, hlen⟩

theorem decodeOp_of_select_two (hlen : lenOf op = 2) {v : Word} (hsel : selectOp op w0 v = some i)
    (h1 : v &&& resMask1 op = 0) : decodeOp w0 (some v) = .instr i 2 := by
  obtain rfl := (opcode_eq_iff w0 op).mpr hop
  rw [decodeOp_two hlen]
  exact decodeChecked_eq_instr_iff.mpr ⟨hsel, ⟨h0, h1⟩, hlen⟩

end

/-- The decoder accepts each of the seven operations with its reserved bits 0. -/
theorem OperationCode.decodeOp_eq {w0 : Word} {w1 : Option Word} {i : Instr} {n : Nat}
    (h : OperationCode w0 w1 i n) : decodeOp w0 w1 = .instr i n := by
  cases h with
  | geom w1 hop h0 =>
    exact decodeOp_of_select_one (op := 0x01) hop ((and_mask_eq_zero_iff 47 (by decide)).mpr h0) rfl rfl w1
  | release w1 hop h0 =>
    exact decodeOp_of_select_one (op := 0x02) hop ((and_mask_eq_zero_iff 8 (by decide)).mpr h0) rfl rfl w1
  | init v hop h0 h1 =>
    exact decodeOp_of_select_two (op := 0x03) hop ((and_mask_eq_zero_iff 18 (by decide)).mpr h0) rfl rfl
      ((and_mask_eq_zero_iff 56 (by decide)).mpr h1)
  | clear w1 hop h0 =>
    exact decodeOp_of_select_one (op := 0x04) hop ((and_mask_eq_zero_iff 8 (by decide)).mpr h0) rfl rfl w1
  | setArea w1 hop h0 =>
    exact decodeOp_of_select_one (op := 0x05) hop ((and_mask_eq_zero_iff 40 (by decide)).mpr h0) rfl rfl w1
  | blit v hop h0 =>
    exact decodeOp_of_select_two (op := 0x06) hop ((and_mask_eq_zero_iff 42 (by decide)).mpr h0) rfl rfl
      BitVec.and_zero
  | showFrame w1 hop h0 =>
    exact decodeOp_of_select_one (op := 0x07) hop ((and_mask_eq_zero_iff 8 (by decide)).mpr h0) rfl rfl w1

/-! ### The operations and their words -/

/-- The accepted words are the operation's own code: its fields and the bits known to be 0 are all the bits there are. -/
theorem OperationCode.encode_eq {w0 : Word} {w1 : Option Word} {i : Instr} {n : Nat} (h : OperationCode w0 w1 i n) :
    encode i = .operation ((w0 :: w1.toList).take n) := by
  have oneWord : ∀ {v0 : Word}, encode i = .operation [v0] → v0.toNat = w0.toNat → encode i = .operation [w0] :=
    fun he h0 => he.trans (by rw [BitVec.eq_of_toNat_eq h0])
  have twoWords : ∀ {v0 v1 w : Word}, encode i = .operation [v0, v1] → v0.toNat = w0.toNat → v1.toNat = w.toNat →
      encode i = .operation [w0, w] :=
    fun he h0 h1 => he.trans (by rw [BitVec.eq_of_toNat_eq h0, BitVec.eq_of_toNat_eq h1])
  cases h with
  | geom w1 hop h0 =>
    obtain ⟨v0, he, hv0⟩ := encode_geom (field w0 8 16) (field w0 24 16) (field w0 40 7)
    simp only [toNat_field] at hv0
    exact oneWord he (by omega)
  | release w1 hop h0 => exact oneWord rfl (show 2 = w0.toNat by omega)
  | init w hop h0 h1 =>
    obtain ⟨v0, v1, he, hv0, hv1⟩ :
      ∃ v0 v1, encode (decodeInit w0 w) = .operation [v0, v1] ∧ _ ∧ _ := encode_init _ _
    simp only [toNat_field] at hv0 hv1
    exact twoWords he (by omega) (by omega)
  | clear w1 hop h0 => exact oneWord rfl (show 4 = w0.toNat by omega)
  | setArea w1 hop h0 =>
    obtain ⟨v0, he, hv0⟩ := encode_setArea (field w0 8 8) (field w0 16 8) (field w0 24 8) (field w0 32 8)
    simp only [toNat_field] at hv0
    exact oneWord he (by omega)
  | blit w hop h0 =>
    obtain ⟨v0, v1, he, hv0, hv1⟩ := encode_blit (field w0 8 16) (field w0 24 16) (field w0 40 1) (field w0 41 1)
      (field w 0 16) (field w 16 16) (field w 32 32)
    simp only [toNat_field] at hv0 hv1
    exact twoWords he (by omega) (by omega)
  | showFrame w1 hop h0 => exact oneWord rfl (show 7 = w0.toNat by omega)

theorem OperationCode.isOperation {w0 : Word} {w1 : Option Word} {i : Instr} {n : Nat} (h : OperationCode w0 w1 i n) :
    i.isOperation = true := by
  cases h <;> rfl

/-- The code of an operation is words the decoder accepts for it: each field is read off where it was laid. -/
theorem exists_operationCode {i : Instr} (h : i.isOperation = true) :
    ∃ w0 ws, encode i = .operation (w0 :: ws) ∧ OperationCode w0 ws.head? i (ws.length + 1) := by
  cases i with
  | geom gw gh ga =>
    obtain ⟨w0, he, hw0⟩ := encode_geom gw gh ga
    have hfields : decodeGeom w0 = .geom gw gh ga := by
      simp only [decodeGeom, Instr.geom.injEq, ← BitVec.toNat_inj, toNat_field]
      omega
    exact ⟨w0, [], he, hfields ▸ .geom none (by omega) (by omega)⟩
  | release => exact ⟨_, _, rfl, .release none (by decide) (by decide)⟩
  | init p c =>
    obtain ⟨w0, w1, he, hw0, hw1⟩ := encode_init p c
    have hfields : decodeInit w0 w1 = .init p c := by
      obtain ⟨inv, am, seg, com, fm, zm, cp, con, ckd, osc, pc1, pc2, fi, vch⟩ := c
      simp only [decodeInit, Instr.init.injEq, InitConfig.mk.injEq, ← BitVec.toNat_inj, toNat_field] at hw0 hw1 ⊢
      omega
    exact ⟨w0, [w1], he, hfields ▸ .init w1 (by omega) (by omega) (by omega)⟩
  | clear => exact ⟨_, _, rfl, .clear none (by decide) (by decide)⟩
  | setArea sp ep sc ec =>
    obtain ⟨w0, he, hw0⟩ := encode_setArea sp ep sc ec
    have hfields : decodeSetArea w0 = .setArea sp ep sc ec := by
      simp only [decodeSetArea, Instr.setArea.injEq, ← BitVec.toNat_inj, toNat_field]
      omega
    exact ⟨w0, [], he, hfields ▸ .setArea none (by omega) (by omega)⟩
  | blit x y bp dp bw bh base =>
    obtain ⟨w0, w1, he, hw0, hw1⟩ := encode_blit x y bp dp bw bh base
    have hfields : decodeBlit w0 w1 = .blit x y bp dp bw bh base := by
      simp only [decodeBlit, Instr.blit.injEq, ← BitVec.toNat_inj, toNat_field]
      omega
    exact ⟨w0, [w1], he, hfields ▸ .blit w1 (by omega) (by omega)⟩
  | showFrame => exact ⟨_, _, rfl, .showFrame none (by decide) (by decide)⟩
  | _ => cases h

/-! ### The command bytes the decoder accepts -/

/-- The bytes that begin with a command, with the command and its length (30_encoding.md R72). -/
inductive CommandCode : List Byte → Instr → Nat → Prop
  | one {op : Byte} {i : Instr} (h : decodeOneByte op = some i) (rest : List Byte) : CommandCode (op :: rest) i 1
  | two {op v : Byte} {i : Instr} (hn : operandBytes op = some 1) (h : decodeTwoBytes op v = some i)
      (rest : List Byte) : CommandCode (op :: v :: rest) i 2
  | three {op v w : Byte} {i : Instr} (hn : operandBytes op = some 2) (h : decodeThreeBytes op v w = some i)
      (rest : List Byte) : CommandCode (op :: v :: w :: rest) i 3

theorem CommandCode.decodeCommand_eq {bs : List Byte} {i : Instr} {n : Nat} (h : CommandCode bs i n) :
    decodeCommand bs = .instr i n := by
  cases h with
  | one h rest =>
    have hn : operandBytes _ = some 0 := if_pos (by rw [h]; rfl)
    simp only [decodeCommand, hn, h]
  | two hn h rest => simp only [decodeCommand, hn, h]
  | three hn h rest => simp only [decodeCommand, hn, h]

/-- Every command has an opcode byte. -/
theorem CommandCode.length_pos {bs : List Byte} {i : Instr} {n : Nat} (h : CommandCode bs i n) : 0 < n := by
  cases h <;> decide

theorem operandBytes_le_two {op : Byte} {n : Nat} (h : operandBytes op = some n) : n ≤ 2 := by
  unfold operandBytes at h
  split_ifs at h <;> obtain rfl := Option.some.inj h <;> decide

theorem CommandCode.of_decodeCommand {bs : List Byte} {i : Instr} {n : Nat} (h : decodeCommand bs = .instr i n) :
    CommandCode bs i n := by
  cases bs with
  | nil => cases h
  | cons op rest =>
    cases hn : operandBytes op with
    | none => simp [decodeCommand, hn] at h
    | some k =>
      have hk := operandBytes_le_two hn
      simp only [decodeCommand, hn] at h
      interval_cases k
      · cases hd : decodeOneByte op with
        | none => simp [hd] at h
        | some j =>
          obtain ⟨rfl, rfl⟩ := Decoded.instr.inj (by simpa only [hd] using h)
          exact .one hd rest
      · obtain _ | ⟨v, rest⟩ := rest
        · cases h
        · cases hd : decodeTwoBytes op v with
          | none => simp [hd] at h
          | some j =>
            obtain ⟨rfl, rfl⟩ := Decoded.instr.inj (by simpa only [hd] using h)
            exact .two hn hd rest
      · obtain _ | ⟨v, _ | ⟨w, rest⟩⟩ := rest
        · cases h
        · cases h
        · cases hd : decodeThreeBytes op v w with
          | none => simp [hd] at h
          | some j =>
            obtain ⟨rfl, rfl⟩ := Decoded.instr.inj (by simpa only [hd] using h)
            exact .three hn hd rest

/-! ### The commands and their bytes -/

theorem encode_command {i : Instr} (h : i.isOperation = false) : encode i = .command (encodeCommand i) := by
  cases i <;> cases h <;> rfl

@[simp] theorem hiNibble_append (a b : BitVec 4) : hiNibble (a ++ b) = a := by
  rw [← BitVec.toNat_inj, hiNibble, toNat_extractLsb'_eq_div, toNat_append_eq_add]
  omega

@[simp] theorem loNibble_append (a b : BitVec 4) : loNibble (a ++ b) = b := by
  rw [← BitVec.toNat_inj, loNibble, toNat_extractLsb'_eq_div, toNat_append_eq_add]
  omega

theorem nibbles_append (b : Byte) : hiNibble b ++ loNibble b = b := by
  apply BitVec.eq_of_toNat_eq
  rw [toNat_append_eq_add, hiNibble, loNibble, toNat_extractLsb'_eq_div, toNat_extractLsb'_eq_div]
  omega

/-- Bytes that begin with a command's code begin with that command. -/
theorem commandCode_encodeCommand {i : Instr} (h : i.isOperation = false) (rest : List Byte) :
    CommandCode (encodeCommand i ++ rest) i (encodeCommand i).length := by
  cases i with
  | displayOff => exact .one rfl rest
  | displayOn => exact .one rfl rest
  | setComScan d => exact .one (by revert d; decide) rest
  | setMux m => exact .two rfl rfl rest
  | setClkDiv f d => exact .two rfl (by simp [decodeTwoBytes]) rest
  | setNormalInverse v => exact .one (by revert v; decide) rest
  | entireDisplayResume => exact .one rfl rest
  | setStartLine l => exact .one (by revert l; decide) rest
  | setContrast c => exact .two rfl rfl rest
  | setFade m t => exact .two rfl (by simp [decodeTwoBytes]) rest
  | setZoom z => exact .two rfl rfl rest
  | setDisplayOffset o => exact .two rfl rfl rest
  | setAddrMode a => exact .two rfl rfl rest
  | setPrecharge p2 p1 => exact .two rfl (by simp [decodeTwoBytes]) rest
  | setVcomh v => exact .two rfl rfl rest
  | setComPins b => exact .two rfl rfl rest
  | setSegRemap g => exact .one (by revert g; decide) rest
  | setChargePump e => exact .two rfl rfl rest
  | setColRange sc ec => exact .three rfl rfl rest
  | setPageRange sp ep => exact .three rfl rfl rest
  | setPageStart p => exact .one (by revert p; decide) rest
  | setColLow n => exact .one (by revert n; decide) rest
  | setColHigh n => exact .one (by revert n; decide) rest
  | _ => cases h

/-- Bits that a mask fixes, with the operand bits below them, are the byte. -/
theorem fixed_append_operand {op mask bits : Byte} {m n : Nat} (x : BitVec m) (hmn : n + m = 8)
    (h : op &&& mask = bits) (hm : mask.extractLsb' n m = BitVec.allOnes m) (hx : bits.toNat / 2 ^ n % 2 ^ m = x.toNat) :
    (x ++ op.extractLsb' 0 n).toNat = op.toNat := by
  have hlt : op.toNat / 2 ^ n < 2 ^ m := Nat.div_lt_of_lt_mul (by rw [← Nat.pow_add, hmn]; exact op.isLt)
  rw [toNat_append_eq_add, ← fixedBits_of_masked h n m _ hm hx, Nat.mod_eq_of_lt hlt, toNat_extractLsb'_eq_div,
    Nat.pow_zero, Nat.div_one, Nat.div_add_mod']

/-- A byte accepted as a command is that command's code: its mask fixes every bit that is no operand's. -/
theorem encodeCommand_of_decodeOneByte {op : Byte} {i : Instr} (h : decodeOneByte op = some i) :
    i.isOperation = false ∧ encodeCommand i = [op] := by
  have byte : ∀ {b : Byte}, b.toNat = op.toNat → [b] = [op] := fun hb => by rw [BitVec.eq_of_toNat_eq hb]
  unfold decodeOneByte at h
  obtain ⟨rfl, rfl⟩ | h := eq_some_of_ite h
  · exact ⟨rfl, rfl⟩
  obtain ⟨rfl, rfl⟩ | h := eq_some_of_ite h
  · exact ⟨rfl, rfl⟩
  obtain ⟨hm, rfl⟩ | h := eq_some_of_ite h
  · have hlow := fixedBits_of_masked hm 0 3 0 rfl rfl
    have hhigh := fixedBits_of_masked hm 4 4 0b1100 rfl rfl
    refine ⟨rfl, byte ?_⟩
    simp only [toNat_append_eq_add, toNat_extractLsb'_eq_div, BitVec.toNat_ofNat]
    omega
  obtain ⟨hm, rfl⟩ | h := eq_some_of_ite h
  · exact ⟨rfl, byte (fixed_append_operand _ rfl hm rfl rfl)⟩
  obtain ⟨rfl, rfl⟩ | h := eq_some_of_ite h
  · exact ⟨rfl, rfl⟩
  iterate 5
    obtain ⟨hm, rfl⟩ | h := eq_some_of_ite h
    · exact ⟨rfl, byte (fixed_append_operand _ rfl hm rfl rfl)⟩
  cases h

theorem encodeCommand_of_decodeTwoBytes {op v : Byte} {i : Instr} (h : decodeTwoBytes op v = some i) :
    i.isOperation = false ∧ encodeCommand i = [op, v] := by
  unfold decodeTwoBytes at h
  iterate 11
    obtain ⟨rfl, rfl⟩ | h := eq_some_of_ite h
    · exact ⟨rfl, by simp only [encodeCommand, nibbles_append]⟩
  cases h

theorem encodeCommand_of_decodeThreeBytes {op v w : Byte} {i : Instr} (h : decodeThreeBytes op v w = some i) :
    i.isOperation = false ∧ encodeCommand i = [op, v, w] := by
  unfold decodeThreeBytes at h
  iterate 2
    obtain ⟨rfl, rfl⟩ | h := eq_some_of_ite h
    · exact ⟨rfl, rfl⟩
  cases h

/-- Accepted bytes begin with the command's own code. -/
theorem CommandCode.encodeCommand_eq {bs : List Byte} {i : Instr} {n : Nat} (h : CommandCode bs i n) :
    i.isOperation = false ∧ encodeCommand i = bs.take n := by
  cases h with
  | one h rest => exact encodeCommand_of_decodeOneByte h
  | two hn h rest => exact encodeCommand_of_decodeTwoBytes h
  | three hn h rest => exact encodeCommand_of_decodeThreeBytes h

end Sys2Proof
end

section
/-! The statements on encoding and decoding. -/

namespace Sys2Proof.Machine

/-- Settles O1: the code of an operation is words the decoder accepts for it, the code of a command bytes. -/
theorem decodeInvertsEncode : Obligations.DecodeInvertsEncode := by
  intro i
  cases hop : i.isOperation with
  | true =>
    obtain ⟨w0, ws, hcode, haccepted⟩ := exists_operationCode hop
    rw [hcode]
    exact haccepted.decodeOp_eq
  | false =>
    rw [encode_command hop]
    have haccepted := commandCode_encodeCommand hop []
    rw [List.append_nil] at haccepted
    exact haccepted.decodeCommand_eq

/-- Settles O2: by the operation or the command that the decoder accepted. -/
theorem acceptedCodeIsTheEncoding : Obligations.AcceptedCodeIsTheEncoding := by
  refine ⟨fun w0 w1 i n h => ?operation, fun bs i n h => ?command⟩
  case operation =>
    have hcode := OperationCode.of_decodeOp h
    exact ⟨hcode.isOperation, hcode.encode_eq⟩
  case command =>
    obtain ⟨hop, hbytes⟩ := (CommandCode.of_decodeCommand h).encodeCommand_eq
    exact ⟨hop, by rw [encode_command hop, hbytes]⟩

/-- The bytes of commands in a row parse back to them once the fuel is as much as the bytes. -/
theorem parseCommands_flatMap {cs : List Instr} (h : ∀ c ∈ cs, c.isOperation = false) {fuel : Nat}
    (hfuel : (cs.flatMap encodeCommand).length ≤ fuel) : parseCommands fuel (cs.flatMap encodeCommand) = cs := by
  induction cs generalizing fuel with
  | nil => cases fuel <;> rfl
  | cons c cs ih =>
    have hc : c.isOperation = false := h c (List.mem_cons_self)
    have hpos := (commandCode_encodeCommand hc []).length_pos
    rw [List.flatMap_cons, List.length_append] at hfuel
    obtain ⟨k, rfl⟩ := Nat.exists_eq_add_of_le' (show 1 ≤ fuel by omega)
    rw [List.flatMap_cons, parseCommands, (commandCode_encodeCommand hc _).decodeCommand_eq]
    simp only [List.drop_left]
    rw [ih (fun d hd => h d (List.mem_cons_of_mem c hd)) (by omega)]

/-- Settles O4: the fuel is the length of the payload. -/
theorem commandWriteReadsBack : Obligations.CommandWriteReadsBack := by
  intro cs h
  exact parseCommands_flatMap h le_rfl

end Sys2Proof.Machine
end

section
/-! Fetching illegal and missing words. -/

namespace Sys2Proof.Machine

/-- Between operations an illegal word ends with `IllegalOperation` and is passed over (30_encoding.md R69). -/
theorem step_of_illegal {s : State} {w0 : Word} {why : Reject} {len : Nat} (hs : s.seq = .idle)
    (hw : s.ops[s.opc]? = some w0) (hd : decodeOp w0 s.ops[s.opc + 1]? = .illegal why len) :
    step s = .next { s with status := .illegalOperation, opc := s.opc + len } := by
  have hf : fetch s = .illegal len := by simp [fetch, hs, fetchOperation, hw, hd]
  simp only [step, hf, execIllegal, raiseStatus, ← hs]

/-- A word that is none of the seven operations, its second word supplied where its opcode asks for one, is illegal. -/
theorem decodeOp_illegal {w0 : Word} {w1 : Option Word} (hcode : ∀ i n, ¬ OperationCode w0 w1 i n)
    (hw1 : lenOf (field w0 0 8) = 2 → w1 ≠ none) : ∃ why, decodeOp w0 w1 = .illegal why (lenOf (field w0 0 8)) := by
  have hlen := decodeOp_hasLength w0 w1
  cases hd : decodeOp w0 w1 with
  | instr i n => exact absurd (OperationCode.of_decodeOp hd) (hcode i n)
  | illegal why n =>
    rw [hd] at hlen
    obtain rfl : n = lenOf (field w0 0 8) := hlen
    exact ⟨why, rfl⟩
  | incomplete =>
    obtain hone | htwo := lenOf_eq_one_or_two (field w0 0 8)
    · cases decodeOp_incomplete ((decodeOp_one hone (some 0)).trans ((decodeOp_one hone w1).symm.trans hd))
    · exact absurd (decodeOp_incomplete hd) (hw1 htwo)

section
variable {s : State} {w0 : Word} (hs : s.seq = .idle) (hw : s.ops[s.opc]? = some w0)
include hs hw

/-- An illegal word whose opcode is none of two words' is passed over by itself. -/
theorem step_illegal_one (hop : ¬ (w0.toNat % 256 = 3 ∨ w0.toNat % 256 = 6))
    (hcode : ∀ w1 i n, ¬ OperationCode w0 w1 i n) :
    step s = .next { s with status := .illegalOperation, opc := s.opc + 1 } := by
  have hlen : lenOf (field w0 0 8) = 1 := (lenOf_opcode w0).trans (if_neg hop)
  obtain ⟨why, hd⟩ := decodeOp_illegal (hcode _) (by simp [hlen])
  exact step_of_illegal hs hw (hlen ▸ hd)

/-- An illegal word of INIT's or BLIT's opcode is passed over with the word after it. -/
theorem step_illegal_two {w1 : Word} (hw1 : s.ops[s.opc + 1]? = some w1)
    (hop : w0.toNat % 256 = 3 ∨ w0.toNat % 256 = 6) (hcode : ∀ i n, ¬ OperationCode w0 (some w1) i n) :
    step s = .next { s with status := .illegalOperation, opc := s.opc + 2 } := by
  have hlen : lenOf (field w0 0 8) = 2 := (lenOf_opcode w0).trans (if_pos hop)
  obtain ⟨why, hd⟩ := decodeOp_illegal hcode (by simp)
  exact step_of_illegal hs hw (hw1 ▸ hlen ▸ hd)

end

/-- Settles O6: no accepted word has such an opcode or such a bit, by the bounds of the seven operations. -/
theorem illegalWordsReportIllegalOperation : Obligations.IllegalWordsReportIllegalOperation := by
  refine ⟨fun s w0 hs hw hop => ?opcode, fun s w0 hs hw hop hbit => ?bare, fun s w0 hs hw hop hbit => ?geom,
    fun s w0 hs hw hop hbit => ?setArea, fun s w0 w1 hs hw hw1 hop hbit => ?init,
    fun s w0 w1 hs hw hw1 hop hbit => ?blit, fun w0 w1 => ?total⟩
  case opcode => exact step_illegal_one hs hw (by omega) fun w1 i n hc => by cases hc <;> omega
  case bare => exact step_illegal_one hs hw (by omega) fun w1 i n hc => by cases hc <;> omega
  case geom => exact step_illegal_one hs hw (by omega) fun w1 i n hc => by cases hc <;> omega
  case setArea => exact step_illegal_one hs hw (by omega) fun w1 i n hc => by cases hc <;> omega
  case init => exact step_illegal_two hs hw hw1 (.inl hop) fun i n hc => by cases hc <;> omega
  case blit => exact step_illegal_two hs hw hw1 (.inr hop) fun i n hc => by cases hc <;> omega
  case total =>
    cases hd : decodeOp w0 (some w1) with
    | instr i n => exact .inl ⟨i, n, rfl, (OperationCode.of_decodeOp hd).isOperation⟩
    | illegal why n => exact .inr ⟨why, n, rfl⟩
    | incomplete => cases decodeOp_incomplete hd

/-- Settles O7: the opcode alone says that a second word is asked for, before any other bit is looked at. -/
theorem missingWordsAreStuck : Obligations.MissingWordsAreStuck := by
  refine ⟨fun s w0 hs hw hnone hop => ?second, fun s hs hw => ?first⟩
  case second =>
    have hd : decodeOp w0 s.ops[s.opc + 1]? = .incomplete := by
      rw [hnone]
      exact decodeOp_missing ((lenOf_opcode w0).trans (if_pos hop))
    simp [step, fetch, hs, fetchOperation, hw, hd]
  case first => simp [step, fetch, hs, fetchOperation, hw]

/-- Settles O19: the presence bit is the first of INIT's own checks. -/
theorem initRejectsAnAbsentConfiguration : Obligations.InitRejectsAnAbsentConfiguration :=
  fun _ _ hr => (whenReady_ready hr 2 _).trans (if_pos rfl)

end Sys2Proof.Machine
end

section
/-! The writes of the operations, and the one-byte commands. -/

namespace Sys2Proof.Machine

/-- A command whose answer is scheduled goes out as one command write of its bytes (30_encoding.md R71; log entry 3). -/
theorem exec_command_answered {i : Instr} (hop : i.isOperation = false) {s : State} {a : Answer}
    {ds : List (Option Answer)} (hd : s.draws = some a :: ds) :
    exec i s = .next (afterCommand s (encodeCommand i) a ds) := by
  rw [exec_command hop, sendCommand_draw i s a ds hd]
  simp [afterCommand, commandWrite, entryOf, acked, Config.ctrlCmd]

/-- Settles O39: each byte is the rule's bits with the operand's bits in their place. -/
theorem oneByteCommandsAreSent : Obligations.OneByteCommandsAreSent := by
  intro s a ds hd
  have sent : ∀ {i : Instr} {b : Byte}, i.isOperation = false → encodeCommand i = [b] →
      exec i s = .next (afterCommand s [b] a ds) :=
    fun hop hb => hb ▸ exec_command_answered hop hd
  have byte : ∀ {b b' : Byte}, b = b' → [b] = [b'] := fun h => by rw [h]
  refine ⟨sent rfl rfl, sent rfl rfl, fun d => sent rfl (byte ?_), fun v => sent rfl (byte ?_), sent rfl rfl,
    fun l => sent rfl (byte ?_), fun g => sent rfl (byte ?_), fun p => sent rfl (byte ?_), fun n => sent rfl (byte ?_),
    fun n => sent rfl (byte ?_)⟩
  · revert d; decide
  · revert v; decide
  · revert l; decide
  · revert g; decide
  · revert p; decide
  · revert n; decide
  · revert n; decide

/-- INIT's sequence is eighteen controller commands, well formed whatever the record (41_encoder.md R94). -/
theorem initCommands_wellFormed (c : InitConfig) (h : Nat) :
    ∀ i ∈ initCommands c h, i.isOperation = false ∧ i.WellFormed := by
  have hfade : c.fm.toNat % 16 < 4 := by omega
  have hzoom : c.zm.setWidth 8 = (0 : Byte) ∨ c.zm.setWidth 8 = (1 : Byte) := by
    generalize c.zm = z
    revert z
    decide
  have hpins : comPinsByte (altOf h) Config.comLrRemap &&& 0xCF = 0x02 := by
    generalize altOf h = alt
    revert alt
    decide
  have hpump : chargePumpByte c.cp = 0x14 ∨ chargePumpByte c.cp = 0x10 := by
    generalize c.cp = cp
    revert cp
    decide
  simpa [initCommands, Instr.isOperation, Instr.WellFormed, Instr.wf] using ⟨hfade, hzoom, hpins, hpump⟩

/-- The bytes a write of `i` may carry: a command write of well-formed commands, from INIT, SETAREA and SHOW, or a data
write of one page, from SHOW (30_encoding.md R71). -/
def WriteOf (s : State) (i : Instr) (bytes : List Byte) : Prop :=
  (∃ cs : List Instr, bytes = 0x00 :: cs.flatMap encodeCommand ∧ (∀ c ∈ cs, c.isOperation = false ∧ c.WellFormed) ∧
    ((∃ p cfg, i = .init p cfg ∧ cs.length = 18) ∨
      (((∃ sp ep sc ec, i = .setArea sp ep sc ec) ∨ i = .showFrame) ∧ cs.length = 1))) ∨
  (i = .showFrame ∧ ∃ p < s.pages, bytes = 0x40 :: (List.range s.width).map fun c => s.pix (p * s.width + c))

theorem initWrites_writeOf (s : State) (p : BitVec 1) (c : InitConfig) :
    ∀ w ∈ initWrites c s.height, WriteOf s (.init p c) w.2 := by
  intro w hw
  obtain rfl := List.mem_singleton.mp hw
  exact .inl ⟨_, rfl, initCommands_wellFormed c s.height, .inl ⟨p, c, rfl, rfl⟩⟩

/-- A well-formed command in a write of its own, from SETAREA or SHOW. -/
theorem WriteOf.command {s : State} {i c : Instr} (hi : (∃ sp ep sc ec, i = .setArea sp ep sc ec) ∨ i = .showFrame)
    (hop : c.isOperation = false) (hwf : c.WellFormed) : WriteOf s i (commandWrite [c]) :=
  .inl ⟨[c], rfl, fun _ hd => List.mem_singleton.mp hd ▸ ⟨hop, hwf⟩, .inr ⟨hi, rfl⟩⟩

theorem areaWrites_writeOf (s : State) (sp ep sc ec : BitVec 8) :
    ∀ w ∈ areaWrites sp ep sc ec, WriteOf s (.setArea sp ep sc ec) w.2 := by
  intro w hw
  simp only [areaWrites, List.mem_cons, List.not_mem_nil, or_false] at hw
  obtain rfl | rfl := hw
  · exact .command (.inl ⟨sp, ep, sc, ec, rfl⟩) rfl rfl
  · exact .command (.inl ⟨sp, ep, sc, ec, rfl⟩) rfl rfl

theorem pageWrites_writeOf {s : State} {p : Nat} (hp : p < s.pages) :
    ∀ w ∈ pageWrites s p, WriteOf s .showFrame w.2 := by
  intro w hw
  simp only [pageWrites, List.mem_cons, List.not_mem_nil, or_false] at hw
  obtain rfl | rfl | rfl | rfl := hw
  · exact .command (.inr rfl) rfl rfl
  · exact .command (.inr rfl) rfl rfl
  · exact .command (.inr rfl) rfl rfl
  · exact .inr ⟨rfl, p, hp, rfl⟩

theorem showWrites_writeOf (s : State) : ∀ w ∈ showWrites s, WriteOf s .showFrame w.2 := by
  intro w hw
  obtain rfl | hw := List.mem_cons.mp hw
  · exact .command (.inr rfl) rfl rfl
  · obtain ⟨p, hp, hw⟩ := List.mem_flatMap.mp hw
    exact pageWrites_writeOf (List.mem_range.mp hp) w hw

/-- What an operation added to the transcript, every entry a write it may make. -/
def AddsWritesOf (s : State) (i : Instr) (t : State) : Prop :=
  ∃ es, t.tr = s.tr ++ es ∧ ∀ e ∈ es, e.addr = s.devAddr ∧ WriteOf s i e.bytes

theorem AddsWritesOf.of_status (s : State) (i : Instr) (code : StatusCode) (len : Nat) :
    AddsWritesOf s i (raiseStatus code len s) :=
  ⟨[], by simp, by simp⟩

theorem AddsWritesOf.of_emitted {s t : State} {i : Instr} {len : Nat} {ws : List (Seq × List Byte)}
    (h : finishEmitted len (emitAll ws s) = .next t) (hws : ∀ w ∈ ws, WriteOf s i w.2) : AddsWritesOf s i t := by
  obtain ⟨es, htr, hes⟩ := finishEmitted_entries h
  refine ⟨es, htr, fun e he => ?_⟩
  obtain ⟨w, hw, a, rfl⟩ := hes e he
  exact ⟨rfl, hws w hw⟩

theorem execInit_addsWrites {p : BitVec 1} {c : InitConfig} {s t : State} (h : execInit p c s = .next t) :
    AddsWritesOf s (.init p c) t := by
  obtain ⟨-, rfl⟩ | ⟨-, -, rfl⟩ | ⟨-, -, -, h⟩ := execInit_next h
  · exact .of_status s _ _ _
  · exact .of_status s _ _ _
  · exact .of_emitted h (initWrites_writeOf s p c)

theorem execSetArea_addsWrites {sp ep sc ec : BitVec 8} {s t : State} (h : execSetArea sp ep sc ec s = .next t) :
    AddsWritesOf s (.setArea sp ep sc ec) t := by
  obtain ⟨-, rfl⟩ | ⟨-, -, rfl⟩ | ⟨-, -, h⟩ := execSetArea_next h
  · exact .of_status s _ _ _
  · exact .of_status s _ _ _
  · exact .of_emitted h (areaWrites_writeOf s sp ep sc ec)

theorem execShow_addsWrites {s t : State} (h : execShow s = .next t) : AddsWritesOf s .showFrame t := by
  obtain ⟨-, rfl⟩ | ⟨-, h⟩ := execShow_next h
  · exact .of_status s _ _ _
  · exact .of_emitted h (showWrites_writeOf s)

theorem execGeom_tr {gw gh : BitVec 16} {ga : BitVec 7} {s t : State} (h : execGeom gw gh ga s = .next t) :
    t.tr = s.tr := by
  obtain ⟨-, rfl⟩ | ⟨-, rfl⟩ := execGeom_next h <;> rfl

theorem execRelease_tr {s t : State} (h : execRelease s = .next t) : t.tr = s.tr := by
  obtain ⟨-, rfl⟩ | ⟨-, rfl⟩ := execRelease_next h <;> rfl

theorem execClear_tr {s t : State} (h : execClear s = .next t) : t.tr = s.tr := by
  obtain ⟨-, rfl⟩ | ⟨-, rfl⟩ := execClear_next h <;> rfl

theorem execBlit_tr {x y : BitVec 16} {bp dp : BitVec 1} {bw bh : BitVec 16} {base : BitVec 32} {s t : State}
    (h : execBlit x y bp dp bw bh base s = .next t) : t.tr = s.tr := by
  obtain ⟨-, rfl⟩ | ⟨-, -, rfl⟩ | ⟨-, -, -, rfl⟩ | ⟨-, -, -, h⟩ := execBlit_next h
  · rfl
  · rfl
  · rfl
  · obtain ⟨-, fb, -, rfl⟩ := runBlit_next h
    rfl

/-- Settles O43: INIT, SETAREA and SHOW add writes of theirs, the other four none. -/
theorem operationsFrameTheirWrites : Obligations.OperationsFrameTheirWrites := by
  intro i s t hop h
  have silent : t.tr = s.tr → ∀ p : Prop, ∃ es : List BusEntry, t.tr = s.tr ++ es ∧
      (∀ e ∈ es, e.addr = s.devAddr ∧ WriteOf s i e.bytes) ∧ (p → es = []) :=
    fun htr _ => ⟨[], by simp [htr], by simp, fun _ => rfl⟩
  cases i with
  | geom gw gh ga => exact silent (execGeom_tr h) _
  | release => exact silent (execRelease_tr h) _
  | clear => exact silent (execClear_tr h) _
  | blit x y bp dp bw bh base => exact silent (execBlit_tr h) _
  | init p c =>
    obtain ⟨es, htr, hes⟩ := execInit_addsWrites h
    exact ⟨es, htr, hes, by simp⟩
  | setArea sp ep sc ec =>
    obtain ⟨es, htr, hes⟩ := execSetArea_addsWrites h
    exact ⟨es, htr, hes, by simp⟩
  | showFrame =>
    obtain ⟨es, htr, hes⟩ := execShow_addsWrites h
    exact ⟨es, htr, hes, by simp⟩
  | _ => cases hop

end Sys2Proof.Machine
end

section
/-! The assembler. -/

namespace Sys2Proof.Machine

/-- A number that fits its field goes on, and one that does not ends the line (30_encoding.md R73). -/
theorem asmField_bind {α : Type} (n v : Nat) (f : BitVec n → Option α) :
    (asmField n v >>= f) = if v < 2 ^ n then f (BitVec.ofNat n v) else none := by
  unfold asmField
  split <;> rfl

/-- A line other than `.word` gives the words of its operation. -/
theorem assemble_eq_map {l : AsmLine} (hl : ∀ w, l ≠ .word w) :
    assemble l = (assembleOp l).map fun i => operationWords (encode i) := by
  cases l with
  | word w => exact absurd rfl (hl w)
  | _ => rfl

/-- A line of a form whose numbers must fit: its words if they do. -/
theorem assemble_eq_ite {l : AsmLine} (hl : ∀ w, l ≠ .word w) {fits : Prop} [Decidable fits] {i : Instr}
    (hop : assembleOp l = if fits then some i else none) {ws : List Word} (hws : fits → encode i = .operation ws) :
    assemble l = if fits then some ws else none := by
  rw [assemble_eq_map hl, hop]
  split
  · rename_i hfits
    rw [Option.map_some, hws hfits, operationWords]
  · rfl

/-- The record of numbers that fit their fields. -/
def configOfNumbers (c : AsmConfig) : InitConfig where
  inv := BitVec.ofNat 1 c.inverse
  am := BitVec.ofNat 2 c.addrmode
  seg := BitVec.ofNat 1 c.segremap
  com := BitVec.ofNat 1 c.comremap
  fm := BitVec.ofNat 2 c.fademode
  zm := BitVec.ofNat 1 c.zoom
  cp := BitVec.ofNat 1 c.chargepump
  con := BitVec.ofNat 8 c.contrast
  ckd := BitVec.ofNat 8 c.clkdiv
  osc := BitVec.ofNat 8 c.osc
  pc1 := BitVec.ofNat 8 c.pre1
  pc2 := BitVec.ofNat 8 c.pre2
  fi := BitVec.ofNat 8 c.fadeint
  vch := BitVec.ofNat 8 c.vcomh

/-- Every number of `INIT` fits its field (30_encoding.md R65, R66, R73). -/
abbrev AsmConfig.Fits (c : AsmConfig) : Prop :=
  (c.inverse < 2 ∧ c.addrmode < 4 ∧ c.segremap < 2 ∧ c.comremap < 2 ∧ c.fademode < 4 ∧ c.zoom < 2 ∧ c.chargepump < 2) ∧
  (c.contrast < 256 ∧ c.clkdiv < 256 ∧ c.osc < 256 ∧ c.pre1 < 256 ∧ c.pre2 < 256 ∧ c.fadeint < 256 ∧ c.vcomh < 256)

theorem asmConfig_eq (c : AsmConfig) : asmConfig c = if c.Fits then some (configOfNumbers c) else none := by
  simp only [asmConfig, asmField_bind, AsmConfig.Fits, ite_and]
  rfl

theorem toNat_ofNat_of_lt {n v : Nat} (h : v < 2 ^ n) : (BitVec.ofNat n v).toNat = v := by
  rw [BitVec.toNat_ofNat, Nat.mod_eq_of_lt h]

theorem toNat_oneBit : (1#1).toNat = 1 := rfl

/-- A code of one word is the number that its word is. -/
theorem operation_ofNat {w0 : Word} {k : Nat} (h : w0.toNat = k) :
    Encoded.operation [w0] = .operation [BitVec.ofNat 64 k] := by
  rw [← h, BitVec.ofNat_toNat, BitVec.setWidth_eq]

theorem operation_ofNat_two {w0 w1 : Word} {k l : Nat} (h0 : w0.toNat = k) (h1 : w1.toNat = l) :
    Encoded.operation [w0, w1] = .operation [BitVec.ofNat 64 k, BitVec.ofNat 64 l] := by
  rw [← h0, ← h1, BitVec.ofNat_toNat, BitVec.ofNat_toNat, BitVec.setWidth_eq, BitVec.setWidth_eq]

/-- GEOM (30_encoding.md R63, R73). -/
theorem assemble_geom (w h addr : Nat) : assemble (.geom w h addr) =
    if w < 2 ^ 16 ∧ h < 2 ^ 16 ∧ addr < 2 ^ 7 then some [BitVec.ofNat 64 (0x01 + w * 2 ^ 8 + h * 2 ^ 24 + addr * 2 ^ 40)]
    else none := by
  have hop : assembleOp (.geom w h addr) = if w < 2 ^ 16 ∧ h < 2 ^ 16 ∧ addr < 2 ^ 7 then
      some (.geom (BitVec.ofNat 16 w) (BitVec.ofNat 16 h) (BitVec.ofNat 7 addr)) else none := by
    simp only [assembleOp, asmField_bind, ite_and]
    rfl
  refine assemble_eq_ite (by simp) hop fun ⟨hw, hh, haddr⟩ => ?_
  obtain ⟨w0, he, hw0⟩ := encode_geom (BitVec.ofNat 16 w) (BitVec.ofNat 16 h) (BitVec.ofNat 7 addr)
  simp only [toNat_ofNat_of_lt, hw, hh, haddr] at hw0
  exact he.trans (operation_ofNat hw0)

/-- SETAREA (30_encoding.md R64, R73). -/
theorem assemble_setArea (sp ep sc ec : Nat) : assemble (.setArea sp ep sc ec) =
    if sp < 2 ^ 8 ∧ ep < 2 ^ 8 ∧ sc < 2 ^ 8 ∧ ec < 2 ^ 8 then
      some [BitVec.ofNat 64 (0x05 + sp * 2 ^ 8 + ep * 2 ^ 16 + sc * 2 ^ 24 + ec * 2 ^ 32)]
    else none := by
  have hop : assembleOp (.setArea sp ep sc ec) = if sp < 2 ^ 8 ∧ ep < 2 ^ 8 ∧ sc < 2 ^ 8 ∧ ec < 2 ^ 8 then
      some (.setArea (BitVec.ofNat 8 sp) (BitVec.ofNat 8 ep) (BitVec.ofNat 8 sc) (BitVec.ofNat 8 ec)) else none := by
    simp only [assembleOp, asmField_bind, ite_and]
    rfl
  refine assemble_eq_ite (by simp) hop fun ⟨hsp, hep, hsc, hec⟩ => ?_
  obtain ⟨w0, he, hw0⟩ := encode_setArea (BitVec.ofNat 8 sp) (BitVec.ofNat 8 ep) (BitVec.ofNat 8 sc) (BitVec.ofNat 8 ec)
  simp only [toNat_ofNat_of_lt, hsp, hep, hsc, hec] at hw0
  exact he.trans (operation_ofNat hw0)

/-- BLIT with data (30_encoding.md R67, R73). -/
theorem assemble_blit (x y bw bh base : Nat) : assemble (.blit x y bw bh base) =
    if x < 2 ^ 16 ∧ y < 2 ^ 16 ∧ bw < 2 ^ 16 ∧ bh < 2 ^ 16 ∧ base < 2 ^ 32 then
      some [BitVec.ofNat 64 (0x06 + x * 2 ^ 8 + y * 2 ^ 24 + 2 ^ 40 + 2 ^ 41),
            BitVec.ofNat 64 (bw + bh * 2 ^ 16 + base * 2 ^ 32)]
    else none := by
  have hop : assembleOp (.blit x y bw bh base) =
      if x < 2 ^ 16 ∧ y < 2 ^ 16 ∧ bw < 2 ^ 16 ∧ bh < 2 ^ 16 ∧ base < 2 ^ 32 then
        some (.blit (BitVec.ofNat 16 x) (BitVec.ofNat 16 y) 1#1 1#1 (BitVec.ofNat 16 bw) (BitVec.ofNat 16 bh)
          (BitVec.ofNat 32 base)) else none := by
    simp only [assembleOp, asmField_bind, ite_and]
    rfl
  refine assemble_eq_ite (by simp) hop fun ⟨hx, hy, hbw, hbh, hbase⟩ => ?_
  obtain ⟨w0, w1, he, hw0, hw1⟩ := encode_blit (BitVec.ofNat 16 x) (BitVec.ofNat 16 y) 1#1 1#1 (BitVec.ofNat 16 bw)
    (BitVec.ofNat 16 bh) (BitVec.ofNat 32 base)
  simp only [toNat_ofNat_of_lt, hx, hy, hbw, hbh, hbase, toNat_oneBit, Nat.one_mul] at hw0 hw1
  exact he.trans (operation_ofNat_two hw0 hw1)

/-- BLIT nodata (30_encoding.md R67, R73). -/
theorem assemble_blitNoData (x y bw bh : Nat) : assemble (.blitNoData x y bw bh) =
    if x < 2 ^ 16 ∧ y < 2 ^ 16 ∧ bw < 2 ^ 16 ∧ bh < 2 ^ 16 then
      some [BitVec.ofNat 64 (0x06 + x * 2 ^ 8 + y * 2 ^ 24 + 2 ^ 40), BitVec.ofNat 64 (bw + bh * 2 ^ 16)]
    else none := by
  have hop : assembleOp (.blitNoData x y bw bh) =
      if x < 2 ^ 16 ∧ y < 2 ^ 16 ∧ bw < 2 ^ 16 ∧ bh < 2 ^ 16 then
        some (.blit (BitVec.ofNat 16 x) (BitVec.ofNat 16 y) 1#1 0#1 (BitVec.ofNat 16 bw) (BitVec.ofNat 16 bh) 0#32)
      else none := by
    simp only [assembleOp, asmField_bind, ite_and]
    rfl
  refine assemble_eq_ite (by simp) hop fun ⟨hx, hy, hbw, hbh⟩ => ?_
  obtain ⟨w0, w1, he, hw0, hw1⟩ := encode_blit (BitVec.ofNat 16 x) (BitVec.ofNat 16 y) 1#1 0#1 (BitVec.ofNat 16 bw)
    (BitVec.ofNat 16 bh) 0#32
  rw [toNat_ofNat_of_lt hx, toNat_ofNat_of_lt hy, toNat_oneBit, BitVec.toNat_zero] at hw0
  rw [toNat_ofNat_of_lt hbw, toNat_ofNat_of_lt hbh, BitVec.toNat_zero] at hw1
  exact he.trans (operation_ofNat_two (by simpa using hw0) (by simpa using hw1))

/-- BLIT absent (30_encoding.md R67, R73). -/
theorem assemble_blitAbsent (x y : Nat) : assemble (.blitAbsent x y) =
    if x < 2 ^ 16 ∧ y < 2 ^ 16 then some [BitVec.ofNat 64 (0x06 + x * 2 ^ 8 + y * 2 ^ 24), 0] else none := by
  have hop : assembleOp (.blitAbsent x y) = if x < 2 ^ 16 ∧ y < 2 ^ 16 then
      some (.blit (BitVec.ofNat 16 x) (BitVec.ofNat 16 y) 0#1 0#1 0#16 0#16 0#32) else none := by
    simp only [assembleOp, asmField_bind, ite_and]
    rfl
  refine assemble_eq_ite (by simp) hop fun ⟨hx, hy⟩ => ?_
  obtain ⟨w0, w1, he, hw0, hw1⟩ := encode_blit (BitVec.ofNat 16 x) (BitVec.ofNat 16 y) 0#1 0#1 0#16 0#16 0#32
  rw [toNat_ofNat_of_lt hx, toNat_ofNat_of_lt hy, BitVec.toNat_zero] at hw0
  rw [BitVec.toNat_zero, BitVec.toNat_zero] at hw1
  exact he.trans (operation_ofNat_two (l := 0) (by simpa using hw0) (by simpa using hw1))

/-- INIT with its keys (30_encoding.md R65, R66, R73). -/
theorem assemble_init (c : AsmConfig) : assemble (.init c) =
    if c.Fits then
      some [BitVec.ofNat 64 (0x03 + 2 ^ 8 + c.inverse * 2 ^ 9 + c.addrmode * 2 ^ 10 + c.segremap * 2 ^ 12 +
              c.comremap * 2 ^ 13 + c.fademode * 2 ^ 14 + c.zoom * 2 ^ 16 + c.chargepump * 2 ^ 17),
            BitVec.ofNat 64 (c.contrast + c.clkdiv * 2 ^ 8 + c.osc * 2 ^ 16 + c.pre1 * 2 ^ 24 + c.pre2 * 2 ^ 32 +
              c.fadeint * 2 ^ 40 + c.vcomh * 2 ^ 48)]
    else none := by
  refine assemble_eq_ite (i := .init 1#1 (configOfNumbers c)) (by simp) ?_ fun hfits => ?_
  · rw [assembleOp, asmConfig_eq]
    split <;> rfl
  · obtain ⟨⟨hinv, ham, hseg, hcom, hfm, hzm, hcp⟩, hcon, hckd, hosc, hpc1, hpc2, hfi, hvch⟩ := hfits
    obtain ⟨w0, w1, he, hw0, hw1⟩ := encode_init 1#1 (configOfNumbers c)
    simp only [configOfNumbers, toNat_ofNat_of_lt, toNat_oneBit, Nat.one_mul, Nat.reducePow, hinv, ham, hseg, hcom,
      hfm, hzm, hcp, hcon, hckd, hosc, hpc1, hpc2, hfi, hvch] at hw0 hw1
    exact he.trans (operation_ofNat_two hw0 hw1)

/-- .word (30_encoding.md R73). -/
theorem assemble_word (w : Nat) : assemble (.word w) = if w < 2 ^ 64 then some [BitVec.ofNat 64 w] else none := by
  rw [assemble, asmField]
  split <;> rfl

/-- `SETAREA.FULL` with a page and a column is the SETAREA of the whole panel (30_encoding.md R74). -/
theorem assemble_setAreaFull {w h : Nat} (hh : 8 ≤ h) (hw : 1 ≤ w) :
    assemble (.setAreaFull w h) = assemble (.setArea 0 (h / 8 - 1) 0 (w - 1)) := by
  have hpage : 1 ≤ h / 8 := by omega
  refine congrArg (Option.map _) ?_
  simp only [assembleOp, hpage, hw, and_self, if_true]
  rfl

/-- Settles O57: form by form. -/
theorem assemblyFormsGiveTheirWords : Obligations.AssemblyFormsGiveTheirWords :=
  ⟨assemble_geom, rfl, rfl, rfl, assemble_setArea, assemble_blit, assemble_blitNoData, assemble_blitAbsent, rfl,
    assemble_init, assemble_word, fun _ _ => assemble_setAreaFull⟩

/-- No line stands for a controller command. -/
theorem assembleOp_isOperation {l : AsmLine} {i : Instr} (h : assembleOp l = some i) : i.isOperation = true := by
  cases l <;> simp only [assembleOp, Option.bind_eq_bind, Option.bind_eq_some_iff, Option.pure_def,
    Option.ite_none_right_eq_some, Option.some.injEq, reduceCtorEq] at h
  case geom => obtain ⟨_, -, _, -, _, -, rfl⟩ := h; rfl
  case release => exact h ▸ rfl
  case init => obtain ⟨_, -, rfl⟩ := h; rfl
  case initAbsent => exact h ▸ rfl
  case initDefault => obtain ⟨_, -, rfl⟩ := h; rfl
  case clear => exact h ▸ rfl
  case setArea => obtain ⟨_, -, _, -, _, -, _, -, rfl⟩ := h; rfl
  case setAreaFull => obtain ⟨-, _, -, _, -, rfl⟩ := h; rfl
  case blit => obtain ⟨_, -, _, -, _, -, _, -, _, -, rfl⟩ := h; rfl
  case blitNoData => obtain ⟨_, -, _, -, _, -, _, -, rfl⟩ := h; rfl
  case blitAbsent => obtain ⟨_, -, _, -, rfl⟩ := h; rfl
  case showFrame => exact h ▸ rfl

/-- Settles O56: a line's operation is one of the seven, whose code the decoder accepts (as in O1). -/
theorem assemblerAgreesWithDecoder : Obligations.AssemblerAgreesWithDecoder := by
  refine ⟨by decide, by decide, by decide, fun l i h => ?_⟩
  obtain ⟨w0, ws, hcode, haccepted⟩ := exists_operationCode (assembleOp_isOperation h)
  have hl : ∀ w, l ≠ .word w := fun w hw => by
    subst hw
    cases h
  exact ⟨w0 :: ws, ws.length + 1, by rw [assemble_eq_map hl, h, Option.map_some, hcode, operationWords],
    haccepted.decodeOp_eq, rfl⟩

end Sys2Proof.Machine
end

section
/-! GEOM and RELEASE: the supported pairs, the fresh store, the released block; and the spec's own words. -/

namespace Sys2Proof.Machine

/-! ### GEOM -/

/-- The two pairs of `GEOMS` (40_lifecycle.md R80). -/
theorem supportedGeometry_iff (gw gh : BitVec 16) :
    supportedGeometry gw gh = true ↔ (gw = 128 ∧ gh = 64) ∨ (gw = 128 ∧ gh = 32) := by
  simp [supportedGeometry, Config.geoms, ← BitVec.toNat_inj]

theorem exec_geom_of_supported {gw gh : BitVec 16} (h : supportedGeometry gw gh = true) (ga : BitVec 7) (s : State) :
    exec (.geom gw gh ga) s = .next (raiseStatus .ok 1 (s.construct gw gh ga)) := if_pos h

theorem exec_geom_of_unsupported {gw gh : BitVec 16} (h : ¬ supportedGeometry gw gh = true) (ga : BitVec 7) (s : State) :
    exec (.geom gw gh ga) s = .next (raiseStatus .invalidGeometry 1 s) := if_neg h

section
variable (gw gh : BitVec 16) (ga : BitVec 7) (s : State)

/-- A fresh store holds the marker at 0 and 0x00 elsewhere, whatever the block held before. -/
theorem construct_fbByte (j : Nat) : (s.construct gw gh ga).fbByte j = if j = 0 then Config.marker else 0 := by
  rw [State.fbByte, construct_fb, byteAt, read_freshFb]
  split <;> rfl

theorem construct_fbByte_zero : (s.construct gw gh ga).fbByte 0 = Config.marker := construct_fbByte gw gh ga s 0

theorem construct_pix (i : Nat) : (s.construct gw gh ga).pix i = 0 := by
  rw [State.pix, construct_fbByte, if_neg (by omega)]

end

/-- Settles O12: GEOM's one check is the membership in `GEOMS`, and the store it makes reads nothing of the old one. -/
theorem geomConstructsOrChangesNothing : Obligations.GeomConstructsOrChangesNothing := by
  refine ⟨fun s gw gh ga h => ?supported, fun s gw gh ga h => ?unsupported⟩
  case supported =>
    exact ⟨_, exec_geom_of_supported ((supportedGeometry_iff gw gh).mpr h) ga s, rfl, rfl, rfl, rfl, rfl, rfl, rfl,
      construct_fbByte_zero gw gh ga s, fun i _ => construct_pix gw gh ga s i, rfl, rfl, rfl, rfl, rfl⟩
  case unsupported => exact exec_geom_of_unsupported (mt (supportedGeometry_iff gw gh).mp h) ga s

/-- `FBSIZE` of the two supported pairs (40_lifecycle.md R82). -/
theorem fbSize_of_supported {s : State} (h : supportedGeometry s.geomW s.geomH = true) :
    (s.height = 64 ∧ s.fbSize = 1025) ∨ (s.height = 32 ∧ s.fbSize = 513) := by
  obtain ⟨hw, hh⟩ | ⟨hw, hh⟩ := (supportedGeometry_iff _ _).mp h <;>
    simp [State.fbSize, State.npix, State.width, State.height, hw, hh]

/-- Settles O13: the invariant gives a ready block one of the two pairs, and a GEOM that ends OK has just checked it. -/
theorem bufferSizeProperty : Obligations.BufferSizeProperty := by
  refine ⟨fun s hinv hr => ⟨rfl, ?ready⟩, fun s t gw gh ga h hok => ?fresh⟩
  case ready => obtain ⟨hh, hsize⟩ | ⟨hh, hsize⟩ := fbSize_of_supported (hinv.geometry hr) <;> simp [hh, hsize]
  case fresh =>
    obtain ⟨hg, rfl⟩ | ⟨-, rfl⟩ := execGeom_next h
    · exact ⟨rfl, fbSize_of_supported hg, fun i _ => construct_pix gw gh ga s i, construct_fbByte_zero gw gh ga s⟩
    · cases hok

/-! ### RELEASE -/

theorem exec_release_of_ready {s : State} (h : s.ready = true) :
    exec .release s = .next (raiseStatus .ok 1 { s with ready := false, fb := [] }) := if_pos h

theorem exec_release_of_not_ready {s : State} (h : s.ready = false) :
    exec .release s = .next (raiseStatus .ok 1 s) := if_neg (by simp [h])

theorem execRelease_ready {s t : State} (h : execRelease s = .next t) : t.ready = false := by
  obtain ⟨-, rfl⟩ | ⟨hr, rfl⟩ := execRelease_next h
  · rfl
  · exact hr

/-- While `READY` is 0 every operation but GEOM and RELEASE ends with NotReady (60_exceptions.md R165). -/
theorem exec_of_not_ready {i : Instr} (hop : i.isOperation = true) {s : State} (hr : s.ready = false)
    (hgeom : ∀ gw gh ga, i ≠ .geom gw gh ga) (hrelease : i ≠ .release) :
    exec i s = .next (raiseStatus .notReady (encodedLength (encode i)) s) := by
  obtain ⟨init, clear, setArea, blit, showFrame⟩ := notReadyComesFirst s hr
  cases i with
  | geom gw gh ga => exact absurd rfl (hgeom gw gh ga)
  | release => exact absurd rfl hrelease
  | init p c => exact init p c
  | clear => exact clear
  | setArea sp ep sc ec => exact setArea sp ep sc ec
  | blit x y bp dp bw bh base => exact blit x y bp dp bw bh base
  | showFrame => exact showFrame
  | _ => cases hop

/-- While `READY` is 0 every operation ends: none makes a bus write or reads a source byte. -/
theorem exec_ends_of_not_ready {i : Instr} (hop : i.isOperation = true) {s : State} (hr : s.ready = false) :
    ∃ t, exec i s = .next t := by
  cases i with
  | geom gw gh ga =>
    by_cases hg : supportedGeometry gw gh = true
    · exact ⟨_, exec_geom_of_supported hg ga s⟩
    · exact ⟨_, exec_geom_of_unsupported hg ga s⟩
  | release => exact ⟨_, exec_release_of_not_ready hr⟩
  | _ => exact ⟨_, exec_of_not_ready hop hr nofun nofun⟩

/-- A block that is not ready and between operations waits for no answer, whatever operation is fetched. -/
theorem step_ne_awaitAnswer_of_not_ready {s : State} (hs : s.seq = .idle) (hr : s.ready = false) (q : Seq) :
    step s ≠ .fault (.awaitAnswer q) := by
  intro h
  obtain hf | ⟨i, hf, hi⟩ := step_fault h
  · obtain ⟨-, hstuck | ⟨hstuck, -⟩⟩ := fetch_stuck hf <;> cases hstuck
  · obtain ⟨t, ht⟩ := exec_ends_of_not_ready (isOperation_of_fetch hs hf) hr
    cases ht.symm.trans hi

/-- While `READY` is 0 no byte of `FB` holds a value (10_state.md R29). -/
theorem observeFb_of_not_ready {s : State} (hs : s.seq = .idle) (hr : s.ready = false) (j : Nat) :
    observeFb j s = .error (.fault (.noValue j)) :=
  observeFb_of_not_holds hs (step_ne_awaitAnswer_of_not_ready hs hr) (by simp [State.fbHolds_iff, hr])

/-- Settles O14: RELEASE by the two values of `READY`, and what follows it by the readiness check. -/
theorem releaseDropsTheBuffer : Obligations.ReleaseDropsTheBuffer := by
  refine fun s => ⟨fun hr => ?ready, exec_release_of_not_ready, fun t i h hop hgeom hrelease => ?after⟩
  case ready =>
    exact ⟨_, exec_release_of_ready hr, rfl, rfl, rfl, observeFb_of_not_ready rfl rfl, rfl, rfl, rfl, rfl, rfl, rfl, rfl,
      rfl, rfl⟩
  case after => exact ⟨_, exec_of_not_ready hop (execRelease_ready h) hgeom hrelease, rfl⟩

/-! ### The spec's own words -/

/-- Settles O3: each is one evaluation of the decoder on fixed words or bytes. -/
theorem specWordsDecode : Obligations.SpecWordsDecode := by
  unfold Obligations.SpecWordsDecode
  decide

end Sys2Proof.Machine
end

section
/-! INIT, SETAREA and SHOW: what they put on the bus, what they keep, what INIT tells the controller; and the commands with
operand bytes. -/

namespace Sys2Proof.Machine

/-! ### INIT -/

/-- An INIT past its checks is the one write of R95. -/
theorem exec_init_inRange {s : State} {c : InitConfig} (hr : s.ready = true) (hc : InitRangesOfRule c s.height) :
    exec (.init 1 c) s = finishEmitted 2 (emitAll (initWrites c s.height) s) :=
  (whenReady_ready hr 2 _).trans ((if_neg (by decide)).trans (if_pos ((validConfig_iff c s.height).mpr hc)))

/-- The sequence and its control byte are 30 bytes whatever the record (41_encoder.md R95). -/
theorem length_initBytesOfRule (c : InitConfig) (h : Nat) : (initBytesOfRule c h).length = 30 := rfl

/-- Settles O17: INIT's one write is acknowledged in full. -/
theorem initSendsTheSequence : Obligations.InitSendsTheSequence := by
  intro s c rest hr hc hd
  refine ⟨length_initBytesOfRule c s.height, ?_⟩
  rw [exec_init_inRange hr hc, initWrites, commandWrite_initCommands hc]
  exact finishEmitted_ackAll 2 [(.initSeq (initSeq c s.height), initBytesOfRule c s.height)] s rest hd

/-- Settles O21: the contrast byte stands after its command byte in the write of `initSendsTheSequence`. -/
theorem contrastZeroIsSent : Obligations.ContrastZeroIsSent := by
  intro s c rest hr hc hcon hd
  obtain ⟨-, hrun⟩ := initSendsTheSequence s c rest hr hc hd
  exact ⟨_, _, hrun, rfl, rfl, by simp [initBytesOfRule, hcon]⟩

/-- Settles O18: out of range the second check fails; in range a run of bus writes reports no InvalidConfig. -/
theorem initValidatesItsRanges : Obligations.InitValidatesItsRanges := by
  refine ⟨fun s c hr hc => ?outOfRange, fun s t c hr hc h => ?inRange, fun s hinv hr => ?multiplex⟩
  case outOfRange =>
    have hv : ¬ validConfig c s.height = true := mt (validConfig_iff c s.height).mp hc
    exact (whenReady_ready hr 2 _).trans ((if_neg (by decide)).trans (if_neg hv))
  case inRange =>
    rw [exec_init_inRange hr hc] at h
    obtain ⟨-, -, -, -, -, -, -, -, -, ⟨hst, -⟩ | ⟨hst, -⟩⟩ := finishEmitted_next h <;> simp [hst]
  case multiplex =>
    obtain ⟨-, hh | hh⟩ := hinv.geometry_cases hr <;> simp [hh]

/-- A single bus write, once answered, is in the transcript, and only its full acknowledgement ends `OK`. -/
theorem finishEmitted_single {len : Nat} {w : Seq × List Byte} {s t : State}
    (h : finishEmitted len (emitAll [w] s) = .next t) :
    ∃ a, t.tr = s.tr ++ [entryOf s w.2 a] ∧ (t.status = .ok ↔ a = .ack w.2.length) := by
  obtain ⟨-, -, -, -, -, -, -, -, -, ⟨hst, htr⟩ | ⟨hst, pre, v, post, a, hsplit, hnak, htr⟩⟩ := finishEmitted_next h
  · exact ⟨.ack w.2.length, htr, by simp [hst]⟩
  · obtain ⟨rfl, rfl, rfl⟩ : pre = [] ∧ v = w ∧ post = [] := by
      simpa [List.singleton_eq_append_iff] using hsplit
    have ha : a ≠ .ack v.2.length := by simpa [acked] using hnak
    exact ⟨a, by simpa using htr, by simp [hst, ha]⟩

/-- An INIT that ends has written STATUS alone, and not `OK`, or made the write of R94 past both checks. -/
theorem execInit_status_or_write {p : BitVec 1} {c : InitConfig} {s t : State} (h : execInit p c s = .next t) :
    (∃ code, code ≠ .ok ∧ t = raiseStatus code 2 s) ∨
      (s.ready = true ∧ p = 1 ∧ InitRangesOfRule c s.height ∧
        finishEmitted 2 (emitAll [(.initSeq (initSeq c s.height), initBytesOfRule c s.height)] s) = .next t) := by
  obtain ⟨-, rfl⟩ | ⟨-, -, rfl⟩ | ⟨hr, hp, hv, h⟩ := execInit_next h
  · exact .inl ⟨.notReady, nofun, rfl⟩
  · exact .inl ⟨.invalidConfig, nofun, rfl⟩
  · have hc := (validConfig_iff c s.height).mp hv
    rw [initWrites, commandWrite_initCommands hc] at h
    exact .inr ⟨hr, (BitVec.eq_zero_or_eq_one p).resolve_left hp, hc, h⟩

/-- Settles O20: a status alone leaves the transcript, and past the checks there is one write. -/
theorem initIsOneWriteOrNone : Obligations.InitIsOneWriteOrNone := by
  intro s t p c h
  obtain ⟨code, hcode, rfl⟩ | ⟨hr, hp, hc, h⟩ := execInit_status_or_write h
  · exact .inl ⟨rfl, hcode⟩
  · exact .inr ⟨hr, hp, hc, length_initBytesOfRule c s.height, finishEmitted_single h⟩

/-- Settles O23: a status alone and a run of bus writes both keep the block. -/
theorem initKeepsTheBlock : Obligations.InitKeepsTheBlock := by
  intro s t p c h
  obtain ⟨code, -, rfl⟩ | ⟨-, -, -, h⟩ := execInit_status_or_write h
  · exact ⟨rfl, fun _ => rfl, rfl, rfl, rfl, rfl, rfl, rfl, rfl, rfl⟩
  · obtain ⟨hopc, hw, hh, hr, ha, hfb, hops, hsrc, hq, -⟩ := finishEmitted_next h
    exact ⟨hfb, State.fbByte_congr hfb, hw, hh, hr, ha, hops, hsrc, hopc, hq⟩

/-! ### What INIT tells the controller -/

/-- The controller's settings after commands that were carried out, in order. -/
def Controller.receiveAll (cs : List Instr) (c : Controller) : Controller := cs.foldl (fun c i => c.receive true i) c

/-- A command write acknowledged in full carries out its commands. -/
theorem Controller.afterEntry_acked {cs : List Instr} (h : ∀ i ∈ cs, i.isOperation = false) {e : BusEntry}
    (hb : e.bytes = commandWrite cs) (ha : e.answer = .ack e.bytes.length) (c : Controller) :
    c.afterEntry e = c.receiveAll cs := by
  rw [Controller.afterEntry, (acked_iff _ _).mpr ha, hb, commandWriteReadsBack cs h]
  rfl

/-- After an INIT that ends `OK` the controller has carried out its eighteen commands last. -/
theorem controllerView_of_init_ok {s t : State} {c : InitConfig} (h : exec (.init 1 c) s = .next t)
    (hok : t.status = .ok) : InitRangesOfRule c s.height ∧
      controllerView t.tr = (controllerView s.tr).receiveAll (initCommands c s.height) := by
  obtain ⟨-, hst⟩ | ⟨-, -, hc, -, a, htr, ha⟩ := initIsOneWriteOrNone s t 1 c h
  · exact absurd hok hst
  · refine ⟨hc, ?_⟩
    rw [controllerView, htr, List.foldl_append]
    exact Controller.afterEntry_acked (fun i hi => (initCommands_wellFormed c s.height i hi).1)
      (commandWrite_initCommands hc).symm (ha.mp hok) _

/-- The flags of the COM-pins byte (41_encoder.md R92, R115; `COM_LR_REMAP` is 0). -/
theorem comPinsByte_flags (h : Nat) :
    (comPinsByte (altOf h) Config.comLrRemap).getLsbD 4 = decide (32 < h) ∧
      (comPinsByte (altOf h) Config.comLrRemap).getLsbD 5 = false := by
  by_cases hh : 32 < h
  · rw [altOf, if_pos hh, decide_eq_true hh]
    decide
  · rw [altOf, if_neg hh, decide_eq_false hh]
    decide

/-- A byte in a nibble's range goes out whole in a nibble (41_encoder.md R93, R94). -/
theorem toNat_nibble {b : Byte} (h : b.toNat ≤ 15) : (b.setWidth 4).toNat = b.toNat := by
  rw [BitVec.toNat_setWidth]
  omega

/-- Settles O42: each setting is the operand of the one command of the sequence that sets it. -/
theorem initTellsTheController : Obligations.InitTellsTheController := by
  intro s t c h hok
  obtain ⟨⟨-, hckd, hosc, hfi, ⟨-, hpc1⟩, -, hpc2⟩, hview⟩ := controllerView_of_init_ok h hok
  obtain ⟨halt, hlr⟩ := comPinsByte_flags s.height
  rw [hview]
  refine ⟨rfl, rfl, rfl, rfl, rfl, rfl, rfl, rfl, rfl, rfl, rfl, congrArg some halt, congrArg some hlr, rfl,
    congrArg some (toNat_nibble hosc), congrArg some (toNat_nibble hckd), congrArg some ?fadeMode,
    congrArg some (toNat_nibble hfi), congrArg some ?zoom, congrArg some (toNat_nibble hpc1),
    congrArg some (toNat_nibble hpc2)⟩
  case fadeMode => exact BitVec.toNat_setWidth_of_le (by decide)
  case zoom => exact BitVec.toNat_setWidth_of_le (by decide)

/-! ### SETAREA and SHOW -/

/-- Settles O25: both writes are acknowledged in full. -/
theorem setAreaSendsBothRanges : Obligations.SetAreaSendsBothRanges := by
  intro s sp ep sc ec rest hr harea hd
  rw [execSetArea_legal hr harea]
  exact finishEmitted_ackAll 1 (areaWrites sp ep sc ec) s rest hd

/-- Settles O33: SHOW's writes carry the rule's bytes, and all are acknowledged in full. -/
theorem showSendsEveryPage : Obligations.ShowSendsEveryPage := by
  intro s rest hinv hr hd
  have hbytes := showWrites_bytes (hinv.pages_le hr)
  have hdraws : s.draws = ackAll (showWrites s) ++ rest := by rw [hd, ackAll_eq_fullAcks, hbytes]
  rw [exec, execShow, whenReady_ready hr, finishEmitted_ackAll 1 _ s rest hdraws, ← hbytes, List.map_map]
  rfl

/-! ### The commands with operand bytes -/

/-- Two nibbles joined are the byte that the rule writes with a shift (41_encoder.md R104, R109, R113). -/
theorem append_nibbles_eq (hi lo : BitVec 4) : (hi ++ lo : Byte) = (hi.setWidth 8 <<< 4) ||| lo.setWidth 8 := by
  have hlo : (lo.setWidth 8).toNat ≤ 15 := by
    rw [BitVec.toNat_setWidth]
    omega
  simpa using nibbles_eq (hi.setWidth 8) (lo.setWidth 8) hlo

/-- Settles O40: the operand bytes are the rule's, two nibbles joined or the operands themselves. -/
theorem operandCommandsAreSent : Obligations.OperandCommandsAreSent := by
  intro s a ds hd
  have sent : ∀ {i : Instr} {bs : List Byte}, i.isOperation = false → encodeCommand i = bs →
      exec i s = .next (afterCommand s bs a ds) :=
    fun hop hb => hb ▸ exec_command_answered hop hd
  refine ⟨fun m => sent rfl rfl, fun f d => sent rfl ?clkDiv, fun c => sent rfl rfl, fun m t => sent rfl ?fade,
    fun z => sent rfl rfl, fun o => sent rfl rfl, fun m => sent rfl rfl, fun p2 p1 => sent rfl ?precharge,
    fun v => sent rfl rfl, fun b => sent rfl rfl, fun e => sent rfl rfl, fun sc ec => sent rfl rfl,
    fun sp ep => sent rfl rfl⟩
  case clkDiv => rw [encodeCommand, append_nibbles_eq]
  case fade => rw [encodeCommand, append_nibbles_eq]
  case precharge => rw [encodeCommand, append_nibbles_eq]

end Sys2Proof.Machine
end

section
/-! The framebuffer manager: what CLEAR does to the store, and the windows SETAREA accepts. -/

namespace Sys2Proof.Machine

/-! ### CLEAR -/

/-- CLEAR zeroes the indices of `FB` from 1 up and leaves every other (42_fbmgr.md R130). -/
theorem clearPix_fbByte (s : State) (j : Nat) :
    s.clearPix.fbByte j = if 1 ≤ j ∧ j < s.fbSize then 0 else s.fbByte j := by
  rw [State.fbByte, clearPix_fb, byteAt, Memory.read_forget, State.fbSize, Nat.add_comm 1 s.npix]
  split <;> rfl

theorem clearPix_pix {s : State} {i : Nat} (hi : i < s.npix) : s.clearPix.pix i = 0 := by
  rw [State.pix, clearPix_fbByte, if_pos (by rw [State.fbSize]; omega)]

theorem clearPix_fbByte_above {s : State} {j : Nat} (hj : s.fbSize ≤ j) : s.clearPix.fbByte j = s.fbByte j := by
  rw [clearPix_fbByte, if_neg (by omega)]

theorem exec_clear_of_ready {s : State} (hr : s.ready = true) : exec .clear s = .next (raiseStatus .ok 1 s.clearPix) :=
  whenReady_ready hr 1 _

/-- Settles O24: the cleared indices are those of the pixel bytes, and nothing else of the state is written. -/
theorem clearZeroesThePixels : Obligations.ClearZeroesThePixels := by
  refine ⟨fun s hr => ?ready, fun s hr => ?notReady⟩
  case ready =>
    exact ⟨_, exec_clear_of_ready hr, rfl, rfl, fun i hi => clearPix_pix hi, clearPix_marker s,
      fun j hj => clearPix_fbByte_above hj, rfl, rfl, rfl, rfl, rfl, rfl, rfl, rfl, rfl⟩
  case notReady => exact exec_of_not_ready rfl hr nofun nofun

/-! ### SETAREA -/

/-- An illegal window ends SETAREA before any bus write (42_fbmgr.md R131). -/
theorem execSetArea_illegal {s : State} {sp ep sc ec : BitVec 8} (hr : s.ready = true)
    (ha : ¬ AreaOfRule s.width s.height sp ep sc ec) :
    exec (.setArea sp ep sc ec) s = .next (raiseStatus .invalidArea 1 s) :=
  (whenReady_ready hr 1 _).trans (if_neg (mt (areaOk_iff ..).mp ha))

/-- A run of bus writes reports that it went through or that the transport failed, and nothing else (60_exceptions.md R165). -/
theorem finishEmitted_status {len : Nat} {ws : List (Seq × List Byte)} {s t : State}
    (h : finishEmitted len (emitAll ws s) = .next t) : t.status = .ok ∨ t.status = .transportFailure := by
  obtain ⟨-, -, -, -, -, -, -, -, -, ⟨hst, -⟩ | ⟨hst, -⟩⟩ := finishEmitted_next h
  · exact .inl hst
  · exact .inr hst

/-- The window of R132 on a panel within the absolute bounds: the pages up to `h / 8 - 1`, the columns up to `w - 1`. -/
theorem areaOfRule_iff {w h : Nat} (hw : w ≤ 128) (hh : h ≤ 64) (sp ep sc ec : BitVec 8) :
    AreaOfRule w h sp ep sc ec ↔
      sp.toNat ≤ ep.toNat ∧ ep.toNat ≤ h / 8 - 1 ∧ sc.toNat ≤ ec.toNat ∧ ec.toNat ≤ w - 1 := by
  unfold AreaOfRule
  omega

/-- Settles O27: off the window SETAREA's check fails, on it a run of bus writes reports no InvalidArea. -/
theorem setAreaChecksItsWindow : Obligations.SetAreaChecksItsWindow := by
  refine ⟨fun s sp ep sc ec hr ha => ?illegal, fun s t sp ep sc ec hr ha h => ?legal, fun sp ep sc ec => ⟨?tall, ?short⟩⟩
  case illegal => exact execSetArea_illegal hr ha
  case legal =>
    rw [execSetArea_legal hr ha] at h
    obtain hst | hst := finishEmitted_status h <;> simp [hst]
  case tall => exact areaOfRule_iff (by decide) (by decide) sp ep sc ec
  case short => exact areaOfRule_iff (by decide) (by decide) sp ep sc ec

end Sys2Proof.Machine
end

section
/-! BLIT beyond the composite: which stores a drawn rectangle determines, the ends without one, and R145's properties. -/

namespace Sys2Proof.Machine

/-! ### The store a drawn rectangle determines -/

/-- Every index of a store reads as a byte, the unlisted ones as 0x00. -/
theorem read_eq_byteAt (fb : Memory) (a : Nat) : Memory.read (some 0) fb a = some (byteAt fb a) := by
  induction fb with
  | nil => rfl
  | cons e fb ih =>
    rw [byteAt, Memory.read_cons]
    split
    · rfl
    · exact ih

/-- A canonical store is its marker byte and its pixels: every index above 0 is a page and a column, every bit of a byte a
row of the page (10_state.md R29, R31). -/
theorem store_eq_of_pixels {w : Nat} (hw : 0 < w) {m n : Memory} (hm : Memory.wf (some 0) m = true)
    (hn : Memory.wf (some 0) n = true) (marker : byteAt m 0 = byteAt n 0)
    (pixels : ∀ c r, c < w →
      (byteAt m (1 + (r / 8 * w + c))).getLsbD (r % 8) = (byteAt n (1 + (r / 8 * w + c))).getLsbD (r % 8)) : m = n := by
  refine Memory.eq_of_read (some 0) m n hm hn fun a => ?_
  rw [read_eq_byteAt, read_eq_byteAt]
  cases a with
  | zero => rw [marker]
  | succ i =>
    refine congrArg some (BitVec.eq_of_getLsbD_eq fun k hk => ?_)
    have hpage : (8 * (i / w) + k) / 8 = i / w := by omega
    have hrow : (8 * (i / w) + k) % 8 = k := by omega
    have hp := pixels (i % w) (8 * (i / w) + k) (Nat.mod_lt i hw)
    rwa [hpage, hrow, Nat.div_add_mod', Nat.add_comm] at hp

/-- The pixel at column `c` and row `r` lies in the rectangle of the job's first `n` rows (43_compositor.md R145). -/
def BlitJob.Covers (j : BlitJob) (n c r : Nat) : Prop := (j.y ≤ r ∧ r < j.y + n) ∧ j.x ≤ c ∧ c < j.x + j.dw

section
variable {src : Memory} {j : BlitJob} {n : Nat} {fb m : Memory} (rows : DrawnRows src j n fb m) (hx : j.x + j.dw ≤ j.w)
include rows hx

/-- Inside the rectangle: the source pixel (43_compositor.md R142). -/
theorem DrawnRows.pixel_inside {i c : Nat} (hi : i < n) (hc : c < j.dw) :
    (byteAt m (1 + ((j.y + i) / 8 * j.w + (j.x + c)))).getLsbD ((j.y + i) % 8) =
      sourcePixel src (j.base + i * j.stride) c := by
  rw [rows.pixels hx (j.x + c) (j.y + i) (by omega), if_pos (by omega), Nat.add_sub_cancel_left, Nat.add_sub_cancel_left]

/-- Outside the rectangle: the pixel that was there (43_compositor.md R143). -/
theorem DrawnRows.pixel_outside {c r : Nat} (hc : c < j.w) (hout : ¬ j.Covers n c r) :
    (byteAt m (1 + (r / 8 * j.w + c))).getLsbD (r % 8) = (byteAt fb (1 + (r / 8 * j.w + c))).getLsbD (r % 8) :=
  (rows.pixels hx c r hc).trans (if_neg hout)

/-- One rectangle drawn twice gives one store, when the two sources agree on its pixels and the two old stores agree outside
it and at the marker. -/
theorem DrawnRows.store_unique {src' fb' m' : Memory} (rows' : DrawnRows src' j n fb' m') (hw : 0 < j.w)
    (hfb : Memory.wf (some 0) fb = true) (hfb' : Memory.wf (some 0) fb' = true)
    (marker : byteAt fb' 0 = byteAt fb 0)
    (source : ∀ i < n, ∀ c < j.dw,
      sourcePixel src' (j.base + i * j.stride) c = sourcePixel src (j.base + i * j.stride) c)
    (outside : ∀ c r, c < j.w → ¬ j.Covers n c r →
      (byteAt fb' (1 + (r / 8 * j.w + c))).getLsbD (r % 8) = (byteAt fb (1 + (r / 8 * j.w + c))).getLsbD (r % 8)) :
    m' = m := by
  refine store_eq_of_pixels hw (rows'.canonical hfb') (rows.canonical hfb)
    (rows'.marker.trans (marker.trans rows.marker.symm)) fun c r hc => ?_
  by_cases hin : j.Covers n c r
  · obtain ⟨⟨hy, hy'⟩, hxc, hxc'⟩ := hin
    obtain ⟨i, rfl⟩ := Nat.exists_eq_add_of_le hy
    obtain ⟨k, rfl⟩ := Nat.exists_eq_add_of_le hxc
    have hi : i < n := by omega
    have hk : k < j.dw := by omega
    rw [rows'.pixel_inside hx hi hk, rows.pixel_inside hx hi hk, source i hi k hk]
  · rw [rows'.pixel_outside hx hc hin, rows.pixel_outside hx hc hin, outside c r hc hin]

end

/-! ### The checks and the ends of BLIT -/

/-- The bitmap check, on the operands (43_compositor.md R140). -/
theorem bitmapOk_eq_false {bp dp : BitVec 1} {bw bh : BitVec 16} :
    bitmapOk bp dp bw bh = false ↔ bp = 0 ∨ dp = 0 ∨ bw = 0 ∨ bh = 0 := by
  have zero : ∀ v : BitVec 16, v.toNat = 0 ↔ v = 0 := fun _ => BitVec.toNat_inj (y := 0)
  rw [bitmapOk, decide_eq_false_iff_not, not_not, zero, zero]

theorem offScreen_eq_false {w h : Nat} {x y : BitVec 16} :
    offScreen w h x y = false ↔ x.toNat < w ∧ y.toNat < h := by
  simp [offScreen]

section
variable {s : State} {x y : BitVec 16} {bp dp : BitVec 1} {bw bh : BitVec 16} {base : BitVec 32}

theorem execBlit_notReady (hr : s.ready = false) :
    execBlit x y bp dp bw bh base s = .next (raiseStatus .notReady 2 s) :=
  whenReady_notReady hr 2 _

variable (hr : s.ready = true)
include hr

/-- The bitmap check comes before the off-screen test (43_compositor.md R140, 60_exceptions.md R165). -/
theorem execBlit_invalid (hb : bitmapOk bp dp bw bh = false) :
    execBlit x y bp dp bw bh base s = .next (raiseStatus .invalidBitmap 2 s) := by
  rw [execBlit, whenReady_ready hr, if_neg (by simp [hb])]

/-- Off the panel a BLIT is a no-op that ends OK (43_compositor.md R141). -/
theorem execBlit_offScreen (hb : bitmapOk bp dp bw bh = true) (ho : offScreen s.width s.height x y = true) :
    execBlit x y bp dp bw bh base s = .next (raiseStatus .ok 2 s) := by
  rw [execBlit, whenReady_ready hr, if_pos hb, if_pos ho]

theorem execBlit_runs (hb : bitmapOk bp dp bw bh = true) (ho : offScreen s.width s.height x y = false) :
    execBlit x y bp dp bw bh base s = runBlit (blitJob s.width s.height x y bw bh base) s := by
  rw [execBlit, whenReady_ready hr, if_pos hb, if_neg (by simp [ho])]

end

/-! ### A BLIT again, and a BLIT from another source -/

/-- Settles O32: the second drawing takes the same source pixels and leaves outside what the first left; a BLIT that draws
nothing draws nothing again. -/
theorem blitIsIdempotent : Obligations.BlitIsIdempotent := by
  intro s t u x y bp dp bw bh base h ht hu
  obtain ⟨hr, rfl⟩ | ⟨hr, hb, rfl⟩ | ⟨hr, hb, ho, rfl⟩ | ⟨hr, hb, ho, ht⟩ := execBlit_next ht
  · obtain rfl := Host.Outcome.next.inj ((execBlit_notReady (s := raiseStatus .notReady 2 s) hr).symm.trans hu)
    rfl
  · obtain rfl := Host.Outcome.next.inj ((execBlit_invalid (s := raiseStatus .invalidBitmap 2 s) hr hb).symm.trans hu)
    rfl
  · obtain rfl := Host.Outcome.next.inj ((execBlit_offScreen (s := raiseStatus .ok 2 s) hr hb ho).symm.trans hu)
    rfl
  · obtain ⟨-, fb, hrows, rfl⟩ := runBlit_next ht
    have again := execBlit_runs (base := base) (s := raiseStatus .ok 2 { s with fb := fb }) hr hb ho
    obtain ⟨-, fb', hrows', rfl⟩ := runBlit_next (again.symm.trans hu)
    have rows := blitRows_ok hrows
    have hx := (offScreen_eq_false.mp ho).1
    exact rows.store_unique (blitJob_columns bw bh base hx) (blitRows_ok hrows') (Nat.zero_lt_of_lt hx) h.fbCanonical
      (rows.canonical h.fbCanonical) rows.marker (fun _ _ _ _ => rfl)
      fun c r hc hout => rows.pixel_outside (blitJob_columns bw bh base hx) hc hout

/-- Sources that agree on the low `dw` bits of a row's bytes give the same `dw` source pixels (20_memory.md R46). -/
theorem sourcePixel_congr {src src' : Memory} {addr dw : Nat}
    (h : ∀ b < (dw + 7) / 8, ∀ k < 8, 8 * b + k < dw →
      ((memRead src' (addr + b)).getD 0).getLsbD k = ((memRead src (addr + b)).getD 0).getLsbD k)
    {c : Nat} (hc : c < dw) : sourcePixel src' addr c = sourcePixel src addr c :=
  h (c / 8) (by omega) (c % 8) (by omega) (by omega)

/-- A BLIT from another source, admitted where this one reads and alike on the drawn pixels, does the same
(43_compositor.md R145 (b)). -/
theorem execBlit_congr_source {s t : State} {src' : Memory} {x y : BitVec 16} {bp dp : BitVec 1} {bw bh : BitVec 16}
    {base : BitVec 32} (h : s.Inv) (ht : execBlit x y bp dp bw bh base s = .next t)
    (admitted : SourceAdmitted { s with src := src' } x y bw bh base)
    (source : ∀ i < clipped bh.toNat s.height y.toNat, ∀ c < clipped bw.toNat s.width x.toNat,
      sourcePixel src' (base.toNat + i * strideOf bw.toNat) c =
        sourcePixel s.src (base.toNat + i * strideOf bw.toNat) c) :
    execBlit x y bp dp bw bh base { s with src := src' } = .next { t with src := src' } := by
  obtain ⟨hr, rfl⟩ | ⟨hr, hb, rfl⟩ | ⟨hr, hb, ho, rfl⟩ | ⟨hr, hb, ho, ht⟩ := execBlit_next ht
  · exact execBlit_notReady (s := { s with src := src' }) hr
  · exact execBlit_invalid (s := { s with src := src' }) hr hb
  · exact execBlit_offScreen (s := { s with src := src' }) hr hb ho
  · obtain ⟨hlast, fb, hrows, rfl⟩ := runBlit_next ht
    obtain ⟨fb', hrows'⟩ := blitRows_admitted (j := blitJob s.width s.height x y bw bh base) s.fb admitted
    have hx := (offScreen_eq_false.mp ho).1
    obtain rfl : fb' = fb := (blitRows_ok hrows).store_unique (blitJob_columns bw bh base hx) (blitRows_ok hrows')
      (Nat.zero_lt_of_lt hx) h.fbCanonical h.fbCanonical rfl source fun _ _ _ _ => rfl
    exact (execBlit_runs (s := { s with src := src' }) hr hb ho).trans (runBlit_of_rows hlast hrows')

/-! ### What is read back -/

/-- A BLIT that ends OK with its bitmap within bounds drew it: its source bytes are admitted, and its pixels are theirs
(43_compositor.md R145 (a)). -/
theorem execBlit_readsBack {s t : State} {x y bw bh : BitVec 16} {base : BitVec 32} (hr : s.ready = true)
    (hx : x.toNat + bw.toNat ≤ s.width) (hy : y.toNat + bh.toNat ≤ s.height)
    (ht : execBlit x y 1 1 bw bh base s = .next t) (hok : t.status = .ok) {i j : Nat} (hi : i < bh.toNat)
    (hj : j < bw.toNat) :
    ∃ b, memRead s.src (base.toNat + i * strideOf bw.toNat + j / 8) = some b ∧
      (t.pix ((y.toNat + i) / 8 * s.width + x.toNat + j)).getLsbD ((y.toNat + i) % 8) = b.getLsbD (j % 8) := by
  obtain ⟨hn, -⟩ | ⟨-, -, rfl⟩ | ⟨-, -, ho, -⟩ | ⟨-, -, ho, ht⟩ := execBlit_next ht
  · exact absurd (hr.symm.trans hn) (by decide)
  · cases hok
  · have hon : offScreen s.width s.height x y = false := offScreen_eq_false.mpr (by omega)
    exact absurd (ho.symm.trans hon) (by decide)
  · obtain ⟨-, fb, hrows, rfl⟩ := runBlit_next ht
    have rows := blitRows_ok hrows
    have hcol := blitJob_columns (y := y) bw bh base (offScreen_eq_false.mp ho).1
    have hdw : (blitJob s.width s.height x y bw bh base).dw = bw.toNat := min_eq_left (by omega)
    have hdh : (blitJob s.width s.height x y bw bh base).dh = bh.toNat := min_eq_left (by omega)
    obtain ⟨b, hb⟩ := Option.isSome_iff_exists.mp (rows.admitted i (hdh.symm ▸ hi) (j / 8) (by omega))
    refine ⟨b, hb, ?_⟩
    have hpix := rows.pixel_inside hcol (hdh.symm ▸ hi) (hdw.symm ▸ hj)
    rw [sourcePixel, hb, ← Nat.add_assoc (_ * _)] at hpix
    exact hpix

/-- Outside the clipped rectangle a BLIT leaves every pixel, whatever its bitmap and its end (43_compositor.md R145 (d)). -/
theorem execBlit_pixel_outside {s t : State} {x y : BitVec 16} {bp dp : BitVec 1} {bw bh : BitVec 16} {base : BitVec 32}
    (ht : execBlit x y bp dp bw bh base s = .next t) {c r : Nat} (hc : c < s.width)
    (hout : ¬ (blitJob s.width s.height x y bw bh base).Covers (clipped bh.toNat s.height y.toNat) c r) :
    t.pixel c r = s.pixel c r := by
  obtain ⟨-, rfl⟩ | ⟨-, -, rfl⟩ | ⟨-, -, -, rfl⟩ | ⟨-, -, ho, ht⟩ := execBlit_next ht
  · rfl
  · rfl
  · rfl
  · obtain ⟨-, fb, hrows, rfl⟩ := runBlit_next ht
    exact (blitRows_ok hrows).pixel_outside (blitJob_columns bw bh base (offScreen_eq_false.mp ho).1) hc hout

/-- Settles O29: (a) the drawn pixels are the source's, (b) no others of the source matter, (c) off the panel nothing is
drawn, (d) and nothing outside the rectangle ever is. -/
theorem blitReadsBack : Obligations.BlitReadsBack := by
  refine ⟨fun s t x y bw bh base _ hr hx hy ht hok i hi j hj => ?inBounds,
    fun s t src' x y bw bh base h _ ht hsrc => ?otherSource, fun s x y bw bh base hr hbw hbh hoff => ?offPanel,
    fun s t x y bw bh base _ _ ht c r hc hout => ?outside⟩
  case inBounds => exact execBlit_readsBack hr hx hy ht hok hi hj
  case otherSource =>
    exact execBlit_congr_source h ht (fun i hi b hb => (hsrc i hi b hb).1)
      fun i hi c hc => sourcePixel_congr (fun b hb => (hsrc i hi b hb).2) hc
  case offPanel =>
    have hok : bitmapOk 1 1 bw bh = true := by
      rw [← Bool.not_eq_false, bitmapOk_eq_false]
      simp only [hbw, hbh]
      decide
    exact execBlit_offScreen hr hok (decide_eq_true hoff)
  case outside => exact execBlit_pixel_outside ht hc (mt And.symm hout)

/-- Settles O31: the bitmap check ends BLIT before its off-screen test. -/
theorem blitRejectsInvalidBitmaps : Obligations.BlitRejectsInvalidBitmaps := by
  intro s x y bp dp bw bh base hr hbad
  exact execBlit_invalid hr (bitmapOk_eq_false.mpr hbad)

end Sys2Proof.Machine
end

section
/-! SHOW's writes by number: the rule's list, a SHOW that ends `OK`, and the first write that fails. -/

namespace Sys2Proof.Machine

/-! ### The rule's list of writes -/

/-- After the mode write, write `k + 2` is that of page `k / 4` in phase `k % 4` (44_sequencer.md R152). -/
theorem showBytesOfRule_getElem? (s : State) {k : Nat} (hk : k < 4 * s.pages) :
    (showBytesOfRule s)[k + 1]? = some (showWriteOf s (k / 4) (phaseOfRule (k % 4))) := by
  refine (getElem?_flatMap_four (fun _ => rfl) hk).trans ?_
  have hq : k % 4 < 4 := Nat.mod_lt k (by decide)
  generalize k % 4 = q at hq ⊢
  interval_cases q <;> rfl

/-- The lengths of the writes: 3 bytes, then per page three of 2 and one of `W + 1` (44_sequencer.md R154). -/
theorem showBytesOfRule_lengths (s : State) :
    (showBytesOfRule s).map List.length = 3 :: (List.replicate s.pages [2, 2, 2, s.width + 1]).flatten := by
  simp [showBytesOfRule, List.flatMap_def, Function.comp_def, State.pages, Config.pageRows]

theorem length_showBytesOfRule (s : State) : (showBytesOfRule s).length = 1 + 4 * s.pages := by
  have h := congrArg List.length (showBytesOfRule_lengths s)
  simpa [Nat.mul_comm, Nat.add_comm] using h

theorem showBytesOfRule_sum_lengths (s : State) :
    ((showBytesOfRule s).map List.length).sum = 3 + s.pages * (2 + 2 + 2 + s.width + 1) := by
  rw [showBytesOfRule_lengths]
  simp only [List.sum_cons, List.sum_flatten, List.map_replicate, List.sum_replicate, List.sum_nil, smul_eq_mul]
  congr 2
  omega

/-! ### A SHOW that ends `OK` -/

/-- A SHOW that ends `OK` passed its readiness check and made every write of the rule, each acknowledged in full. -/
theorem execShow_ok {s t : State} (h : s.Inv) (ht : execShow s = .next t) (hok : t.status = .ok) :
    s.ready = true ∧ t.tr = s.tr ++ (showBytesOfRule s).map (ackedEntry s) := by
  obtain ⟨-, rfl⟩ | ⟨hr, ht⟩ := execShow_next ht
  · cases hok
  · obtain ⟨-, -, -, -, -, -, -, -, -, ⟨-, htr⟩ | ⟨hst, -⟩⟩ := finishEmitted_next ht
    · rw [htr, ← showWrites_bytes (h.pages_le hr), List.map_map]
      exact ⟨hr, rfl⟩
    · cases hok.symm.trans hst

/-- The data write of page 0 is the store's first `W + 1` bytes, the marker among them (44_sequencer.md R151). -/
theorem showWriteOf_pageZero {s : State} (h : s.Inv) (hr : s.ready = true) :
    showWriteOf s 0 .data = (List.range (s.width + 1)).map s.fbByte := by
  rw [List.range_succ_eq_map, List.map_cons, List.map_map, h.markerKept hr]
  simp [showWriteOf, Config.marker, Config.ctrlData, State.pix, Nat.add_comm, Function.comp_def]

/-- Settles O34: write `4 * p + 5` of the rule's list is page p's data write. -/
theorem pageFrames : Obligations.PageFrames := by
  intro s t p h ht hok hp
  obtain ⟨hr, htr⟩ := execShow_ok h ht hok
  obtain ⟨hw, -⟩ := h.geometry_cases hr
  have hwrite : (showBytesOfRule s)[4 * p + 4]? = some (showWriteOf s p .data) := by
    have := showBytesOfRule_getElem? s (k := 4 * p + 3) (by omega)
    rwa [show (4 * p + 3) / 4 = p by omega, show (4 * p + 3) % 4 = 3 by omega] at this
  have hlen : (showWriteOf s p .data).length = s.width + 1 := by simp [showWriteOf]
  refine ⟨ackedEntry s (showWriteOf s p .data), ?entry, rfl, hlen, hlen.trans (by rw [hw]), ?pageZero⟩
  case entry =>
    rw [htr, Nat.add_assoc, List.getElem?_append_right (by omega), Nat.add_sub_cancel_left, List.getElem?_map, hwrite]
    rfl
  case pageZero =>
    rintro rfl
    exact showWriteOf_pageZero h hr

/-- Settles O35: the entries are the rule's writes, whose lengths are counted for any geometry. -/
theorem showCounts : Obligations.ShowCounts := by
  intro s t h ht hok
  obtain ⟨hr, htr⟩ := execShow_ok h ht hok
  obtain ⟨hw, -⟩ := h.geometry_cases hr
  have hlens : ((showBytesOfRule s).map (ackedEntry s)).map (fun e => e.bytes.length) =
      (showBytesOfRule s).map List.length := List.map_map
  have hcount := (List.length_map (ackedEntry s)).trans (length_showBytesOfRule s)
  have hsum := showBytesOfRule_sum_lengths s
  rw [← hlens] at hsum
  refine ⟨_, htr, hcount, hsum, ?lengths, fun hh => ?tall, fun hh => ?short⟩
  case lengths => rw [hlens, showBytesOfRule_lengths, hw]
  case tall => rw [hcount, hsum, State.pages, hw, hh]; decide
  case short => rw [hcount, hsum, State.pages, hw, hh]; decide

/-! ### The first write that fails -/

/-- A run of writes whose write at index `k` is the first not answered in full: the whole next state. -/
theorem finishEmitted_failedAt_index (len : Nat) {ws : List (Seq × List Byte)} {w : Seq × List Byte} {k : Nat}
    (hw : ws[k]? = some w) {s : State} {a : Answer} {rest : List (Option Answer)}
    (hd : s.draws = ackAll (ws.take k) ++ some a :: rest) (ha : a ≠ .ack w.2.length) :
    finishEmitted len (emitAll ws s) = .next (raiseStatus .transportFailure len
      { s with tr := s.tr ++ (ws.take k).map (fun v => ackedEntry s v.2) ++ [entryOf s w.2 a], draws := rest }) := by
  obtain ⟨hk, rfl⟩ := List.getElem?_eq_some_iff.mp hw
  have hsplit : ws = ws.take k ++ ws[k] :: ws.drop (k + 1) := by
    rw [← List.drop_eq_getElem_cons hk, List.take_append_drop]
  exact (congrArg (fun v => finishEmitted len (emitAll v s)) hsplit).trans
    (finishEmitted_failedAt len (ws.take k) ws[k] (ws.drop (k + 1)) hd ha)

/-- Settles O36: the write's number gives its page and phase, and the run of writes stops at it. -/
theorem showAbortsAtTheFirstFailure : Obligations.ShowAbortsAtTheFirstFailure := by
  refine ⟨fun s m hlo hhi => ?numbered, fun s => ⟨rfl, length_showBytesOfRule s⟩,
    fun s k w a rest h hr hw ha hd => ?stops⟩
  case numbered =>
    obtain ⟨k, rfl⟩ := Nat.exists_eq_add_of_le' hlo
    exact showBytesOfRule_getElem? s (by omega)
  case stops =>
    have hbytes := showWrites_bytes (h.pages_le hr)
    rw [← hbytes, List.getElem?_map, Option.map_eq_some_iff] at hw
    obtain ⟨v, hv, rfl⟩ := hw
    rw [← hbytes, ← List.map_take, ← ackAll_eq_fullAcks] at hd
    rw [exec, execShow, whenReady_ready hr, finishEmitted_failedAt_index 1 hv hd ha, ← hbytes, ← List.map_take,
      List.map_map]
    rfl

end Sys2Proof.Machine
end

section
/-! The statuses: which operation ends with which, and what a status other than `OK` leaves as it was. -/

namespace Sys2Proof.Machine

/-! ### The table of R162 -/

/-- Settles O45: each check raises its one status, and past its checks an operation ends with `OK` or, after bus writes,
`TransportFailure`. -/
theorem statusesByOperation : Obligations.StatusesByOperation := by
  refine ⟨fun s t gw gh ga h => ?geom, fun s t h => ?release, fun s t p c h => ?init, fun s t h => ?clear,
    fun s t sp ep sc ec h => ?setArea, fun s t x y bp dp bw bh base h => ?blit, fun s t h => ?showFrame⟩
  case geom => obtain ⟨-, rfl⟩ | ⟨-, rfl⟩ := execGeom_next h <;> simp
  case release => obtain ⟨-, rfl⟩ | ⟨-, rfl⟩ := execRelease_next h <;> rfl
  case init =>
    obtain ⟨-, rfl⟩ | ⟨-, -, rfl⟩ | ⟨-, -, -, h⟩ := execInit_next h
    · simp
    · simp
    · obtain hst | hst := finishEmitted_status h <;> simp [hst]
  case clear => obtain ⟨-, rfl⟩ | ⟨-, rfl⟩ := execClear_next h <;> simp
  case setArea =>
    obtain ⟨-, rfl⟩ | ⟨-, -, rfl⟩ | ⟨-, -, h⟩ := execSetArea_next h
    · simp
    · simp
    · obtain hst | hst := finishEmitted_status h <;> simp [hst]
  case blit =>
    obtain ⟨-, rfl⟩ | ⟨-, -, rfl⟩ | ⟨-, -, -, rfl⟩ | ⟨-, -, -, h⟩ := execBlit_next h
    · simp
    · simp
    · simp
    · obtain ⟨-, fb, -, rfl⟩ := runBlit_next h
      simp
  case showFrame =>
    obtain ⟨-, rfl⟩ | ⟨-, h⟩ := execShow_next h
    · simp
    · obtain hst | hst := finishEmitted_status h <;> simp [hst]

/-! ### What a failing operation leaves as it was -/

/-- From `s` to `t` nothing changed but `STATUS` and `opc`, and the transcript, which grew if at all by a run of bus writes
that failed (60_exceptions.md R166). -/
structure FailureKeeps (s t : State) : Prop where
  fb : t.fb = s.fb
  geomW : t.geomW = s.geomW
  geomH : t.geomH = s.geomH
  ready : t.ready = s.ready
  devAddr : t.devAddr = s.devAddr
  ops : t.ops = s.ops
  src : t.src = s.src
  seq : t.seq = .idle
  grown : ∃ es, t.tr = s.tr ++ es
  silent : t.status ≠ .transportFailure → t.tr = s.tr

theorem FailureKeeps.of_status (s : State) (code : StatusCode) (len : Nat) : FailureKeeps s (raiseStatus code len s) :=
  ⟨rfl, rfl, rfl, rfl, rfl, rfl, rfl, rfl, ⟨[], by simp⟩, fun _ => rfl⟩

/-- A run of bus writes that does not end with `OK` ends with `TransportFailure`. -/
theorem FailureKeeps.of_emitted {len : Nat} {ws : List (Seq × List Byte)} {s t : State}
    (h : finishEmitted len (emitAll ws s) = .next t) (hst : t.status ≠ .ok) : FailureKeeps s t := by
  obtain ⟨es, htr, -⟩ := finishEmitted_entries h
  have hfail : t.status = .transportFailure := (finishEmitted_status h).resolve_left hst
  obtain ⟨-, hw, hh, hr, ha, hfb, hops, hsrc, hq, -⟩ := finishEmitted_next h
  exact ⟨hfb, hw, hh, hr, ha, hops, hsrc, hq, ⟨es, htr⟩, fun hne => absurd hfail hne⟩

/-- The four writers of registers and store end with `OK`, so a failing operation ended with a status alone or in a run of
bus writes. -/
theorem OperationEnd.failureKeeps {i : Instr} {s t : State} (h : OperationEnd s i t) (hst : t.status ≠ .ok) :
    FailureKeeps s t := by
  cases h with
  | ended _ code => exact .of_status s code _
  | constructed gw gh ga => exact absurd rfl hst
  | released => exact absurd rfl hst
  | cleared => exact absurd rfl hst
  | drawn rows => exact absurd rfl hst
  | emitted writes => exact .of_emitted writes hst

theorem step_failureKeeps {s t : State} (hs : s.seq = .idle) (h : step s = .next t) (hst : t.status ≠ .ok) :
    FailureKeeps s t := by
  obtain ⟨i, hf, h⟩ | ⟨len, -, rfl⟩ := step_next h
  · exact (exec_operationEnd (isOperation_of_fetch hs hf) h).failureKeeps hst
  · exact .of_status s _ len

/-- A step from between operations moves `opc` past one word or two (10_state.md R21). -/
theorem step_opc {s t : State} (hs : s.seq = .idle) (h : step s = .next t) : t.opc = s.opc + 1 ∨ t.opc = s.opc + 2 := by
  obtain ⟨-, hlen, -⟩ := opcAdvancesByLength
  cases hw : s.ops[s.opc]? with
  | none => simp [step, fetch, hs, fetchOperation, hw] at h
  | some w0 =>
    rw [hlen s t w0 hs hw h]
    split
    · exact .inr rfl
    · exact .inl rfl

/-- Settles O46: by the ways an operation ends, and an illegal word is a status alone. -/
theorem failingOperationsChangeNothingElse : Obligations.FailingOperationsChangeNothingElse := by
  refine ⟨fun i s t hop h hst => ?operation, fun s t hs h hst => ?step⟩
  case operation =>
    have hend := exec_operationEnd hop h
    have k := hend.failureKeeps hst
    exact ⟨k.fb, State.fbByte_congr k.fb, k.geomW, k.geomH, k.ready, k.devAddr, k.ops, k.src, k.seq, hend.opc, k.grown,
      k.silent⟩
  case step =>
    have k := step_failureKeeps hs h hst
    exact ⟨k.fb, State.fbByte_congr k.fb, k.geomW, k.geomH, k.ready, k.devAddr, k.ops, k.src, k.seq, step_opc hs h,
      k.grown, k.silent⟩

end Sys2Proof.Machine
end

section
/-! Reset and hazards: what RELEASE leaves of the framebuffer. -/

namespace Sys2Proof.Machine

/-- RELEASE leaves the block between operations (10_state.md R33). -/
theorem execRelease_seq {s t : State} (h : execRelease s = .next t) : t.seq = .idle := by
  obtain ⟨-, rfl⟩ | ⟨-, rfl⟩ := execRelease_next h
  · rfl
  · rfl

/-- Settles O15: a released block is between operations and not ready, so no byte is observed and the readiness check ends
the operation; a supported GEOM makes its store afresh. -/
theorem nothingSurvivesRelease : Obligations.NothingSurvivesRelease := by
  refine ⟨fun s t h => ?released, fun t i hr hop hgeom hrelease => ?notReady, fun t gw gh ga h => ?fresh⟩
  case released =>
    have hr : t.ready = false := execRelease_ready h
    exact ⟨hr, observeFb_of_not_ready (execRelease_seq h) hr⟩
  case notReady => exact ⟨_, exec_of_not_ready hop hr hgeom hrelease, rfl, hr⟩
  case fresh =>
    exact ⟨_, exec_geom_of_supported ((supportedGeometry_iff gw gh).mpr h) ga t, rfl, fun i _ => construct_pix gw gh ga t i⟩

end Sys2Proof.Machine
end
